-- ==== Sys2Proof/Word.lean ====
section
/-! DEFINITION. The bit widths the PPRB's datapath works on (spec/00_scope.md rule R15). -/

namespace Sys2Proof

/-- The unit of every memory access: four packed pixels (spec/20_memory.md rule R64). -/
abbrev Byte := BitVec 8

/-- A command word, and the width every register is read at (spec/00_scope.md rule R15). -/
abbrev Word := BitVec 32

/-- One 2-bit pixel value, 0..3 (spec/00_scope.md rule R10). -/
abbrev Pixel := BitVec 2

end Sys2Proof
end

