-- ==== Sys2Proof/Config.lean ====
section
/-! DEFINITION. What is fixed for one PPRB and its platform (the OPEN parameters of spec/00_scope.md rules
R11 to R14), and the free values: what the spec leaves without a value although the machine goes on. -/

namespace Sys2Proof

/-- One run of byte addresses, both ends included, that the platform does not populate: `MemValid` of rule
R14 is false exactly on the listed runs.  Over at most 2^32 addresses every predicate is such a list. -/
structure Hole where
  first : Nat
  last  : Nat
deriving DecidableEq, Repr

/-- One row of the table `Geom` of spec/00_scope.md rule R12. -/
structure Geom where
  base   : Word
  stride : BitVec 16
  ilv    : BitVec 8
  ymult  : BitVec 16
  ydiv   : BitVec 16
deriving DecidableEq, Repr

/-- The parameters of spec/00_scope.md rules R11 to R14.  The fixed entries of `Geom` (the interleave
factors 1, 2, 4 and the scale 1/1 of the linear and CGA rows) are not parameters. -/
structure Config where
  /-- `ADDR_BITS`, rule R11. -/
  addrBits    : Nat
  linBase     : Word
  linStride   : BitVec 16
  cgaBase     : Word
  cgaStride   : BitVec 16
  hercBase    : Word
  hercStride  : BitVec 16
  hercYmult   : BitVec 16
  hercYdiv    : BitVec 16
  /-- The strap `HERC_PRESENT`, rule R13. -/
  hercPresent : Bool
  /-- Where `MemValid` of rule R14 is false. -/
  holes       : List Hole
deriving DecidableEq, Repr

/-- The constraints the spec puts on the parameters (rules R11, R12, R208 and section 2 of
spec/92_eei_decisions.md): an address has 1 to 32 bits, each base is an address, `ydiv >= 1`. -/
def Config.wf (c : Config) : Bool :=
  decide (1 ≤ c.addrBits) && decide (c.addrBits ≤ 32)
    && decide (c.linBase.toNat < 2 ^ c.addrBits) && decide (c.cgaBase.toNat < 2 ^ c.addrBits)
    && decide (c.hercBase.toNat < 2 ^ c.addrBits) && decide (0 < c.hercYdiv.toNat)

/-- `CFG_TEST` (rules R11 to R14, spec/92_eei_decisions.md section 2).  DESIGN CHOICE, unsafe: it is the
configuration of `State.reset`; the spec calls it test data.  notes/assumptions/2.md. -/
def Config.cfgTest : Config :=
  { addrBits := 20
    linBase := 0x00000, linStride := 80
    cgaBase := 0xB8000, cgaStride := 80
    hercBase := 0xB0000, hercStride := 90, hercYmult := 3, hercYdiv := 2
    hercPresent := false
    holes := [] }

/-- The bank spacing of the interleaved geometries, the document's literal (rules R10, R208). -/
def bankSpacing : Nat := 0x2000

/-- A free byte: a colour byte the spec leaves unspecified (spec/93_implementation_defined.md U1, U2).
Applied to the counter of `State`.  notes/assumptions/6.md and notes/assumptions/7.md. -/
opaque freeByte : Nat → Byte

/-- A free word: the geometry registers after MODE is written 0 (spec/44_mapper.md rule R201, U11).
notes/assumptions/5.md. -/
opaque freeWord : Nat → Word

end Sys2Proof
end

