-- ==== Sys2Proof/Syntax.lean ====
section
/-! DEFINITION. The commands of the PPRB: one constructor per row of spec/opcode_table.json
(spec/30_encoding.md rules R92, R93, R98). -/

namespace Sys2Proof

/-- The kind field `k` (rule R93): 0 a PixelBuffer described by SRC_* or DST_*, 1 the surface. -/
inductive Kind where
  | buf
  | surf
deriving DecidableEq, Repr

/-- The five draw modes (rule R95), in the order of their codes 0..4. -/
inductive DrawMode where
  | copy
  | copyInv
  | and
  | or
  | xor
deriving DecidableEq, Repr

/-- A command.  Fields have the widths of rule R93; the draw mode `m` is part of the constructor, as the
opcode table gives each mode a row of its own. -/
inductive Instr where
  | nop
  | setl (r : BitVec 5) (imm : BitVec 16)
  | seth (r : BitVec 5) (imm : BitVec 16)
  | getpix (k : Kind)
  | putpixCopy (k : Kind) (v : Pixel)
  | putpixCopyinv (k : Kind) (v : Pixel)
  | putpixAnd (k : Kind) (v : Pixel)
  | putpixOr (k : Kind) (v : Pixel)
  | putpixXor (k : Kind) (v : Pixel)
  | composeCopy (d s : Byte)
  | composeCopyinv (d s : Byte)
  | composeAnd (d s : Byte)
  | composeOr (d s : Byte)
  | composeXor (d s : Byte)
  | mapaddr
  | putCopy (full : Bool) (k : Kind)
  | putCopyinv (full : Bool) (k : Kind)
  | putAnd (full : Bool) (k : Kind)
  | putOr (full : Bool) (k : Kind)
  | putXor (full : Bool) (k : Kind)
  | get (k : Kind)
  | fill (k : Kind)
  | print (k : Kind) (ch : Byte)
  | recolor (ink paper : Pixel)
  | glyphget (code : Byte)
  | glyphput (code : Byte)
deriving DecidableEq, Repr

end Sys2Proof
end

