-- ==== Sys2Proof/Machine/State.lean ====
section
/-! DEFINITION. The state of the PPRB as plain data, its value after reset, and the reasons a step can stop
(spec/10_state.md rules R20 to R37, spec/20_memory.md rule R60). -/

namespace Sys2Proof.Machine

/-- The parameter registers of rule R21, by name, in the order of their indices 0..26. -/
inductive Reg where
  | srcAddr | srcW | srcH
  | dstAddr | dstW | dstH
  | xd | yd | xs | ys | w | h
  | ink | paper
  | glyphAddr | glyphFirst | glyphLast
  | ctrl
  | mode | gBase | gStride | gIlv | gYmult | gYdiv
  | result | status | faultInfo
deriving DecidableEq, Repr

/-- The register file `x` (rule R21).  A register of width `A` is held in 32 bits; that it stays below
`2^A` is part of the invariant of Safety.lean. -/
structure Regs where
  srcAddr    : Word
  srcW       : BitVec 16
  srcH       : BitVec 16
  dstAddr    : Word
  dstW       : BitVec 16
  dstH       : BitVec 16
  xd         : BitVec 16
  yd         : BitVec 16
  xs         : BitVec 16
  ys         : BitVec 16
  w          : BitVec 16
  h          : BitVec 16
  ink        : BitVec 8
  paper      : BitVec 8
  glyphAddr  : Word
  glyphFirst : BitVec 8
  glyphLast  : BitVec 8
  ctrl       : BitVec 1
  mode       : BitVec 2
  gBase      : Word
  gStride    : BitVec 16
  gIlv       : BitVec 8
  gYmult     : BitVec 16
  gYdiv      : BitVec 16
  result     : Word
  status     : BitVec 3
  faultInfo  : Word
deriving DecidableEq, Repr

/-- One access on the memory port (rule R35: MEM_ADDR, MEM_WE, MEM_RDATA or MEM_WDATA).  An access the
platform refuses does not happen (rule R79) and is not listed. -/
inductive Access where
  | read  (addr : Nat) (v : Byte)
  | write (addr : Nat) (v : Byte)
deriving DecidableEq, Repr

/-- A move of the host (rule R36).  There is no move that changes HERC_PRESENT. -/
inductive HostMove where
  /-- Assert RESET. -/
  | reset
  /-- Present a command word on CMD. -/
  | command (c : Word)
  /-- Present an index on REG_IDX and read REG_DATA. -/
  | readRegister (idx : BitVec 5)
  | readMemory (addr : Nat)
  | writeMemory (addr : Nat) (v : Byte)
deriving DecidableEq, Repr

/-- What the PPRB raises (rule R241). -/
inductive Cause where
  | illegalCommand
  | noSurface
  | busError
deriving DecidableEq, Repr

/-- The whole state.  `x`, `halted` and `mem` are rule R20's; `cfg` and `written` are the rest of the start
state of a run (rule R296); `moves`, `bus` and `reply` are the host and its ports (rules R35, R36);
`position` is rule R28's; `freeCount` is the model's own. -/
structure State where
  x         : Regs
  /-- HALTED (rule R33). -/
  halted    : Bool
  /-- Memory, sorted by address, no entry equal to what an unlisted address reads as. -/
  mem       : List Host.Cell
  /-- The parameters, constant over a run (rules R11 to R14). -/
  cfg       : Config
  /-- The registers written since reset (rule R38), no repeats. -/
  written   : List Reg
  /-- The moves the host has still to make, first one first (rules R28, R36, R296). -/
  moves     : List HostMove
  /-- How many command words have been accepted or discarded (rule R28). -/
  position  : Nat
  /-- The memory accesses of the last command, in the order they were made (rules R35, R71). -/
  bus       : List Access
  /-- What the host's last read returned, zero-extended (rules R35, R36). -/
  reply     : Word
  /-- How many free values have been taken; the model's own field. -/
  freeCount : Nat
deriving DecidableEq, Repr

/-- The machine stops with a fault; neither case is a command the spec gives an effect. -/
inductive Fault where
  /-- Raised by a command that would use `surf_addr` while G_ILV or G_YDIV is 0, which rule R208 excludes
  and rule R16 leaves without a quotient.  Safe: no run from reset reaches it. notes/assumptions/8.md. -/
  | surfaceScaleUndefined
  /-- Raised by a host move on memory at an address outside `0 .. 2^A - 1` or not populated; the spec
  describes the platform's answer to the PPRB only.  Safe.  notes/assumptions/9.md. -/
  | hostAccessNoByte
deriving DecidableEq, Repr

/-- The model has no meaning for an instruction. -/
inductive Refusal where
  /-- Raised by an arm of `exec` that gives its instruction no meaning; safe.  No arm is left so. -/
  | notModelled (mnemonic : String)
deriving DecidableEq, Repr

/-- The registers after RESET (rules R37, R270).  INK, PAPER, CTRL, MODE and STATUS are the spec's; every
other value is a DESIGN CHOICE, unsafe: the spec leaves it unspecified.  notes/assumptions/1.md. -/
def Regs.reset : Regs :=
  { srcAddr := 0, srcW := 0, srcH := 0
    dstAddr := 0, dstW := 0, dstH := 0
    xd := 0, yd := 0, xs := 0, ys := 0, w := 0, h := 0
    ink := 3, paper := 0
    glyphAddr := 0, glyphFirst := 0, glyphLast := 0
    ctrl := 0
    mode := 0, gBase := 0, gStride := 0, gIlv := 0, gYmult := 0, gYdiv := 0
    result := 0, status := 0, faultInfo := 0 }

/-- The state right after reset of a PPRB with the parameters `c` and the memory contents `m`, no host move
pending (rule R37). -/
def State.resetOf (c : Config) (m : List Host.Cell) : State :=
  { x := Regs.reset
    halted := false
    mem := m
    cfg := c
    written := []
    moves := []
    position := 0
    bus := []
    reply := 0
    freeCount := 0 }

/-- The machine right after reset, under CFG_TEST (notes/assumptions/2.md), nothing written to memory. -/
def State.reset : State := State.resetOf Config.cfgTest []

end Sys2Proof.Machine
end

