-- ==== Sys2Proof/Machine/Flags.lean ====
section
/-! DEFINITION. The only flag-like state: the sticky error bits of STATUS (spec/10_state.md rule R31).  No
command writes a condition code. -/

namespace Sys2Proof.Machine

/-- The STATUS bit of an error (rules R31, R241): bit 0 ILL, bit 1 NOSURF, bit 2 BUS. -/
def Cause.statusBit : Cause → BitVec 3
  | .illegalCommand => 0b001
  | .noSurface => 0b010
  | .busError => 0b100

end Sys2Proof.Machine
end

