-- ==== Sys2Proof/Machine/Operands.lean ====
section
/-! DEFINITION. The pure functions of rule R18: packing (spec/41_bitslice.md), the compositor
(spec/45_compositor.md), the address mapper (spec/44_mapper.md), buffer, row and glyph addresses
(spec/42_region.md, spec/43_glyph.md), and the tables the parameters give (spec/00_scope.md). -/

namespace Sys2Proof.Machine

/-! ### Parameters (rules R12, R14, R80) -/

/-- `trunc_A` of an address expression, which is an integer (rule R80). -/
def truncA (c : Config) (a : Int) : Nat := (a % ((2 ^ c.addrBits : Nat) : Int)).toNat

/-- `trunc_A` of a value written to an `A`-bit register (rule R22). -/
def truncWord (c : Config) (v : Word) : Word := BitVec.ofNat 32 (v.toNat % 2 ^ c.addrBits)

/-- `MemValid` (rule R14). -/
def memValid (c : Config) (a : Nat) : Bool :=
  !c.holes.any fun hole => decide (hole.first ≤ a) && decide (a ≤ hole.last)

/-- `Geom` (rules R12, R208); text mode has none (rule R27). -/
def geomOf (c : Config) (m : BitVec 2) : Option Geom :=
  if m = 0 then none
  else if m = 1 then
    some { base := c.linBase, stride := c.linStride, ilv := 1, ymult := 1, ydiv := 1 }
  else if m = 2 then
    some { base := c.cgaBase, stride := c.cgaStride, ilv := 2, ymult := 1, ydiv := 1 }
  else
    some { base := c.hercBase, stride := c.hercStride, ilv := 4, ymult := c.hercYmult,
           ydiv := c.hercYdiv }

/-! ### Bit-slicing unit (rules R131 to R135) -/

/-- Rule R131. -/
def lane (px : Nat) : Fin 4 := Fin.ofNat 4 px

/-- The bit number of the low bit of a lane (rule R131). -/
def laneShift (l : Fin 4) : Nat := 6 - 2 * l.val

/-- Rule R132. -/
def pixGet (b : Byte) (l : Fin 4) : Pixel := (b >>> laneShift l).setWidth 2

/-- Rule R133. -/
def pixSet (b : Byte) (l : Fin 4) (v : Pixel) : Byte :=
  (b &&& ~~~((3 : Byte) <<< laneShift l)) ||| (v.setWidth 8 <<< laneShift l)

/-- Rule R134.  No meaning applies it to a colour above 3, whose byte the spec leaves unspecified. -/
def rep4 (v : Byte) : Byte := v * 0x55

/-- Rule R135, the ink/paper masking rule. -/
def recolour (b ink paper : Byte) : Byte := (b &&& rep4 ink) ||| (~~~b &&& rep4 paper)

/-- A colour in range (rule R25). -/
def colourLegal (v : Byte) : Bool := decide (v.toNat ≤ 3)

/-- Every lane is 0 or 3 (spec/00_scope.md rule R19, canonical byte). -/
def canonical (b : Byte) : Bool :=
  b.getLsbD 7 == b.getLsbD 6 && b.getLsbD 5 == b.getLsbD 4
    && b.getLsbD 3 == b.getLsbD 2 && b.getLsbD 1 == b.getLsbD 0

/-! ### Raster compositor (rules R221, R227, R229) -/

/-- Rule R221. -/
def compose (m : DrawMode) (d s : Byte) : Byte :=
  match m with
  | .copy => s
  | .copyInv => ~~~s
  | .and => d &&& s
  | .or => d ||| s
  | .xor => d ^^^ s

/-- Rule R227, the same table on one pixel. -/
def compose2 (m : DrawMode) (d s : Pixel) : Pixel :=
  match m with
  | .copy => s
  | .copyInv => 3 - s
  | .and => d &&& s
  | .or => d ||| s
  | .xor => d ^^^ s

/-- Every mode but COPY reads the destination byte first (rule R229). -/
def readsDestination (m : DrawMode) : Bool := m != .copy

/-! ### Addresses, before `trunc_A` -/

/-- Rule R136. -/
def bufAddr (base : Word) (width : BitVec 16) (px py : Nat) : Nat :=
  base.toNat + px / 4 + py * (width.toNat / 4)

/-- The scaled row `ys` of rule R202: multiply, then divide. -/
def scaledRow (x : Regs) (py : Nat) : Nat := py * x.gYmult.toNat / x.gYdiv.toNat

/-- Rule R202. -/
def surfAddr (x : Regs) (px py : Nat) : Nat :=
  x.gBase.toNat + px / 4 + bankSpacing * (scaledRow x py % x.gIlv.toNat)
    + x.gStride.toNat * (scaledRow x py / x.gIlv.toNat)

/-- Where `surf_addr` has a value: both divisors are positive (rules R16, R208). -/
def surfaceScaled (x : Regs) : Bool := decide (0 < x.gIlv.toNat) && decide (0 < x.gYdiv.toNat)

/-- `src_row` of rule R151. -/
def srcRow (x : Regs) (k : Kind) (px py : Nat) : Nat :=
  match k with
  | .buf => bufAddr x.srcAddr x.srcW px py
  | .surf => surfAddr x px py

/-- `dst_row` of rule R151. -/
def dstRow (x : Regs) (k : Kind) (px py : Nat) : Nat :=
  match k with
  | .buf => bufAddr x.dstAddr x.dstW px py
  | .surf => surfAddr x px py

/-- Rule R180: an integer, possibly negative. -/
def glyphAddr (x : Regs) (code : Byte) (row : Nat) : Int :=
  (x.glyphAddr.toNat : Int) + 8 * ((code.toNat : Int) - (x.glyphFirst.toNat : Int)) + (row : Int)

/-- How many bytes RECOLOR rewrites; none when GLYPH_LAST < GLYPH_FIRST (rule R185). -/
def recolorCount (x : Regs) : Nat :=
  (8 * ((x.glyphLast.toNat : Int) - (x.glyphFirst.toNat : Int) + 1)).toNat

/-! ### Operands of PUT (rule R153) -/

structure RegionOperands where
  px   : Nat
  py   : Nat
  cols : Nat
  rows : Nat
deriving DecidableEq, Repr

/-- `(xs, ys, w, h)` of rule R153: the operand registers, or with `f = 1` the whole source. -/
def regionOperands (x : Regs) (full : Bool) : RegionOperands :=
  if full then { px := 0, py := 0, cols := x.srcW.toNat, rows := x.srcH.toNat }
  else { px := x.xs.toNat, py := x.ys.toNat, cols := x.w.toNat, rows := x.h.toNat }

/-! ### Register indices (rules R21, R123) -/

/-- The register of an index; 27..31 are reserved. -/
def regOfIndex (r : BitVec 5) : Option Reg :=
  match r.toNat with
  | 0 => some .srcAddr
  | 1 => some .srcW
  | 2 => some .srcH
  | 3 => some .dstAddr
  | 4 => some .dstW
  | 5 => some .dstH
  | 6 => some .xd
  | 7 => some .yd
  | 8 => some .xs
  | 9 => some .ys
  | 10 => some .w
  | 11 => some .h
  | 12 => some .ink
  | 13 => some .paper
  | 14 => some .glyphAddr
  | 15 => some .glyphFirst
  | 16 => some .glyphLast
  | 17 => some .ctrl
  | 18 => some .mode
  | 19 => some .gBase
  | 20 => some .gStride
  | 21 => some .gIlv
  | 22 => some .gYmult
  | 23 => some .gYdiv
  | 24 => some .result
  | 25 => some .status
  | 26 => some .faultInfo
  | _ => none

/-- The width of a register (rule R21); `A` for an address. -/
def regWidth (c : Config) : Reg → Nat
  | .srcAddr | .dstAddr | .glyphAddr | .gBase => c.addrBits
  | .srcW | .srcH | .dstW | .dstH | .xd | .yd | .xs | .ys | .w | .h => 16
  | .ink | .paper | .glyphFirst | .glyphLast => 8
  | .ctrl => 1
  | .mode => 2
  | .gStride | .gYmult | .gYdiv => 16
  | .gIlv => 8
  | .result | .faultInfo => 32
  | .status => 3

/-- The registers only the PPRB writes (rules R21, R123). -/
def Reg.unitOnly : Reg → Bool
  | .gBase | .gStride | .gIlv | .gYmult | .gYdiv | .result | .status | .faultInfo => true
  | .srcAddr | .srcW | .srcH | .dstAddr | .dstW | .dstH | .xd | .yd | .xs | .ys | .w | .h | .ink
  | .paper | .glyphAddr | .glyphFirst | .glyphLast | .ctrl | .mode => false

/-- The three registers SETH may write (rule R123). -/
def Reg.isAddress : Reg → Bool
  | .srcAddr | .dstAddr | .glyphAddr => true
  | .srcW | .srcH | .dstW | .dstH | .xd | .yd | .xs | .ys | .w | .h | .ink | .paper | .glyphFirst
  | .glyphLast | .ctrl | .mode | .gBase | .gStride | .gIlv | .gYmult | .gYdiv | .result | .status
  | .faultInfo => false

end Sys2Proof.Machine
end

