-- ==== Sys2Proof/Machine/Ops.lean ====
section
/-! DEFINITION. The named operations over memory and registers that every meaning goes through: memory in
its canonical form, register reads and writes, the error entry and RESET, byte accesses, free values and
counted loops (spec/10_state.md, spec/20_memory.md, spec/60_exceptions.md). -/

namespace Sys2Proof.Machine

/-! ### Memory contents -/

/-- What an address not listed reads as.  DESIGN CHOICE, unsafe: the spec leaves power-up memory
unspecified (rule R37, U3).  notes/assumptions/3.md. -/
def unlistedByte : Byte := 0

/-- The byte at an address. -/
def memByte : List Host.Cell → Nat → Byte
  | [], _ => unlistedByte
  | (b, v) :: m, a => if b = a then v else memByte m a

/-- The contents with the byte at one address replaced, in the canonical form. -/
def memSet : List Host.Cell → Nat → Byte → List Host.Cell
  | [], a, v => if v = unlistedByte then [] else [(a, v)]
  | (b, u) :: m, a, v =>
    if a < b then (if v = unlistedByte then (b, u) :: m else (a, v) :: (b, u) :: m)
    else if a = b then (if v = unlistedByte then m else (b, v) :: m)
    else (b, u) :: memSet m a v

/-- Every listed address is above `lo`, addresses strictly rise, and no entry is what an unlisted address
reads as. -/
def memWfAbove : Option Nat → List Host.Cell → Bool
  | _, [] => true
  | lo, (b, v) :: m =>
    (match lo with
      | none => true
      | some l => decide (l < b)) && v != unlistedByte && memWfAbove (some b) m

/-- The canonical form of memory. -/
def memWf (m : List Host.Cell) : Bool := memWfAbove none m

/-- Memory lists no address outside the address space `0 .. 2^A - 1` (rule R60). -/
def memInSpace (c : Config) (m : List Host.Cell) : Bool := m.all fun e => decide (e.1 < 2 ^ c.addrBits)

/-! ### Registers (rules R17, R22) -/

/-- `x[r]`, zero-extended to 32 bits. -/
def readReg (x : Regs) : Reg → Word
  | .srcAddr => x.srcAddr
  | .srcW => x.srcW.setWidth 32
  | .srcH => x.srcH.setWidth 32
  | .dstAddr => x.dstAddr
  | .dstW => x.dstW.setWidth 32
  | .dstH => x.dstH.setWidth 32
  | .xd => x.xd.setWidth 32
  | .yd => x.yd.setWidth 32
  | .xs => x.xs.setWidth 32
  | .ys => x.ys.setWidth 32
  | .w => x.w.setWidth 32
  | .h => x.h.setWidth 32
  | .ink => x.ink.setWidth 32
  | .paper => x.paper.setWidth 32
  | .glyphAddr => x.glyphAddr
  | .glyphFirst => x.glyphFirst.setWidth 32
  | .glyphLast => x.glyphLast.setWidth 32
  | .ctrl => x.ctrl.setWidth 32
  | .mode => x.mode.setWidth 32
  | .gBase => x.gBase
  | .gStride => x.gStride.setWidth 32
  | .gIlv => x.gIlv.setWidth 32
  | .gYmult => x.gYmult.setWidth 32
  | .gYdiv => x.gYdiv.setWidth 32
  | .result => x.result
  | .status => x.status.setWidth 32
  | .faultInfo => x.faultInfo

/-- `x[r] <- v`: the bits of `v` above the register's width are dropped (rules R17, R22). -/
def setReg (c : Config) (x : Regs) (r : Reg) (v : Word) : Regs :=
  match r with
  | .srcAddr => { x with srcAddr := truncWord c v }
  | .srcW => { x with srcW := v.setWidth 16 }
  | .srcH => { x with srcH := v.setWidth 16 }
  | .dstAddr => { x with dstAddr := truncWord c v }
  | .dstW => { x with dstW := v.setWidth 16 }
  | .dstH => { x with dstH := v.setWidth 16 }
  | .xd => { x with xd := v.setWidth 16 }
  | .yd => { x with yd := v.setWidth 16 }
  | .xs => { x with xs := v.setWidth 16 }
  | .ys => { x with ys := v.setWidth 16 }
  | .w => { x with w := v.setWidth 16 }
  | .h => { x with h := v.setWidth 16 }
  | .ink => { x with ink := v.setWidth 8 }
  | .paper => { x with paper := v.setWidth 8 }
  | .glyphAddr => { x with glyphAddr := truncWord c v }
  | .glyphFirst => { x with glyphFirst := v.setWidth 8 }
  | .glyphLast => { x with glyphLast := v.setWidth 8 }
  | .ctrl => { x with ctrl := v.setWidth 1 }
  | .mode => { x with mode := v.setWidth 2 }
  | .gBase => { x with gBase := truncWord c v }
  | .gStride => { x with gStride := v.setWidth 16 }
  | .gIlv => { x with gIlv := v.setWidth 8 }
  | .gYmult => { x with gYmult := v.setWidth 16 }
  | .gYdiv => { x with gYdiv := v.setWidth 16 }
  | .result => { x with result := v }
  | .status => { x with status := v.setWidth 3 }
  | .faultInfo => { x with faultInfo := v }

/-- A register counts as written since reset (rule R38). -/
def markWritten (r : Reg) (marks : List Reg) : List Reg := if r ∈ marks then marks else marks ++ [r]

/-- A register holds an unspecified value again (rules R29, R201). -/
def markUnwritten (r : Reg) (marks : List Reg) : List Reg := marks.filter (· != r)

/-- A write of a whole register. -/
def writeReg (r : Reg) (v : Word) (s : State) : State :=
  { s with x := setReg s.cfg s.x r v, written := markWritten r s.written }

/-- REG_DATA for the index on REG_IDX; reserved indices read as 0 (rules R21, R35, R36). -/
def readPort (x : Regs) (idx : BitVec 5) : Word :=
  match regOfIndex idx with
  | some r => readReg x r
  | none => 0

/-! ### Error entry and the only way out of it -/

/-- The error entry of rule R246: STATUS takes the bit of the error, FAULT_INFO its detail, HALTED is set.
Nothing else is saved and control goes nowhere. -/
def raiseError (e : Cause) (info : Word) (s : State) : State :=
  { s with
    x := { s.x with status := e.statusBit, faultInfo := info }
    halted := true
    written := markWritten .faultInfo (markWritten .status s.written) }

/-- RESET, the only exit from the halted state (rules R37, R249, R270): every register takes its reset
value, no register counts as written, memory is left alone (rule R271). -/
def assertReset (s : State) : State :=
  { s with x := Regs.reset, halted := false, written := [], bus := [] }

/-! ### Commands that may end at an error -/

/-- How a part of a command ends: it goes on with a value, or an error entry has ended the command and the
state is the one that entry left (rules R245, R246). -/
inductive Flow (α : Type) where
  | go (v : α) (s : State)
  | stop (s : State)

def Flow.bind {α β : Type} (p : Flow α) (f : α → State → Flow β) : Flow β :=
  match p with
  | .go v s => f v s
  | .stop s => .stop s

/-- A command that ended at an error entry is a completed step too: the next state is halted. -/
def Flow.outcome (p : Flow Unit) : Host.Outcome State Fault Refusal :=
  match p with
  | .go _ s => .next s
  | .stop s => .next s

/-- `for i in 0 .. n - 1` (rule R17): ascending, not at all for `n = 0`, ended by an error. -/
def forUpTo : Nat → (Nat → State → Flow Unit) → State → Flow Unit
  | 0, _, s => .go () s
  | n + 1, body, s => (forUpTo n body s).bind fun _ s' => body n s'

/-- `MemRead(a, 1)` (rules R17, R79). -/
def memRead (a : Int) (s : State) : Flow Byte :=
  let p := truncA s.cfg a
  if memValid s.cfg p then
    .go (memByte s.mem p) { s with bus := s.bus ++ [.read p (memByte s.mem p)] }
  else .stop (raiseError .busError (BitVec.ofNat 32 p) s)

/-- `MemWrite(a, 1, v)` (rules R17, R79). -/
def memWrite (a : Int) (v : Byte) (s : State) : Flow Unit :=
  let p := truncA s.cfg a
  if memValid s.cfg p then
    .go () { s with mem := memSet s.mem p v, bus := s.bus ++ [.write p v] }
  else .stop (raiseError .busError (BitVec.ofNat 32 p) s)

/-- The next free byte. -/
def takeFreeByte (s : State) : Flow Byte :=
  .go (freeByte s.freeCount) { s with freeCount := s.freeCount + 1 }

/-- The colour byte `b` where the colours it comes from are in range, else any byte (U1). -/
def colourByte (inRange : Bool) (b : Byte) (s : State) : Flow Byte :=
  if inRange then .go b s else takeFreeByte s

/-! ### Surface commands -/

/-- Step 4 of rule R96 for a command with kind `k` and command word `c` (rules R243, R248): on the surface
in text mode NoSurface comes before anything else the command would do. -/
def onKind (k : Kind) (c : Word) (s : State) (run : Flow Unit) : Host.Outcome State Fault Refusal :=
  match k with
  | .buf => run.outcome
  | .surf =>
    if s.x.mode = 0 then .next (raiseError .noSurface c s)
    else if surfaceScaled s.x then run.outcome
    else .fault .surfaceScaleUndefined

/-- The effective mode of a MODE write (rule R201). -/
def effectiveMode (c : Config) (v : BitVec 16) : BitVec 2 :=
  if v.extractLsb' 0 2 ≠ 0 ∧ c.hercPresent = true then 3 else v.extractLsb' 0 2

/-- `(x[G_BASE], x[G_STRIDE], x[G_ILV], x[G_YMULT], x[G_YDIV]) <- g` (rule R201). -/
def loadGeometry (g : Geom) (s : State) : State :=
  { s with
    x := { s.x with
      gBase := truncWord s.cfg g.base, gStride := g.stride, gIlv := g.ilv, gYmult := g.ymult,
      gYdiv := g.ydiv }
    written := markWritten .gYdiv (markWritten .gYmult (markWritten .gIlv
      (markWritten .gStride (markWritten .gBase s.written)))) }

/-- The geometry cache becomes unspecified in text mode (rules R29, R201, U11): five free values. -/
def dropGeometry (s : State) : State :=
  { s with
    x := { s.x with
      gBase := truncWord s.cfg (freeWord s.freeCount)
      gStride := (freeWord (s.freeCount + 1)).setWidth 16
      gIlv := (freeWord (s.freeCount + 2)).setWidth 8
      gYmult := (freeWord (s.freeCount + 3)).setWidth 16
      gYdiv := (freeWord (s.freeCount + 4)).setWidth 16 }
    written := markUnwritten .gYdiv (markUnwritten .gYmult (markUnwritten .gIlv
      (markUnwritten .gStride (markUnwritten .gBase s.written))))
    freeCount := s.freeCount + 5 }

/-- `mode_write(v)` of rule R201. -/
def modeWrite (v : BitVec 16) (s : State) : State :=
  let eff := effectiveMode s.cfg v
  let s' := writeReg .mode (eff.setWidth 32) s
  match geomOf s.cfg eff with
  | some g => loadGeometry g s'
  | none => dropGeometry s'

end Sys2Proof.Machine
end

