-- ==== Sys2Proof/Machine/Compositor.lean ====
section
/-! DEFINITION. COMPOSE.* (spec/45_compositor.md rules R222 to R226): the compositor on two immediate bytes,
the byte left in RESULT; no memory access, no error of their own. -/

namespace Sys2Proof.Machine

/-- The common part of COMPOSE (spec/45_compositor.md section 2). -/
def composeResult (m : DrawMode) (d s : Byte) (st : State) : State :=
  writeReg .result ((compose m d s).setWidth 32) st

/-- Rule R222. -/
def execComposeCopy (d s : Byte) (st : State) : Host.Outcome State Fault Refusal :=
  .next (composeResult .copy d s st)

/-- Rule R223. -/
def execComposeCopyinv (d s : Byte) (st : State) : Host.Outcome State Fault Refusal :=
  .next (composeResult .copyInv d s st)

/-- Rule R224. -/
def execComposeAnd (d s : Byte) (st : State) : Host.Outcome State Fault Refusal :=
  .next (composeResult .and d s st)

/-- Rule R225. -/
def execComposeOr (d s : Byte) (st : State) : Host.Outcome State Fault Refusal :=
  .next (composeResult .or d s st)

/-- Rule R226. -/
def execComposeXor (d s : Byte) (st : State) : Host.Outcome State Fault Refusal :=
  .next (composeResult .xor d s st)

end Sys2Proof.Machine
end

