-- ==== Sys2Proof/Decode.lean ====
section
/-! DEFINITION. The command word (spec/30_encoding.md): the decoder of rules R90 to R99, total on all 2^32
words, the encoder, the opcode map of rule R98 as data, and command words in a byte stream (rule R67). -/

namespace Sys2Proof

/-- Why a word is no command (rule R97); each is the one error IllegalCommand to the machine. -/
inductive Reject where
  /-- The `op` value is not assigned. -/
  | unassignedOpcode
  /-- A must-be-zero bit of the row's format is 1. -/
  | mbzBitSet
  /-- The draw mode `m` is 5, 6 or 7. -/
  | reservedMode
  /-- A byte stream ends inside a command word (rule R67). -/
  | truncatedWord
deriving DecidableEq, Repr

/-! ### Fields (rules R91, R92) -/

def opField (c : Word) : BitVec 8 := c.extractLsb' 24 8
def aField (c : Word) : BitVec 8 := c.extractLsb' 16 8
def immField (c : Word) : BitVec 16 := c.extractLsb' 0 16

/-- `k` is `a[4]` in every format that has it. -/
def kindField (a : BitVec 8) : Kind := if a.getLsbD 4 then .surf else .buf

/-- `f` is `a[5]` (format B). -/
def fullField (a : BitVec 8) : Bool := a.getLsbD 5

/-- `m` is `a[2:0]`; 5, 6 and 7 are reserved (rule R95). -/
def modeField (a : BitVec 8) : Option DrawMode :=
  let m : BitVec 3 := a.extractLsb' 0 3
  if m = 0 then some .copy
  else if m = 1 then some .copyInv
  else if m = 2 then some .and
  else if m = 3 then some .or
  else if m = 4 then some .xor
  else none

/-- The must-be-zero bits of a format, as a mask of `a` and a mask of `imm` (rule R92). -/
def mbzClear (a aMask : BitVec 8) (imm immMask : BitVec 16) : Bool :=
  a &&& aMask == 0 && imm &&& immMask == 0

/-- A format without a draw mode: the must-be-zero bits, then the command. -/
def plainFormat (a aMask : BitVec 8) (imm immMask : BitVec 16) (i : Instr) : Except Reject Instr :=
  if mbzClear a aMask imm immMask then .ok i else .error .mbzBitSet

/-- A format with a draw mode in `a[2:0]`. -/
def modeFormat (a aMask : BitVec 8) (imm immMask : BitVec 16) (row : DrawMode → Instr) :
    Except Reject Instr :=
  if mbzClear a aMask imm immMask then
    match modeField a with
    | some m => .ok (row m)
    | none => .error .reservedMode
  else .error .mbzBitSet

/-- The PUTPIX row of a draw mode (rule R98). -/
def putpixRow (k : Kind) (v : Pixel) : DrawMode → Instr
  | .copy => .putpixCopy k v
  | .copyInv => .putpixCopyinv k v
  | .and => .putpixAnd k v
  | .or => .putpixOr k v
  | .xor => .putpixXor k v

/-- The COMPOSE row of a draw mode (rule R98). -/
def composeRow (d s : Byte) : DrawMode → Instr
  | .copy => .composeCopy d s
  | .copyInv => .composeCopyinv d s
  | .and => .composeAnd d s
  | .or => .composeOr d s
  | .xor => .composeXor d s

/-- The PUT row of a draw mode (rule R98). -/
def putRow (f : Bool) (k : Kind) : DrawMode → Instr
  | .copy => .putCopy f k
  | .copyInv => .putCopyinv f k
  | .and => .putAnd f k
  | .or => .putOr f k
  | .xor => .putXor f k

/-- The decoder (rules R92, R97, R98): one word is one command or is rejected by name.  It looks at the 32
bits alone (rule R96); a SETL or SETH with an index rule R123 forbids is still that row. -/
def decode (c : Word) : Except Reject Instr :=
  let op := opField c
  let a := aField c
  let imm := immField c
  if op = 0x00 then plainFormat a 0xFF imm 0xFFFF .nop
  else if op = 0x01 then plainFormat a 0xE0 imm 0x0000 (.setl (a.extractLsb' 0 5) imm)
  else if op = 0x02 then plainFormat a 0xE0 imm 0x0000 (.seth (a.extractLsb' 0 5) imm)
  else if op = 0x10 then plainFormat a 0xEF imm 0xFFFF (.getpix (kindField a))
  else if op = 0x11 then modeFormat a 0xE8 imm 0xFFFC (putpixRow (kindField a) (imm.extractLsb' 0 2))
  else if op = 0x20 then
    modeFormat a 0xF8 imm 0x0000 (composeRow (imm.extractLsb' 8 8) (imm.extractLsb' 0 8))
  else if op = 0x30 then plainFormat a 0xFF imm 0xFFFF .mapaddr
  else if op = 0x40 then modeFormat a 0xC8 imm 0xFFFF (putRow (fullField a) (kindField a))
  else if op = 0x41 then plainFormat a 0xEF imm 0xFFFF (.get (kindField a))
  else if op = 0x42 then plainFormat a 0xEF imm 0xFFFF (.fill (kindField a))
  else if op = 0x43 then plainFormat a 0xEF imm 0xFF00 (.print (kindField a) (imm.extractLsb' 0 8))
  else if op = 0x44 then
    plainFormat a 0xFF imm 0xFFCC (.recolor (imm.extractLsb' 4 2) (imm.extractLsb' 0 2))
  else if op = 0x45 then plainFormat a 0xFF imm 0xFF00 (.glyphget (imm.extractLsb' 0 8))
  else if op = 0x46 then plainFormat a 0xFF imm 0xFF00 (.glyphput (imm.extractLsb' 0 8))
  else .error .unassignedOpcode

/-! ### Encoding (rules R91, R92, R100) -/

/-- The three top-level fields, `op` uppermost (rule R91). -/
def packWord (op a : BitVec 8) (imm : BitVec 16) : Word := op ++ a ++ imm

def kindBits : Kind → BitVec 8
  | .buf => 0x00
  | .surf => 0x10

def fullBits (f : Bool) : BitVec 8 := if f then 0x20 else 0x00

def modeBits : DrawMode → BitVec 8
  | .copy => 0
  | .copyInv => 1
  | .and => 2
  | .or => 3
  | .xor => 4

def regBits (r : BitVec 5) : BitVec 8 := 0#3 ++ r

def encodePutpix (m : DrawMode) (k : Kind) (v : Pixel) : Word :=
  packWord 0x11 (kindBits k ||| modeBits m) (0#14 ++ v)

def encodeCompose (m : DrawMode) (d s : Byte) : Word := packWord 0x20 (modeBits m) (d ++ s)

def encodePut (m : DrawMode) (f : Bool) (k : Kind) : Word :=
  packWord 0x40 (fullBits f ||| kindBits k ||| modeBits m) 0

/-- The command word of a command: the one word of rule R98's row with the command's fields. -/
def encode : Instr → Word
  | .nop => packWord 0x00 0 0
  | .setl r imm => packWord 0x01 (regBits r) imm
  | .seth r imm => packWord 0x02 (regBits r) imm
  | .getpix k => packWord 0x10 (kindBits k) 0
  | .putpixCopy k v => encodePutpix .copy k v
  | .putpixCopyinv k v => encodePutpix .copyInv k v
  | .putpixAnd k v => encodePutpix .and k v
  | .putpixOr k v => encodePutpix .or k v
  | .putpixXor k v => encodePutpix .xor k v
  | .composeCopy d s => encodeCompose .copy d s
  | .composeCopyinv d s => encodeCompose .copyInv d s
  | .composeAnd d s => encodeCompose .and d s
  | .composeOr d s => encodeCompose .or d s
  | .composeXor d s => encodeCompose .xor d s
  | .mapaddr => packWord 0x30 0 0
  | .putCopy f k => encodePut .copy f k
  | .putCopyinv f k => encodePut .copyInv f k
  | .putAnd f k => encodePut .and f k
  | .putOr f k => encodePut .or f k
  | .putXor f k => encodePut .xor f k
  | .get k => packWord 0x41 (kindBits k) 0
  | .fill k => packWord 0x42 (kindBits k) 0
  | .print k ch => packWord 0x43 (kindBits k) (0#8 ++ ch)
  | .recolor ink paper => packWord 0x44 0 (0#10 ++ ink ++ 0#2 ++ paper)
  | .glyphget code => packWord 0x45 0 (0#8 ++ code)
  | .glyphput code => packWord 0x46 0 (0#8 ++ code)

/-! ### The opcode map of rule R98, as data -/

/-- One row of the opcode map: `c` is the row's command exactly when `c & mask = pattern`. -/
structure OpcodeRow where
  pattern : Word
  mask    : Word
deriving DecidableEq, Repr

def OpcodeRow.covers (row : OpcodeRow) (c : Word) : Bool := c &&& row.mask == row.pattern

/-- The row of the opcode map a command belongs to (rule R98, its `match` and `mask` columns). -/
def Instr.row : Instr → OpcodeRow
  | .nop => ⟨0x00000000, 0xFFFFFFFF⟩
  | .setl _ _ => ⟨0x01000000, 0xFFE00000⟩
  | .seth _ _ => ⟨0x02000000, 0xFFE00000⟩
  | .getpix _ => ⟨0x10000000, 0xFFEFFFFF⟩
  | .putpixCopy _ _ => ⟨0x11000000, 0xFFEFFFFC⟩
  | .putpixCopyinv _ _ => ⟨0x11010000, 0xFFEFFFFC⟩
  | .putpixAnd _ _ => ⟨0x11020000, 0xFFEFFFFC⟩
  | .putpixOr _ _ => ⟨0x11030000, 0xFFEFFFFC⟩
  | .putpixXor _ _ => ⟨0x11040000, 0xFFEFFFFC⟩
  | .composeCopy _ _ => ⟨0x20000000, 0xFFFF0000⟩
  | .composeCopyinv _ _ => ⟨0x20010000, 0xFFFF0000⟩
  | .composeAnd _ _ => ⟨0x20020000, 0xFFFF0000⟩
  | .composeOr _ _ => ⟨0x20030000, 0xFFFF0000⟩
  | .composeXor _ _ => ⟨0x20040000, 0xFFFF0000⟩
  | .mapaddr => ⟨0x30000000, 0xFFFFFFFF⟩
  | .putCopy _ _ => ⟨0x40000000, 0xFFCFFFFF⟩
  | .putCopyinv _ _ => ⟨0x40010000, 0xFFCFFFFF⟩
  | .putAnd _ _ => ⟨0x40020000, 0xFFCFFFFF⟩
  | .putOr _ _ => ⟨0x40030000, 0xFFCFFFFF⟩
  | .putXor _ _ => ⟨0x40040000, 0xFFCFFFFF⟩
  | .get _ => ⟨0x41000000, 0xFFEFFFFF⟩
  | .fill _ => ⟨0x42000000, 0xFFEFFFFF⟩
  | .print _ _ => ⟨0x43000000, 0xFFEFFF00⟩
  | .recolor _ _ => ⟨0x44000000, 0xFFFFFFCC⟩
  | .glyphget _ => ⟨0x45000000, 0xFFFFFF00⟩
  | .glyphput _ => ⟨0x46000000, 0xFFFFFF00⟩

/-- The 26 rows of rule R98, in its order. -/
def opcodeRows : List OpcodeRow :=
  [ Instr.row .nop, Instr.row (.setl 0 0), Instr.row (.seth 0 0), Instr.row (.getpix .buf) ]
  ++ [ Instr.row (.putpixCopy .buf 0), Instr.row (.putpixCopyinv .buf 0), Instr.row (.putpixAnd .buf 0),
       Instr.row (.putpixOr .buf 0), Instr.row (.putpixXor .buf 0) ]
  ++ [ Instr.row (.composeCopy 0 0), Instr.row (.composeCopyinv 0 0), Instr.row (.composeAnd 0 0),
       Instr.row (.composeOr 0 0), Instr.row (.composeXor 0 0) ]
  ++ [ Instr.row .mapaddr ]
  ++ [ Instr.row (.putCopy false .buf), Instr.row (.putCopyinv false .buf), Instr.row (.putAnd false .buf),
       Instr.row (.putOr false .buf), Instr.row (.putXor false .buf) ]
  ++ [ Instr.row (.get .buf), Instr.row (.fill .buf), Instr.row (.print .buf 0), Instr.row (.recolor 0 0),
       Instr.row (.glyphget 0), Instr.row (.glyphput 0) ]

/-! ### Command words in a byte stream (rule R67) -/

/-- The four bytes of a command word in a byte stream, least significant first (rule R67). -/
def wordBytes (c : Word) : List Byte :=
  [c.extractLsb' 0 8, c.extractLsb' 8 8, c.extractLsb' 16 8, c.extractLsb' 24 8]

/-- The first command of a byte stream and the bytes after it, for any bytes. -/
def decodeBytes : List Byte → Except Reject (Instr × List Byte)
  | b0 :: b1 :: b2 :: b3 :: rest =>
    match decode (b3 ++ b2 ++ b1 ++ b0) with
    | .ok i => .ok (i, rest)
    | .error e => .error e
  | _ => .error .truncatedWord

/-- The instruction whose bits, numbered as spec/opcode_table.json numbers them, are `w`. -/
def decodeTableWord (nbits w : Nat) : Option Instr :=
  match decodeBytes (wordBytes (BitVec.ofNat 32 (w % 2 ^ nbits))) with
  | .ok (i, _) => some i
  | .error _ => none

end Sys2Proof
end

