-- ==== Sys2Proof/Machine/Control.lean ====
section
/-! DEFINITION. NOP, SETL, SETH (spec/40_control.md rules R120 to R123). -/

namespace Sys2Proof.Machine

/-- Rule R120. -/
def execNop (s : State) : Host.Outcome State Fault Refusal := .next s

/-- Rules R121, R123: the whole register is written; MODE through `mode_write`. -/
def execSetl (r : BitVec 5) (imm : BitVec 16) (s : State) : Host.Outcome State Fault Refusal :=
  match regOfIndex r with
  | some reg =>
    if reg.unitOnly then .next (raiseError .illegalCommand (encode (.setl r imm)) s)
    else if reg = .mode then .next (modeWrite imm s)
    else .next (writeReg reg (imm.setWidth 32) s)
  | none => .next (raiseError .illegalCommand (encode (.setl r imm)) s)

/-- Rules R122, R123: bits 31:16 of an address register; the register does not count as written by this
alone (rule R38). -/
def execSeth (r : BitVec 5) (imm : BitVec 16) (s : State) : Host.Outcome State Fault Refusal :=
  match regOfIndex r with
  | some reg =>
    if reg.isAddress then
      .next { s with x := setReg s.cfg s.x reg (imm ++ (readReg s.x reg).extractLsb' 0 16) }
    else .next (raiseError .illegalCommand (encode (.seth r imm)) s)
  | none => .next (raiseError .illegalCommand (encode (.seth r imm)) s)

end Sys2Proof.Machine
end

