-- ==== Sys2Proof/Machine/Region.lean ====
section
/-! DEFINITION. PUT.*, GET, FILL (spec/42_region.md rules R151 to R162).  Rows run top to bottom, bytes left
to right; the order of the accesses is the pseudocode's. -/

namespace Sys2Proof.Machine

/-- The inner body of rule R152: the source byte, the destination byte in every mode but COPY, the write. -/
def putByte (m : DrawMode) (sa da : Int) (s : State) : Flow Unit :=
  (memRead sa s).bind fun b s1 =>
    if readsDestination m then
      (memRead da s1).bind fun d s2 => memWrite da (compose m d b) s2
    else memWrite da (compose m 0 b) s1

/-- The common part of PUT (rules R152, R153).  No register changes while it runs, so the addresses come
from the registers `s.x` it started with. -/
def putRegion (m : DrawMode) (full : Bool) (k : Kind) (s : State) : Flow Unit :=
  let o := regionOperands s.x full
  forUpTo o.rows
    (fun r => forUpTo (o.cols / 4) fun i =>
      putByte m (srcRow s.x .buf o.px (o.py + r) + i : Nat)
        (dstRow s.x k s.x.xd.toNat (s.x.yd.toNat + r) + i : Nat)) s

/-- Rule R154. -/
def execPutCopy (full : Bool) (k : Kind) (s : State) : Host.Outcome State Fault Refusal :=
  onKind k (encode (.putCopy full k)) s (putRegion .copy full k s)

/-- Rule R155. -/
def execPutCopyinv (full : Bool) (k : Kind) (s : State) : Host.Outcome State Fault Refusal :=
  onKind k (encode (.putCopyinv full k)) s (putRegion .copyInv full k s)

/-- Rule R156. -/
def execPutAnd (full : Bool) (k : Kind) (s : State) : Host.Outcome State Fault Refusal :=
  onKind k (encode (.putAnd full k)) s (putRegion .and full k s)

/-- Rule R157. -/
def execPutOr (full : Bool) (k : Kind) (s : State) : Host.Outcome State Fault Refusal :=
  onKind k (encode (.putOr full k)) s (putRegion .or full k s)

/-- Rule R158. -/
def execPutXor (full : Bool) (k : Kind) (s : State) : Host.Outcome State Fault Refusal :=
  onKind k (encode (.putXor full k)) s (putRegion .xor full k s)

/-- One byte moved: the body of GET, GLYPHGET and GLYPHPUT (rules R160, R187, R188). -/
def copyByte (sa da : Int) (s : State) : Flow Unit :=
  (memRead sa s).bind fun b s' => memWrite da b s'

/-- The loops of rule R160. -/
def getRegion (k : Kind) (s : State) : Flow Unit :=
  forUpTo s.x.dstH.toNat
    (fun r => forUpTo (s.x.dstW.toNat / 4) fun i =>
      copyByte (srcRow s.x k s.x.xs.toNat (s.x.ys.toNat + r) + i : Nat)
        (bufAddr s.x.dstAddr s.x.dstW 0 r + i : Nat)) s

/-- Rule R160. -/
def execGet (k : Kind) (s : State) : Host.Outcome State Fault Refusal :=
  onKind k (encode (.get k)) s (getRegion k s)

/-- The loops of rule R162.  With INK above 3 every byte written is a free byte of its own (U1). -/
def fillRegion (k : Kind) (s : State) : Flow Unit :=
  forUpTo s.x.h.toNat
    (fun r => forUpTo (s.x.w.toNat / 4) fun i s1 =>
      (colourByte (colourLegal s.x.ink) (rep4 s.x.ink) s1).bind fun p s2 =>
        memWrite (dstRow s.x k s.x.xd.toNat (s.x.yd.toNat + r) + i : Nat) p s2) s

/-- Rule R162. -/
def execFill (k : Kind) (s : State) : Host.Outcome State Fault Refusal :=
  onKind k (encode (.fill k)) s (fillRegion k s)

end Sys2Proof.Machine
end

