-- ==== Sys2Proof/Machine/Glyph.lean ====
section
/-! DEFINITION. PRINT, RECOLOR, GLYPHGET, GLYPHPUT (spec/43_glyph.md rules R180 to R188). -/

namespace Sys2Proof.Machine

/-- The byte PRINT draws for a glyph byte whose colours are in range (rule R182): the test changes no
result, and is kept as the rule has it. -/
def printedByte (x : Regs) (g : Byte) : Byte :=
  if x.ink ≠ 3 ∨ x.paper ≠ 0 then recolour g x.ink x.paper else g

/-- The eight rows of rule R182.  With INK or PAPER above 3 every byte written is a free byte (U1). -/
def printGlyph (k : Kind) (ch : Byte) (s : State) : Flow Unit :=
  forUpTo 8 (fun r s1 =>
    (memRead (glyphAddr s.x ch r) s1).bind fun g s2 =>
      (colourByte (colourLegal s.x.ink && colourLegal s.x.paper) (printedByte s.x g) s2).bind
        fun p s3 => memWrite (dstRow s.x k s.x.xd.toNat (s.x.yd.toNat + r)) p s3) s

/-- Rules R181 to R183: nothing when no glyph set is attached, else the glyph, then XD advances by 4. -/
def execPrint (k : Kind) (ch : Byte) (s : State) : Host.Outcome State Fault Refusal :=
  onKind k (encode (.print k ch)) s <|
    if s.x.ctrl = 0 then .go () s
    else (printGlyph k ch s).bind fun _ s' =>
      .go () (writeReg .xd ((s.x.xd + 4).setWidth 32) s')

/-- One byte of RECOLOR (rule R185): the masking rule on a canonical byte, any byte on another (U2). -/
def recolorByte (ink paper : Pixel) (a : Int) (s : State) : Flow Unit :=
  (memRead a s).bind fun b s1 =>
    (colourByte (canonical b) (recolour b (ink.setWidth 8) (paper.setWidth 8)) s1).bind
      fun p s2 => memWrite a p s2

/-- Rule R185. -/
def execRecolor (ink paper : Pixel) (s : State) : Host.Outcome State Fault Refusal :=
  (forUpTo (recolorCount s.x)
    (fun j => recolorByte ink paper (s.x.glyphAddr.toNat + j : Nat)) s).outcome

/-- Rule R187: the eight bytes of a glyph to DST_ADDR. -/
def execGlyphget (code : Byte) (s : State) : Host.Outcome State Fault Refusal :=
  (forUpTo 8 (fun r => copyByte (glyphAddr s.x code r) (s.x.dstAddr.toNat + r : Nat)) s).outcome

/-- Rule R188: eight bytes from SRC_ADDR to the glyph. -/
def execGlyphput (code : Byte) (s : State) : Host.Outcome State Fault Refusal :=
  (forUpTo 8 (fun r => copyByte (s.x.srcAddr.toNat + r : Nat) (glyphAddr s.x code r)) s).outcome

end Sys2Proof.Machine
end

