-- ==== Sys2Proof/Machine/Mapper.lean ====
section
/-! DEFINITION. MAPADDR (spec/44_mapper.md rule R207). -/

namespace Sys2Proof.Machine

/-- Rule R207: the address of the byte that holds pixel (XD, YD) of the surface, in RESULT. -/
def execMapaddr (s : State) : Host.Outcome State Fault Refusal :=
  onKind .surf (encode .mapaddr) s <|
    .go () (writeReg .result
      (BitVec.ofNat 32 (truncA s.cfg (surfAddr s.x s.x.xd.toNat s.x.yd.toNat))) s)

end Sys2Proof.Machine
end

