-- ==== Sys2Proof/Machine/Pixel.lean ====
section
/-! DEFINITION. GETPIX and PUTPIX.* (spec/41_bitslice.md rules R138 to R145). -/

namespace Sys2Proof.Machine

/-- Rule R138. -/
def execGetpix (k : Kind) (s : State) : Host.Outcome State Fault Refusal :=
  onKind k (encode (.getpix k)) s <|
    (memRead (srcRow s.x k s.x.xs.toNat s.x.ys.toNat) s).bind fun b s' =>
      .go () (writeReg .result ((pixGet b (lane s.x.xs.toNat)).setWidth 32) s')

/-- The common part of PUTPIX (rule R140): one read, then one write of the same address, in every mode. -/
def putpix (m : DrawMode) (k : Kind) (v : Pixel) (s : State) : Flow Unit :=
  let a : Int := dstRow s.x k s.x.xd.toNat s.x.yd.toNat
  let l := lane s.x.xd.toNat
  (memRead a s).bind fun b s' => memWrite a (pixSet b l (compose2 m (pixGet b l) v)) s'

/-- Rule R141. -/
def execPutpixCopy (k : Kind) (v : Pixel) (s : State) : Host.Outcome State Fault Refusal :=
  onKind k (encode (.putpixCopy k v)) s (putpix .copy k v s)

/-- Rule R142. -/
def execPutpixCopyinv (k : Kind) (v : Pixel) (s : State) : Host.Outcome State Fault Refusal :=
  onKind k (encode (.putpixCopyinv k v)) s (putpix .copyInv k v s)

/-- Rule R143. -/
def execPutpixAnd (k : Kind) (v : Pixel) (s : State) : Host.Outcome State Fault Refusal :=
  onKind k (encode (.putpixAnd k v)) s (putpix .and k v s)

/-- Rule R144. -/
def execPutpixOr (k : Kind) (v : Pixel) (s : State) : Host.Outcome State Fault Refusal :=
  onKind k (encode (.putpixOr k v)) s (putpix .or k v s)

/-- Rule R145. -/
def execPutpixXor (k : Kind) (v : Pixel) (s : State) : Host.Outcome State Fault Refusal :=
  onKind k (encode (.putpixXor k v)) s (putpix .xor k v s)

end Sys2Proof.Machine
end

