-- ==== Sys2Proof/Machine/Dispatch.lean ====
section
/-! DEFINITION. One arm per command (spec/30_encoding.md rule R98). -/

namespace Sys2Proof.Machine

def exec (i : Instr) (s : State) : Host.Outcome State Fault Refusal :=
  match i with
  | .nop => Sys2Proof.Machine.execNop s
  | .setl r imm => Sys2Proof.Machine.execSetl r imm s
  | .seth r imm => Sys2Proof.Machine.execSeth r imm s
  | .getpix k => Sys2Proof.Machine.execGetpix k s
  | .putpixCopy k v => Sys2Proof.Machine.execPutpixCopy k v s
  | .putpixCopyinv k v => Sys2Proof.Machine.execPutpixCopyinv k v s
  | .putpixAnd k v => Sys2Proof.Machine.execPutpixAnd k v s
  | .putpixOr k v => Sys2Proof.Machine.execPutpixOr k v s
  | .putpixXor k v => Sys2Proof.Machine.execPutpixXor k v s
  | .composeCopy d b => Sys2Proof.Machine.execComposeCopy d b s
  | .composeCopyinv d b => Sys2Proof.Machine.execComposeCopyinv d b s
  | .composeAnd d b => Sys2Proof.Machine.execComposeAnd d b s
  | .composeOr d b => Sys2Proof.Machine.execComposeOr d b s
  | .composeXor d b => Sys2Proof.Machine.execComposeXor d b s
  | .mapaddr => Sys2Proof.Machine.execMapaddr s
  | .putCopy full k => Sys2Proof.Machine.execPutCopy full k s
  | .putCopyinv full k => Sys2Proof.Machine.execPutCopyinv full k s
  | .putAnd full k => Sys2Proof.Machine.execPutAnd full k s
  | .putOr full k => Sys2Proof.Machine.execPutOr full k s
  | .putXor full k => Sys2Proof.Machine.execPutXor full k s
  | .get k => Sys2Proof.Machine.execGet k s
  | .fill k => Sys2Proof.Machine.execFill k s
  | .print k ch => Sys2Proof.Machine.execPrint k ch s
  | .recolor ink paper => Sys2Proof.Machine.execRecolor ink paper s
  | .glyphget code => Sys2Proof.Machine.execGlyphget code s
  | .glyphput code => Sys2Proof.Machine.execGlyphput code s

end Sys2Proof.Machine
end

