-- ==== Sys2Proof/Machine/Issue.lean ====
section
/-! DEFINITION. How a move of the host is taken (spec/10_state.md rules R28, R36; spec/30_encoding.md rule
R96): a command word is one step of the PPRB, the other moves are the host's own. -/

namespace Sys2Proof.Machine

/-- Rule R28 numbers the words accepted or discarded; the memory port starts a command with no access made. -/
def accept (s : State) : State := { s with position := s.position + 1, bus := [] }

/-- One step of the PPRB on a command word (rule R96): discarded while halted (rule R247), IllegalCommand
for a word that is no command (rule R97), else the command.  Steps 3 and 4 are the meanings' own. -/
def issue (c : Word) (s : State) : Host.Outcome State Fault Refusal :=
  if s.halted then .next (accept s)
  else
    match decode c with
    | .ok i => exec i (accept s)
    | .error _ => .next (raiseError .illegalCommand c (accept s))

/-- A byte the host can reach: an address of the space (rule R60) that the platform populates. -/
def hostReaches (c : Config) (a : Nat) : Bool := decide (a < 2 ^ c.addrBits) && memValid c a

/-- The move table of rule R36. -/
def makeMove (m : HostMove) (s : State) : Host.Outcome State Fault Refusal :=
  match m with
  | .reset => .next (assertReset s)
  | .command c => issue c s
  | .readRegister idx => .next { s with reply := readPort s.x idx }
  | .readMemory a =>
    if hostReaches s.cfg a then .next { s with reply := (memByte s.mem a).setWidth 32 }
    else .fault .hostAccessNoByte
  | .writeMemory a v =>
    if hostReaches s.cfg a then .next { s with mem := memSet s.mem a v }
    else .fault .hostAccessNoByte

end Sys2Proof.Machine
end

