-- ==== Sys2Proof/Machine/Step.lean ====
section
/-! DEFINITION. One step: the next move of the host (spec/10_state.md rules R28, R36; spec/70_reset_and_hazards.md
rule R296). -/

namespace Sys2Proof.Machine

/-- The host's next move; with none pending the PPRB is idle, and nothing changes (rule R265). -/
def step (s : State) : Host.Outcome State Fault Refusal :=
  match s.moves with
  | [] => .next s
  | m :: rest => makeMove m { s with moves := rest }

/-- The state with the host about to present the word `w`: the PPRB fetches nothing from memory (rule R28),
so a program comes to it as the host's moves.  notes/assumptions/4.md. -/
def State.withFetchWord (s : State) (nbits w : Nat) : State :=
  { s with moves := .command (BitVec.ofNat 32 (w % 2 ^ nbits)) :: s.moves }

end Sys2Proof.Machine
end

