-- ==== Sys2Proof/WellFormed.lean ====
section
/-! DEFINITION. Which commands are legal commands: every field has the width of its encoding by its type,
so the one check left is the register index of SETL and SETH (spec/40_control.md rule R123). -/

namespace Sys2Proof

/-- `legal_set(r, low)` of rule R123. -/
def setlIndexLegal (r : BitVec 5) : Bool := decide (r.toNat ≤ 18)

/-- `legal_set(r, high)` of rule R123: SRC_ADDR, DST_ADDR, GLYPH_ADDR. -/
def sethIndexLegal (r : BitVec 5) : Bool := r == 0 || r == 3 || r == 14

/-- Rule R242: an ill-formed command still matches its row of the opcode table, and running it raises
IllegalCommand. -/
def Instr.wellFormed : Instr → Bool
  | .setl r _ => setlIndexLegal r
  | .seth r _ => sethIndexLegal r
  | .nop => true
  | .getpix _ => true
  | .putpixCopy _ _ => true
  | .putpixCopyinv _ _ => true
  | .putpixAnd _ _ => true
  | .putpixOr _ _ => true
  | .putpixXor _ _ => true
  | .composeCopy _ _ => true
  | .composeCopyinv _ _ => true
  | .composeAnd _ _ => true
  | .composeOr _ _ => true
  | .composeXor _ _ => true
  | .mapaddr => true
  | .putCopy _ _ => true
  | .putCopyinv _ _ => true
  | .putAnd _ _ => true
  | .putOr _ _ => true
  | .putXor _ _ => true
  | .get _ => true
  | .fill _ => true
  | .print _ _ => true
  | .recolor _ _ => true
  | .glyphget _ => true
  | .glyphput _ => true

end Sys2Proof
end

