-- ==== Sys2Proof/Safety.lean ====
section
/-! DEFINITION. What claims are stated in: the invariant of the reachable states, a good end of a run (rule
R296), and when a command rests on no register the spec leaves unspecified (rules R38, R280). -/

namespace Sys2Proof.Machine

/-! ### The invariant -/

/-- STATUS has at most one bit set (rule R31). -/
def statusOneHot (b : BitVec 3) : Bool := b == 0b000 || b == 0b001 || b == 0b010 || b == 0b100

/-- In a graphics mode the cache holds `Geom(MODE)` (rules R29, R201). -/
def geometryCached (c : Config) (x : Regs) : Bool :=
  match geomOf c x.mode with
  | none => true
  | some g =>
    x.gBase == g.base && x.gStride == g.stride && x.gIlv == g.ilv && x.gYmult == g.ymult
      && x.gYdiv == g.ydiv

/-- The four registers of width `A` hold addresses (rules R21, R22). -/
def addressesFit (c : Config) (x : Regs) : Bool :=
  decide (x.srcAddr.toNat < 2 ^ c.addrBits) && decide (x.dstAddr.toNat < 2 ^ c.addrBits)
    && decide (x.glyphAddr.toNat < 2 ^ c.addrBits) && decide (x.gBase.toNat < 2 ^ c.addrBits)

/-- With Hercules hardware a graphics mode is mode 3 (rule R201). -/
def hercUpgraded (c : Config) (x : Regs) : Bool := !c.hercPresent || x.mode == 0 || x.mode == 3

/-- What holds after reset and after every step. -/
structure Inv (s : State) : Prop where
  cfgWf        : s.cfg.wf = true
  memCanonical : memWf s.mem = true
  memInRange   : memInSpace s.cfg s.mem = true
  /-- HALTED equals `STATUS != 0` (rule R33). -/
  haltedStatus : s.halted = (s.x.status != 0)
  oneHot       : statusOneHot s.x.status = true
  addresses    : addressesFit s.cfg s.x = true
  geometry     : geometryCached s.cfg s.x = true
  upgraded     : hercUpgraded s.cfg s.x = true
  marksNodup   : s.written.Nodup

/-! ### Commands and the surface -/

/-- A command on kind `k` can run (rules R202, R243): its surface exists. -/
def kindReady (k : Kind) (x : Regs) : Bool :=
  match k with
  | .buf => true
  | .surf => x.mode != 0 && surfaceScaled x

/-- The commands NoSurface can stop (rules R96, R243): MAPADDR and every command with `k = 1`. -/
def usesSurface : Instr → Bool
  | .mapaddr => true
  | .getpix k => k == .surf
  | .putpixCopy k _ => k == .surf
  | .putpixCopyinv k _ => k == .surf
  | .putpixAnd k _ => k == .surf
  | .putpixOr k _ => k == .surf
  | .putpixXor k _ => k == .surf
  | .putCopy _ k => k == .surf
  | .putCopyinv _ k => k == .surf
  | .putAnd _ k => k == .surf
  | .putOr _ k => k == .surf
  | .putXor _ k => k == .surf
  | .get k => k == .surf
  | .fill k => k == .surf
  | .print k _ => k == .surf
  | .nop => false
  | .setl _ _ => false
  | .seth _ _ => false
  | .composeCopy _ _ => false
  | .composeCopyinv _ _ => false
  | .composeAnd _ _ => false
  | .composeOr _ _ => false
  | .composeXor _ _ => false
  | .recolor _ _ => false
  | .glyphget _ => false
  | .glyphput _ => false

/-! ### The bytes a command touches: the address expressions of the meanings, reduced by `trunc_A` -/

def populated (s : State) (a : Nat) : Prop := memValid s.cfg a = true

/-- The byte GETPIX reads (rule R138). -/
def getpixAddr (s : State) (k : Kind) : Nat :=
  truncA s.cfg (srcRow s.x k s.x.xs.toNat s.x.ys.toNat : Nat)

/-- The byte PUTPIX rewrites (rule R140). -/
def putpixAddr (s : State) (k : Kind) : Nat :=
  truncA s.cfg (dstRow s.x k s.x.xd.toNat s.x.yd.toNat : Nat)

/-- Byte `i` of row `r` of the source of PUT (rules R151 to R153). -/
def putSource (s : State) (full : Bool) (r i : Nat) : Nat :=
  truncA s.cfg
    (srcRow s.x .buf (regionOperands s.x full).px ((regionOperands s.x full).py + r) + i : Nat)

/-- Byte `i` of row `r` of the destination of PUT and FILL (rules R152, R162). -/
def rectTarget (s : State) (k : Kind) (r i : Nat) : Nat :=
  truncA s.cfg (dstRow s.x k s.x.xd.toNat (s.x.yd.toNat + r) + i : Nat)

/-- Byte `i` of row `r` of the source of GET (rule R160). -/
def getSource (s : State) (k : Kind) (r i : Nat) : Nat :=
  truncA s.cfg (srcRow s.x k s.x.xs.toNat (s.x.ys.toNat + r) + i : Nat)

/-- Byte `i` of row `r` of the destination of GET (rule R160). -/
def getTarget (s : State) (r i : Nat) : Nat :=
  truncA s.cfg (bufAddr s.x.dstAddr s.x.dstW 0 r + i : Nat)

/-- Row `r` of the glyph of a character code (rule R180). -/
def glyphSlot (s : State) (code : Byte) (r : Nat) : Nat := truncA s.cfg (glyphAddr s.x code r)

/-- The byte PRINT writes for row `r` (rule R182). -/
def printTarget (s : State) (k : Kind) (r : Nat) : Nat :=
  truncA s.cfg (dstRow s.x k s.x.xd.toNat (s.x.yd.toNat + r) : Nat)

/-- Byte `j` of the glyph set (rule R185). -/
def recolorTarget (s : State) (j : Nat) : Nat := truncA s.cfg (s.x.glyphAddr.toNat + j : Nat)

/-- Byte `r` at DST_ADDR (rule R187). -/
def dstByteAddr (s : State) (r : Nat) : Nat := truncA s.cfg (s.x.dstAddr.toNat + r : Nat)

/-- Byte `r` at SRC_ADDR (rule R188). -/
def srcByteAddr (s : State) (r : Nat) : Nat := truncA s.cfg (s.x.srcAddr.toNat + r : Nat)

/-- How many rows PUT walks (rule R153). -/
def putRows (s : State) (full : Bool) : Nat := (regionOperands s.x full).rows

/-- How many bytes PUT moves in a row (rule R152). -/
def putCols (s : State) (full : Bool) : Nat := (regionOperands s.x full).cols / 4

/-! ### The accesses of a command, in their order (rules R62, R71) -/

/-- An access without the byte that went over the port. -/
inductive BusOp where
  | r (addr : Nat)
  | w (addr : Nat)
deriving DecidableEq, Repr

def busOp : Access → BusOp
  | .read a _ => .r a
  | .write a _ => .w a

/-- The accesses made so far, in order. -/
def busOps (s : State) : List BusOp := s.bus.map busOp

/-- Rows top to bottom, bytes left to right. -/
def gridOps (rows cols : Nat) (op : Nat → Nat → List BusOp) : List BusOp :=
  (List.range rows).flatMap fun r => (List.range cols).flatMap fun i => op r i

/-- Rule R152: the source read, in every mode but COPY the destination read, the write. -/
def putOps (s : State) (m : DrawMode) (full : Bool) (k : Kind) : List BusOp :=
  gridOps (putRows s full) (putCols s full) fun r i =>
    if readsDestination m then
      [.r (putSource s full r i), .r (rectTarget s k r i), .w (rectTarget s k r i)]
    else [.r (putSource s full r i), .w (rectTarget s k r i)]

/-- Rule R160. -/
def getOps (s : State) (k : Kind) : List BusOp :=
  gridOps s.x.dstH.toNat (s.x.dstW.toNat / 4) fun r i => [.r (getSource s k r i), .w (getTarget s r i)]

/-- Rule R162: no read at all. -/
def fillOps (s : State) (k : Kind) : List BusOp :=
  gridOps s.x.h.toNat (s.x.w.toNat / 4) fun r i => [.w (rectTarget s k r i)]

/-- `n` turns of a read and a write (rules R182, R185, R187, R188). -/
def moveOps (n : Nat) (src dst : Nat → Nat) : List BusOp :=
  (List.range n).flatMap fun j => [.r (src j), .w (dst j)]

/-! ### Runs (rule R296) -/

/-- The end of a run is good when STATUS = 0 (rules R247, R296). -/
def goodEnd (s : State) : Bool := s.x.status == 0

/-! ### Registers the spec leaves unspecified (rules R37, R38, R280) -/

/-- The registers whose reset value rule R37 gives. -/
def Reg.hasResetValue : Reg → Bool
  | .ink | .paper | .ctrl | .mode | .status => true
  | .srcAddr | .srcW | .srcH | .dstAddr | .dstW | .dstH | .xd | .yd | .xs | .ys | .w | .h
  | .glyphAddr | .glyphFirst | .glyphLast | .gBase | .gStride | .gIlv | .gYmult | .gYdiv | .result
  | .faultInfo => false

/-- A register holds a value a claim may rely on (rule R38). -/
def defined (s : State) (r : Reg) : Bool := r.hasResetValue || decide (r ∈ s.written)

/-- What addressing the surface reads (rule R202); in text mode NoSurface reads MODE only. -/
def surfaceReads (x : Regs) : List Reg :=
  if x.mode = 0 then [.mode] else [.mode, .gBase, .gStride, .gIlv, .gYmult, .gYdiv]

def sourceReads (x : Regs) : Kind → List Reg
  | .buf => [.srcAddr, .srcW]
  | .surf => surfaceReads x

def destinationReads (x : Regs) : Kind → List Reg
  | .buf => [.dstAddr, .dstW]
  | .surf => surfaceReads x

def putpixReads (x : Regs) (k : Kind) : List Reg := [.xd, .yd] ++ destinationReads x k

def putReads (x : Regs) (full : Bool) (k : Kind) : List Reg :=
  [.xd, .yd, .srcAddr, .srcW] ++ (if full then [.srcH] else [.xs, .ys, .w, .h]) ++ destinationReads x k

/-- The registers a command reads, as its rule names them (rule R22).  SETH keeps the low half of its own
register without relying on it (rule R38). -/
def regsRead (x : Regs) : Instr → List Reg
  | .nop => []
  | .setl _ _ => []
  | .seth _ _ => []
  | .getpix k => [.xs, .ys] ++ sourceReads x k
  | .putpixCopy k _ => putpixReads x k
  | .putpixCopyinv k _ => putpixReads x k
  | .putpixAnd k _ => putpixReads x k
  | .putpixOr k _ => putpixReads x k
  | .putpixXor k _ => putpixReads x k
  | .composeCopy _ _ => []
  | .composeCopyinv _ _ => []
  | .composeAnd _ _ => []
  | .composeOr _ _ => []
  | .composeXor _ _ => []
  | .mapaddr => [.xd, .yd] ++ surfaceReads x
  | .putCopy f k => putReads x f k
  | .putCopyinv f k => putReads x f k
  | .putAnd f k => putReads x f k
  | .putOr f k => putReads x f k
  | .putXor f k => putReads x f k
  | .get k => [.xs, .ys, .dstAddr, .dstW, .dstH] ++ sourceReads x k
  | .fill k => [.xd, .yd, .w, .h, .ink] ++ destinationReads x k
  | .print k _ =>
    [.ctrl, .xd, .yd, .ink, .paper, .glyphAddr, .glyphFirst] ++ destinationReads x k
  | .recolor _ _ => [.glyphAddr, .glyphFirst, .glyphLast]
  | .glyphget _ => [.glyphAddr, .glyphFirst, .dstAddr]
  | .glyphput _ => [.glyphAddr, .glyphFirst, .srcAddr]

/-- Every register the command reads holds a value the spec gives or the program wrote (rule R280); on a
command that is not grounded rule R38 would have a model refuse.  notes/assumptions/1.md. -/
def grounded (i : Instr) (s : State) : Bool := (regsRead s.x i).all (defined s)

end Sys2Proof.Machine
end

