-- ==== Sys2Proof/Certificates/Slice0/Obligations.lean ====
section
/-! DEFINITION. The statements for the provers, family by family in the spec's order. -/

open Sys2Proof
open Sys2Proof.Machine

/-! ### The command word (spec/30_encoding.md) -/

/-- No bit of an encoding is dropped: every command is what its word decodes to. -/
def Obligations.DecodeOfEncodeIsTheCommand : Prop :=
  ∀ i : Instr, decode (encode i) = .ok i

/-- Rule R99: no ignored bits, so a command has one word. -/
def Obligations.EncodeOfDecodeIsTheWord : Prop :=
  ∀ (c : Word) (i : Instr), decode c = .ok i → encode i = c

/-- Rule R98: a word is a command exactly when a row of the opcode map covers it, it is then that row's
command, and the rows are disjoint. -/
def Obligations.WordIsCommandOfItsRow : Prop :=
  (∀ (c : Word) (i : Instr), decode c = .ok i → i.row ∈ opcodeRows ∧ i.row.covers c = true) ∧
  (∀ (c : Word) (row : OpcodeRow), row ∈ opcodeRows → row.covers c = true →
    ∃ i, decode c = .ok i ∧ i.row = row) ∧
  (∀ (c : Word) (row row' : OpcodeRow), row ∈ opcodeRows → row' ∈ opcodeRows →
    row.covers c = true → row'.covers c = true → row = row')

/-- Words of spec/95_test_vectors.md V-E1 (sanity). -/
def Obligations.SpecWordsDecode : Prop :=
  decode 0x00000000 = .ok .nop ∧ decode 0x010C0002 = .ok (.setl 12 2) ∧
  decode 0x0203000B = .ok (.seth 3 0x000B) ∧ decode 0x10100000 = .ok (.getpix .surf) ∧
  decode 0x11130002 = .ok (.putpixOr .surf 2) ∧ decode 0x2002F03C = .ok (.composeAnd 0xF0 0x3C) ∧
  decode 0x30000000 = .ok .mapaddr ∧ decode 0x40340000 = .ok (.putXor true .surf) ∧
  decode 0x41100000 = .ok (.get .surf) ∧ decode 0x42000000 = .ok (.fill .buf) ∧
  decode 0x43000041 = .ok (.print .buf 0x41) ∧ decode 0x44000021 = .ok (.recolor 2 1) ∧
  decode 0x45000042 = .ok (.glyphget 0x42) ∧ decode 0x46000020 = .ok (.glyphput 0x20)

/-- Rule R67: in a byte stream a command word stands least significant byte first. -/
def Obligations.ByteStreamHoldsWordsLowByteFirst : Prop :=
  ∀ (i : Instr) (rest : List Byte), decodeBytes (wordBytes (encode i) ++ rest) = .ok (i, rest)

/-! ### The step (spec/30_encoding.md rule R96, spec/60_exceptions.md) -/

/-- A step runs the decoded command: on a block that is not halted, the host's next word is taken off the
moves, counted, and run with no access made yet (the fields moves, position, bus: notes/assumptions/12.md). -/
def Obligations.StepRunsTheDecodedCommand : Prop :=
  ∀ (s : State) (c : Word) (rest : List HostMove) (i : Instr),
    s.moves = .command c :: rest → s.halted = false → decode c = .ok i →
    step s = exec i { s with moves := rest, position := s.position + 1, bus := [] }

/-- Rule R247: while halted every command word, legal or not, is accepted and discarded. -/
def Obligations.HaltedDiscardsEveryWord : Prop :=
  ∀ (s : State) (c : Word) (rest : List HostMove),
    s.moves = .command c :: rest → s.halted = true →
    step s = .next { s with moves := rest, position := s.position + 1, bus := [] }

/-- Rules R242, R246, R97: a word no row covers raises IllegalCommand, before anything is read or written. -/
def Obligations.UnmatchedWordRaisesIllegalCommand : Prop :=
  ∀ (s : State) (c : Word) (rest : List HostMove),
    s.moves = .command c :: rest → s.halted = false →
    (∀ row ∈ opcodeRows, row.covers c = false) →
    step s = .next { s with
      moves := rest, position := s.position + 1, bus := []
      x := { s.x with status := 0b001, faultInfo := c }
      halted := true
      written := markWritten .faultInfo (markWritten .status s.written) }

/-- Rule R123: SETL accepts indices 0..18 and SETH 0, 3 and 14; any other raises IllegalCommand with the
command's word and writes nothing else. -/
def Obligations.IllegalRegisterIndexRaisesIllegalCommand : Prop :=
  ∀ (s : State) (r : BitVec 5) (imm : BitVec 16),
    (18 < r.toNat → exec (.setl r imm) s = .next { s with
      x := { s.x with status := 0b001, faultInfo := encode (.setl r imm) }
      halted := true
      written := markWritten .faultInfo (markWritten .status s.written) }) ∧
    (r ≠ 0 → r ≠ 3 → r ≠ 14 → exec (.seth r imm) s = .next { s with
      x := { s.x with status := 0b001, faultInfo := encode (.seth r imm) }
      halted := true
      written := markWritten .faultInfo (markWritten .status s.written) })

/-- Rule R243: in text mode MAPADDR and every command with `k = 1` raise NoSurface, and the state is
otherwise the one before the command. -/
def Obligations.SurfaceCommandInTextModeRaisesNoSurface : Prop :=
  ∀ (i : Instr) (s : State), usesSurface i = true → s.x.mode = 0 →
    exec i s = .next { s with
      x := { s.x with status := 0b010, faultInfo := encode i }
      halted := true
      written := markWritten .faultInfo (markWritten .status s.written) }

/-- Rules R79, R244: an access at an unpopulated address does not happen and raises BusError with the
reduced address; otherwise the byte is read or stored there. -/
def Obligations.ByteAccessHappensOrRaisesBusError : Prop :=
  ∀ (s : State) (a : Int) (v : Byte),
    (memValid s.cfg (truncA s.cfg a) = true →
      memRead a s = .go (memByte s.mem (truncA s.cfg a))
        { s with bus := s.bus ++ [.read (truncA s.cfg a) (memByte s.mem (truncA s.cfg a))] } ∧
      memWrite a v s = .go ()
        { s with mem := memSet s.mem (truncA s.cfg a) v
                 bus := s.bus ++ [.write (truncA s.cfg a) v] }) ∧
    (memValid s.cfg (truncA s.cfg a) = false →
      memRead a s = .stop { s with
        x := { s.x with status := 0b100, faultInfo := BitVec.ofNat 32 (truncA s.cfg a) }
        halted := true
        written := markWritten .faultInfo (markWritten .status s.written) } ∧
      memWrite a v s = .stop { s with
        x := { s.x with status := 0b100, faultInfo := BitVec.ofNat 32 (truncA s.cfg a) }
        halted := true
        written := markWritten .faultInfo (markWritten .status s.written) })

/-- Rules R244, R245 on the one-pixel commands: a refused read leaves RESULT and memory as they were. -/
def Obligations.PixelCommandAtRefusedAddressChangesNothingElse : Prop :=
  ∀ (s : State) (k : Kind), kindReady k s.x = true →
    (memValid s.cfg (getpixAddr s k) = false →
      exec (.getpix k) s = .next { s with
        x := { s.x with status := 0b100, faultInfo := BitVec.ofNat 32 (getpixAddr s k) }
        halted := true
        written := markWritten .faultInfo (markWritten .status s.written) }) ∧
    (memValid s.cfg (putpixAddr s k) = false → ∀ (m : DrawMode) (v : Pixel),
      exec (putpixRow k v m) s = .next { s with
        x := { s.x with status := 0b100, faultInfo := BitVec.ofNat 32 (putpixAddr s k) }
        halted := true
        written := markWritten .faultInfo (markWritten .status s.written) })

/-- Rules R244, R245: a command that ends at a BusError leaves every register but STATUS and FAULT_INFO as it
was (RESULT in GETPIX, XD in PRINT), and FAULT_INFO holds an address the platform does not populate. -/
def Obligations.BusErrorLeavesTheOtherRegisters : Prop :=
  ∀ (i : Instr) (s t : State), s.cfg.addrBits ≤ 32 → s.x.status ≠ 0b100 → exec i s = .next t →
    t.x.status = 0b100 →
    t.halted = true ∧ memValid s.cfg t.x.faultInfo.toNat = false ∧
    t.x = { s.x with status := 0b100, faultInfo := t.x.faultInfo }

/-- Rule R245 on FILL: it stops at the first refused write; every write before it stays made, no other byte
changes, and the error entry is the only register change. -/
def Obligations.FillStopsAtTheFirstRefusedWrite : Prop :=
  ∀ (s : State) (k : Kind) (r0 i0 : Nat),
    kindReady k s.x = true → memWf s.mem = true → colourLegal s.x.ink = true →
    r0 < s.x.h.toNat → i0 < s.x.w.toNat / 4 →
    memValid s.cfg (rectTarget s k r0 i0) = false →
    (∀ r i, i < s.x.w.toNat / 4 → (r < r0 ∨ r = r0 ∧ i < i0) →
      memValid s.cfg (rectTarget s k r i) = true) →
    ∃ t, exec (.fill k) s = .next t ∧
      t = { s with
        x := { s.x with
          status := 0b100, faultInfo := BitVec.ofNat 32 (rectTarget s k r0 i0) }
        halted := true
        written := markWritten .faultInfo (markWritten .status s.written)
        mem := t.mem, bus := t.bus } ∧
      (∀ r i, i < s.x.w.toNat / 4 → (r < r0 ∨ r = r0 ∧ i < i0) →
        memByte t.mem (rectTarget s k r i) = rep4 s.x.ink) ∧
      (∀ a, (∀ r i, i < s.x.w.toNat / 4 → (r < r0 ∨ r = r0 ∧ i < i0) → rectTarget s k r i ≠ a) →
        memByte t.mem a = memByte s.mem a)

/-! ### Registers and control (spec/10_state.md, spec/40_control.md) -/

/-- Rule R120. -/
def Obligations.NopChangesNothing : Prop := ∀ s : State, exec .nop s = .next s

/-- Rules R121, R22: SETL to a register other than MODE writes the whole register, cut to its width, and no
other; the register then counts as written. -/
def Obligations.SetlWritesTheWholeRegister : Prop :=
  ∀ (s : State) (r : BitVec 5) (imm : BitVec 16), r.toNat < 18 →
    ∃ reg t, regOfIndex r = some reg ∧ exec (.setl r imm) s = .next t ∧
      t = { s with x := t.x, written := markWritten reg s.written } ∧
      (readReg t.x reg).toNat = imm.toNat % 2 ^ regWidth s.cfg reg ∧
      ∀ reg', reg' ≠ reg → readReg t.x reg' = readReg s.x reg'

/-- Rule R122: SETH writes bits 31:16 of an address register and keeps bits 15:0, cut to `A` bits. -/
def Obligations.SethWritesTheUpperHalf : Prop :=
  ∀ (s : State) (r : BitVec 5) (imm : BitVec 16), r = 0 ∨ r = 3 ∨ r = 14 →
    ∃ reg t, regOfIndex r = some reg ∧ exec (.seth r imm) s = .next t ∧
      t = { s with x := t.x } ∧
      (readReg t.x reg).toNat
        = (imm.toNat * 2 ^ 16 + (readReg s.x reg).toNat % 2 ^ 16) % 2 ^ s.cfg.addrBits ∧
      ∀ reg', reg' ≠ reg → readReg t.x reg' = readReg s.x reg'

/-- Rule R122, corner case: with `A <= 16` SETH is legal and changes nothing. -/
def Obligations.SethChangesNothingWithShortAddresses : Prop :=
  ∀ (s : State) (r : BitVec 5) (imm : BitVec 16), addressesFit s.cfg s.x = true →
    s.cfg.addrBits ≤ 16 → r = 0 ∨ r = 3 ∨ r = 14 → exec (.seth r imm) s = .next s

/-- Rule R201: a graphics request stores the effective mode (3 with Hercules hardware) and loads the cache
from `Geom`; a text request stores 0 and leaves every register but the cache alone. -/
def Obligations.ModeWriteSelectsTheGeometry : Prop :=
  ∀ (s : State) (imm : BitVec 16),
    (imm.extractLsb' 0 2 ≠ 0 → ∃ (eff : BitVec 2) (g : Geom) (t : State),
      eff = (if s.cfg.hercPresent then 3 else imm.extractLsb' 0 2) ∧ geomOf s.cfg eff = some g ∧
      exec (.setl 18 imm) s = .next t ∧
      t = { s with
        x := { s.x with
          mode := eff, gBase := truncWord s.cfg g.base, gStride := g.stride, gIlv := g.ilv,
          gYmult := g.ymult, gYdiv := g.ydiv }
        written := t.written } ∧
      ∀ r, r ∈ t.written ↔
        r ∈ s.written ∨ r ∈ [Reg.mode, Reg.gBase, Reg.gStride, Reg.gIlv, Reg.gYmult, Reg.gYdiv]) ∧
    (imm.extractLsb' 0 2 = 0 → ∃ t : State,
      exec (.setl 18 imm) s = .next t ∧
      t = { s with
        x := { s.x with
          mode := 0, gBase := t.x.gBase, gStride := t.x.gStride, gIlv := t.x.gIlv,
          gYmult := t.x.gYmult, gYdiv := t.x.gYdiv }
        written := t.written, freeCount := t.freeCount } ∧
      ∀ r, r ∈ t.written ↔
        (r ∈ s.written ∨ r = Reg.mode) ∧
          r ∉ [Reg.gBase, Reg.gStride, Reg.gIlv, Reg.gYmult, Reg.gYdiv])

/-! ### Bit-slicing unit (spec/41_bitslice.md) -/

/-- Rule R137: the identities of extract, insert and replicate. -/
def Obligations.PackingIdentities : Prop :=
  ∀ (b : Byte) (l l' : Fin 4) (v v' : Pixel),
    pixGet (pixSet b l v) l = v ∧
    (l ≠ l' → pixGet (pixSet b l v) l' = pixGet b l') ∧
    pixSet b l (pixGet b l) = b ∧
    pixSet (pixSet b l v) l v' = pixSet b l v' ∧
    b = (pixGet b 0).setWidth 8 <<< 6 ||| (pixGet b 1).setWidth 8 <<< 4 |||
      (pixGet b 2).setWidth 8 <<< 2 ||| (pixGet b 3).setWidth 8 ∧
    pixGet (rep4 (v.setWidth 8)) l = v

/-- Rule R135: the ink/paper masking rule lane by lane, and with ink 3 and paper 0 the byte itself. -/
def Obligations.RecolourActsLaneByLane : Prop :=
  (∀ (b : Byte) (i p : Pixel) (l : Fin 4),
    pixGet (recolour b (i.setWidth 8) (p.setWidth 8)) l
      = (pixGet b l &&& i) ||| ((3 - pixGet b l) &&& p)) ∧
  (∀ b : Byte, recolour b 3 0 = b)

/-- Rule R138: GETPIX reads one byte and leaves the pixel of column XS in RESULT; nothing else changes. -/
def Obligations.GetpixLeavesThePixelInResult : Prop :=
  ∀ (s : State) (k : Kind), kindReady k s.x = true → populated s (getpixAddr s k) →
    exec (.getpix k) s = .next { s with
      x := { s.x with
        result := (pixGet (memByte s.mem (getpixAddr s k)) (lane s.x.xs.toNat)).setWidth 32 }
      written := markWritten .result s.written
      bus := s.bus ++ [.read (getpixAddr s k) (memByte s.mem (getpixAddr s k))] }

/-- Rule R140: each PUTPIX reads one byte, composes the pixel of column XD and writes the byte back; no
register and no other byte changes. -/
def Obligations.PutpixComposesOnePixel : Prop :=
  ∀ (s : State) (m : DrawMode) (k : Kind) (v : Pixel), memWf s.mem = true →
    kindReady k s.x = true → populated s (putpixAddr s k) →
    ∃ t old new, exec (putpixRow k v m) s = .next t ∧
      old = memByte s.mem (putpixAddr s k) ∧
      new = pixSet old (lane s.x.xd.toNat) (compose2 m (pixGet old (lane s.x.xd.toNat)) v) ∧
      t = { s with
        mem := t.mem
        bus := s.bus ++ [.read (putpixAddr s k) old, .write (putpixAddr s k) new] } ∧
      memByte t.mem (putpixAddr s k) = new ∧
      ∀ a, a ≠ putpixAddr s k → memByte t.mem a = memByte s.mem a

/-- Rules R141 to R145, the closed forms of the byte each PUTPIX writes. -/
def Obligations.PutpixClosedForms : Prop :=
  ∀ (b : Byte) (l : Fin 4) (v : Pixel),
    pixSet b l (compose2 .copy (pixGet b l) v) = pixSet b l v ∧
    pixSet b l (compose2 .copyInv (pixGet b l) v) = pixSet b l (3 - v) ∧
    pixSet b l (compose2 .and (pixGet b l) v)
      = b &&& (~~~((3 : Byte) <<< laneShift l) ||| v.setWidth 8 <<< laneShift l) ∧
    pixSet b l (compose2 .or (pixGet b l) v) = b ||| v.setWidth 8 <<< laneShift l ∧
    pixSet b l (compose2 .xor (pixGet b l) v) = b ^^^ v.setWidth 8 <<< laneShift l

/-- Rule R145: the same PUTPIX.XOR twice restores memory. -/
def Obligations.PutpixXorTwiceRestoresMemory : Prop :=
  ∀ (s : State) (k : Kind) (v : Pixel), memWf s.mem = true →
    kindReady k s.x = true → populated s (putpixAddr s k) →
    ∃ t u, exec (.putpixXor k v) s = .next t ∧ exec (.putpixXor k v) t = .next u ∧
      u = { s with bus := u.bus }

/-- A pixel drawn is the pixel read: PUTPIX.COPY, then GETPIX at the same place (rules R138, R141). -/
def Obligations.GetpixReadsWhatPutpixDrew : Prop :=
  ∀ (s : State) (k : Kind) (v : Pixel), memWf s.mem = true →
    kindReady k s.x = true → populated s (putpixAddr s k) →
    s.x.xs = s.x.xd → s.x.ys = s.x.yd → s.x.srcAddr = s.x.dstAddr → s.x.srcW = s.x.dstW →
    ∃ t u, exec (.putpixCopy k v) s = .next t ∧ exec (.getpix k) t = .next u ∧
      u.x = { s.x with result := v.setWidth 32 }

/-! ### Raster compositor (spec/45_compositor.md) -/

/-- Rule R228. -/
def Obligations.CompositorAlgebra : Prop :=
  ∀ (d s s1 s2 : Byte),
    (∀ m, m = DrawMode.and ∨ m = DrawMode.or ∨ m = DrawMode.xor →
      compose m (compose m d s1) s2 = compose m (compose m d s2) s1 ∧ compose m d s = compose m s d ∧
      compose m (compose m d s1) s2 = compose m d (compose m s1 s2)) ∧
    compose .xor (compose .xor d s) s = d ∧ compose .copyInv d s = ~~~s ∧ compose .copy d s = s ∧
    compose .and d 0xFF = d ∧ compose .or d 0x00 = d ∧ compose .xor d 0x00 = d ∧
    compose .xor d 0xFF = ~~~d

/-- Rule R227: the table on one pixel, and the byte operation is the pixel operation on four lanes. -/
def Obligations.ComposeActsLaneByLane : Prop :=
  (∀ d s : Pixel, compose2 .copy d s = s ∧ compose2 .copyInv d s = 3 - s ∧ compose2 .and d s = d &&& s ∧
    compose2 .or d s = d ||| s ∧ compose2 .xor d s = d ^^^ s) ∧
  ∀ (m : DrawMode) (d s : Byte) (l : Fin 4),
    pixGet (compose m d s) l = compose2 m (pixGet d l) (pixGet s l)

/-- Rules R222 to R226: COMPOSE leaves its byte in RESULT and changes nothing else, in every state. -/
def Obligations.ComposeLeavesItsByteInResult : Prop :=
  ∀ (st : State) (d s : Byte),
    exec (.composeCopy d s) st = .next { st with
      x := { st.x with result := s.setWidth 32 }, written := markWritten .result st.written } ∧
    exec (.composeCopyinv d s) st = .next { st with
      x := { st.x with result := BitVec.ofNat 32 (255 - s.toNat) }
      written := markWritten .result st.written } ∧
    exec (.composeAnd d s) st = .next { st with
      x := { st.x with result := (d &&& s).setWidth 32 }
      written := markWritten .result st.written } ∧
    exec (.composeOr d s) st = .next { st with
      x := { st.x with result := (d ||| s).setWidth 32 }
      written := markWritten .result st.written } ∧
    exec (.composeXor d s) st = .next { st with
      x := { st.x with result := (d ^^^ s).setWidth 32 }
      written := markWritten .result st.written }

/-! ### Surface address mapper (spec/44_mapper.md) -/

/-- Rules R203 to R205: under the cached geometry the one formula is, mode by mode, the document's. -/
def Obligations.SurfaceAddressModeByMode : Prop :=
  ∀ (c : Config) (x : Regs) (px py : Nat), geometryCached c x = true →
    (x.mode = 1 → surfAddr x px py = x.gBase.toNat + px / 4 + x.gStride.toNat * py) ∧
    (x.mode = 2 → surfAddr x px py
      = x.gBase.toNat + px / 4 + 0x2000 * (py % 2) + x.gStride.toNat * (py / 2)) ∧
    (x.mode = 3 → surfAddr x px py
      = x.gBase.toNat + px / 4 + 0x2000 * (py * x.gYmult.toNat / x.gYdiv.toNat % 4)
        + x.gStride.toNat * (py * x.gYmult.toNat / x.gYdiv.toNat / 4))

/-- Rule R206: within one row consecutive bytes are consecutive, and the low bits of a column drop out. -/
def Obligations.SurfaceRowIsConsecutive : Prop :=
  ∀ (x : Regs) (px py : Nat),
    surfAddr x (px + 4) py = surfAddr x px py + 1 ∧
    surfAddr x px py = surfAddr x (px - px % 4) py

/-- Rule R209: when distinct bytes of a rectangle of the surface get distinct addresses. -/
def Obligations.SurfaceRectangleIsInjective : Prop :=
  ∀ (c : Config) (x : Regs) (n h : Nat), surfaceScaled x = true →
    x.gYdiv.toNat ≤ x.gYmult.toNat → n ≤ x.gStride.toNat →
    (1 < x.gIlv.toNat →
      x.gStride.toNat * (scaledRow x (h - 1) / x.gIlv.toNat) + n ≤ 0x2000) →
    (∀ j < n, ∀ y < h, surfAddr x (4 * j) y < 2 ^ c.addrBits) →
    ∀ j < n, ∀ y < h, ∀ j' < n, ∀ y' < h,
      truncA c (surfAddr x (4 * j) y : Nat) = truncA c (surfAddr x (4 * j') y' : Nat) →
      j = j' ∧ y = y'

/-- Rule R207: MAPADDR leaves the reduced address of pixel (XD, YD) in RESULT, with no memory access. -/
def Obligations.MapaddrLeavesTheAddressInResult : Prop :=
  ∀ s : State, kindReady .surf s.x = true →
    exec .mapaddr s = .next { s with
      x := { s.x with
        result := BitVec.ofNat 32 (surfAddr s.x s.x.xd.toNat s.x.yd.toNat % 2 ^ s.cfg.addrBits) }
      written := markWritten .result s.written }

/-! ### Region commands (spec/42_region.md) -/

/-- Rules R152 to R158: with its addresses populated every PUT completes, changes no register, makes exactly
the accesses of its pseudocode in their order, and changes no byte outside its destination. -/
def Obligations.PutCompletesWithinItsRectangle : Prop :=
  ∀ (s : State) (m : DrawMode) (full : Bool) (k : Kind), kindReady k s.x = true →
    (∀ r < putRows s full, ∀ i < putCols s full,
      populated s (putSource s full r i) ∧ populated s (rectTarget s k r i)) →
    ∃ t, exec (putRow full k m) s = .next t ∧
      t = { s with mem := t.mem, bus := t.bus } ∧
      busOps t = busOps s ++ putOps s m full k ∧
      ∀ a, (∀ r < putRows s full, ∀ i < putCols s full, rectTarget s k r i ≠ a) →
        memByte t.mem a = memByte s.mem a

/-- Rules R152, R221: where no destination byte is a source byte or another destination byte, each is the
composition of what it and its source byte were. -/
def Obligations.PutComposesEveryByte : Prop :=
  ∀ (s : State) (m : DrawMode) (full : Bool) (k : Kind), memWf s.mem = true →
    kindReady k s.x = true →
    (∀ r < putRows s full, ∀ i < putCols s full,
      populated s (putSource s full r i) ∧ populated s (rectTarget s k r i)) →
    (∀ r < putRows s full, ∀ i < putCols s full, ∀ r' < putRows s full, ∀ i' < putCols s full,
      putSource s full r i ≠ rectTarget s k r' i' ∧
      (rectTarget s k r i = rectTarget s k r' i' → r = r' ∧ i = i')) →
    ∃ t, exec (putRow full k m) s = .next t ∧
      ∀ r < putRows s full, ∀ i < putCols s full,
        memByte t.mem (rectTarget s k r i)
          = compose m (memByte s.mem (rectTarget s k r i)) (memByte s.mem (putSource s full r i))

/-- Rule R158: PUT.XOR twice with the same source restores memory, provided source and destination do not
overlap. -/
def Obligations.PutXorTwiceRestoresMemory : Prop :=
  ∀ (s : State) (full : Bool) (k : Kind), memWf s.mem = true → kindReady k s.x = true →
    (∀ r < putRows s full, ∀ i < putCols s full,
      populated s (putSource s full r i) ∧ populated s (rectTarget s k r i)) →
    (∀ r < putRows s full, ∀ i < putCols s full, ∀ r' < putRows s full, ∀ i' < putCols s full,
      putSource s full r i ≠ rectTarget s k r' i') →
    ∃ t u, exec (.putXor full k) s = .next t ∧ exec (.putXor full k) t = .next u ∧
      u = { s with bus := u.bus }

/-- Rule R68 and U4: the low two bits of XD, XS, W and the buffer widths are ignored by PUT, GET, FILL and
PRINT: the same bytes are read and written. -/
def Obligations.LowColumnBitsAreIgnored : Prop :=
  ∀ (s t t' : State) (i : Instr) (k : Kind) (full : Bool) (m : DrawMode) (ch : Byte)
    (xd xs w srcW dstW : BitVec 16),
    (i = putRow full k m ∨ i = .get k ∨ i = .fill k ∨ i = .print k ch) →
    xd.toNat / 4 = s.x.xd.toNat / 4 → xs.toNat / 4 = s.x.xs.toNat / 4 →
    w.toNat / 4 = s.x.w.toNat / 4 → srcW.toNat / 4 = s.x.srcW.toNat / 4 →
    dstW.toNat / 4 = s.x.dstW.toNat / 4 →
    exec i s = .next t →
    exec i { s with x := { s.x with xd := xd, xs := xs, w := w, srcW := srcW, dstW := dstW } }
      = .next t' →
    t'.mem = t.mem ∧ t'.bus = t.bus ∧ t'.x.status = t.x.status

/-- Rule R160: with its addresses populated GET completes, changes no register, makes exactly its accesses,
changes no byte outside the destination PixelBuffer, and copies where nothing overlaps. -/
def Obligations.GetCopiesTheRectangle : Prop :=
  ∀ (s : State) (k : Kind), kindReady k s.x = true →
    (∀ r < s.x.dstH.toNat, ∀ i < s.x.dstW.toNat / 4,
      populated s (getSource s k r i) ∧ populated s (getTarget s r i)) →
    ∃ t, exec (.get k) s = .next t ∧
      t = { s with mem := t.mem, bus := t.bus } ∧
      busOps t = busOps s ++ getOps s k ∧
      (∀ a, (∀ r < s.x.dstH.toNat, ∀ i < s.x.dstW.toNat / 4, getTarget s r i ≠ a) →
        memByte t.mem a = memByte s.mem a) ∧
      (memWf s.mem = true →
        (∀ r < s.x.dstH.toNat, ∀ i < s.x.dstW.toNat / 4,
          ∀ r' < s.x.dstH.toNat, ∀ i' < s.x.dstW.toNat / 4,
            getSource s k r i ≠ getTarget s r' i' ∧
            (getTarget s r i = getTarget s r' i' → r = r' ∧ i = i')) →
        ∀ r < s.x.dstH.toNat, ∀ i < s.x.dstW.toNat / 4,
          memByte t.mem (getTarget s r i) = memByte s.mem (getSource s k r i))

/-- Rule R162 and U1: with its addresses populated FILL completes, changes no register, only writes, changes
no byte outside its rectangle, and with INK in range writes INK replicated into four lanes. -/
def Obligations.FillReplicatesInk : Prop :=
  ∀ (s : State) (k : Kind), kindReady k s.x = true →
    (∀ r < s.x.h.toNat, ∀ i < s.x.w.toNat / 4, populated s (rectTarget s k r i)) →
    ∃ t, exec (.fill k) s = .next t ∧
      t = { s with mem := t.mem, bus := t.bus, freeCount := t.freeCount } ∧
      busOps t = busOps s ++ fillOps s k ∧
      (∀ a, (∀ r < s.x.h.toNat, ∀ i < s.x.w.toNat / 4, rectTarget s k r i ≠ a) →
        memByte t.mem a = memByte s.mem a) ∧
      (s.x.ink.toNat ≤ 3 → memWf s.mem = true →
        ∀ r < s.x.h.toNat, ∀ i < s.x.w.toNat / 4,
          memByte t.mem (rectTarget s k r i) = BitVec.ofNat 8 (s.x.ink.toNat * 0x55))

/-- Rule R165, for a buffer and for the surface: PUT.COPY ..., FULL, then GET of the same rectangle, fills
the last buffer with the source's bytes.  `u` is the state after the first command with the host's
descriptors moved as the rule says. -/
def Obligations.GetReturnsWhatPutCopyPut : Prop :=
  ∀ (s : State) (k : Kind) (back : Word), memWf s.mem = true → kindReady k s.x = true →
    (∀ r < s.x.srcH.toNat, ∀ i < s.x.srcW.toNat / 4,
      populated s (putSource s true r i) ∧ populated s (rectTarget s k r i) ∧
      populated s (truncA s.cfg (bufAddr back s.x.srcW 0 r + i : Nat))) →
    (∀ r < s.x.srcH.toNat, ∀ i < s.x.srcW.toNat / 4,
      ∀ r' < s.x.srcH.toNat, ∀ i' < s.x.srcW.toNat / 4,
        putSource s true r i ≠ rectTarget s k r' i' ∧
        rectTarget s k r i ≠ truncA s.cfg (bufAddr back s.x.srcW 0 r' + i' : Nat) ∧
        (rectTarget s k r i = rectTarget s k r' i' → r = r' ∧ i = i') ∧
        (truncA s.cfg (bufAddr back s.x.srcW 0 r + i : Nat)
          = truncA s.cfg (bufAddr back s.x.srcW 0 r' + i' : Nat) → r = r' ∧ i = i')) →
    ∃ t u v, exec (.putCopy true k) s = .next t ∧
      u = { t with x := { s.x with
        srcAddr := s.x.dstAddr, srcW := s.x.dstW, xs := s.x.xd, ys := s.x.yd
        dstAddr := back, dstW := s.x.srcW, dstH := s.x.srcH } } ∧
      exec (.get k) u = .next v ∧
      ∀ r < s.x.srcH.toNat, ∀ i < s.x.srcW.toNat / 4,
        memByte v.mem (truncA s.cfg (bufAddr back s.x.srcW 0 r + i : Nat))
          = memByte s.mem (putSource s true r i)

/-! ### Glyph commands (spec/43_glyph.md) -/

/-- Rule R181: with no glyph set attached PRINT does nothing; NoSurface comes before that test. -/
def Obligations.PrintWithoutGlyphSetDoesNothing : Prop :=
  ∀ (s : State) (ch : Byte),
    (∀ k, kindReady k s.x = true → s.x.ctrl = 0 → exec (.print k ch) s = .next s) ∧
    (s.x.mode = 0 → exec (.print .surf ch) s = .next { s with
      x := { s.x with status := 0b010, faultInfo := encode (.print .surf ch) }
      halted := true
      written := markWritten .faultInfo (markWritten .status s.written) })

/-- Rules R182, R183 and U1: with a glyph set attached and its addresses populated PRINT completes, makes its
eight reads and writes in order, advances XD by 4 modulo 2^16, changes no other register and no other byte,
and, with colours in range and nothing overlapping, draws the recoloured glyph. -/
def Obligations.PrintDrawsTheGlyphAndAdvances : Prop :=
  ∀ (s : State) (k : Kind) (ch : Byte), kindReady k s.x = true → s.x.ctrl = 1 →
    (∀ r < 8, populated s (glyphSlot s ch r) ∧ populated s (printTarget s k r)) →
    ∃ t, exec (.print k ch) s = .next t ∧
      t = { s with
        x := { s.x with xd := BitVec.ofNat 16 (s.x.xd.toNat + 4) }
        written := markWritten .xd s.written
        mem := t.mem, bus := t.bus, freeCount := t.freeCount } ∧
      busOps t = busOps s ++ moveOps 8 (glyphSlot s ch) (printTarget s k) ∧
      (∀ a, (∀ r < 8, printTarget s k r ≠ a) → memByte t.mem a = memByte s.mem a) ∧
      (memWf s.mem = true → s.x.ink.toNat ≤ 3 → s.x.paper.toNat ≤ 3 →
        (∀ r < 8, ∀ r' < 8, glyphSlot s ch r ≠ printTarget s k r' ∧
          (printTarget s k r = printTarget s k r' → r = r')) →
        ∀ r < 8, memByte t.mem (printTarget s k r)
          = recolour (memByte s.mem (glyphSlot s ch r)) s.x.ink s.x.paper)

/-- Rule R185 and U2: with the glyph set populated RECOLOR completes, reads and writes every byte of it in
order, changes no register and no byte outside it, and rewrites every canonical byte by the masking rule. -/
def Obligations.RecolorRewritesCanonicalBytes : Prop :=
  ∀ (s : State) (ink paper : Pixel),
    (∀ j < recolorCount s.x, populated s (recolorTarget s j)) →
    ∃ t, exec (.recolor ink paper) s = .next t ∧
      t = { s with mem := t.mem, bus := t.bus, freeCount := t.freeCount } ∧
      busOps t = busOps s ++ moveOps (recolorCount s.x) (recolorTarget s) (recolorTarget s) ∧
      (∀ a, (∀ j < recolorCount s.x, recolorTarget s j ≠ a) → memByte t.mem a = memByte s.mem a) ∧
      (memWf s.mem = true → recolorCount s.x ≤ 2 ^ s.cfg.addrBits →
        ∀ j < recolorCount s.x, canonical (memByte s.mem (recolorTarget s j)) = true →
          memByte t.mem (recolorTarget s j)
            = recolour (memByte s.mem (recolorTarget s j)) (ink.setWidth 8) (paper.setWidth 8))

/-- Rules R187, R188: with their addresses populated GLYPHGET and GLYPHPUT complete, make eight reads and
writes in order, change no register and no byte outside the eight written, and copy where nothing
overlaps. -/
def Obligations.GlyphCopiesMoveEightBytes : Prop :=
  ∀ (s : State) (code : Byte),
    ((∀ r < 8, populated s (glyphSlot s code r) ∧ populated s (dstByteAddr s r)) →
      ∃ t, exec (.glyphget code) s = .next t ∧ t = { s with mem := t.mem, bus := t.bus } ∧
        busOps t = busOps s ++ moveOps 8 (glyphSlot s code) (dstByteAddr s) ∧
        (∀ a, (∀ r < 8, dstByteAddr s r ≠ a) → memByte t.mem a = memByte s.mem a) ∧
        (memWf s.mem = true →
          (∀ r < 8, ∀ r' < 8, glyphSlot s code r ≠ dstByteAddr s r' ∧
            (dstByteAddr s r = dstByteAddr s r' → r = r')) →
          ∀ r < 8, memByte t.mem (dstByteAddr s r) = memByte s.mem (glyphSlot s code r))) ∧
    ((∀ r < 8, populated s (srcByteAddr s r) ∧ populated s (glyphSlot s code r)) →
      ∃ t, exec (.glyphput code) s = .next t ∧ t = { s with mem := t.mem, bus := t.bus } ∧
        busOps t = busOps s ++ moveOps 8 (srcByteAddr s) (glyphSlot s code) ∧
        (∀ a, (∀ r < 8, glyphSlot s code r ≠ a) → memByte t.mem a = memByte s.mem a) ∧
        (memWf s.mem = true →
          (∀ r < 8, ∀ r' < 8, srcByteAddr s r ≠ glyphSlot s code r' ∧
            (glyphSlot s code r = glyphSlot s code r' → r = r')) →
          ∀ r < 8, memByte t.mem (glyphSlot s code r) = memByte s.mem (srcByteAddr s r)))

/-- Rule R189: GLYPHPUT, then GLYPHGET of the same code, reproduces the eight bytes at SRC_ADDR at DST_ADDR,
for three ranges that are populated and do not overlap. -/
def Obligations.GlyphRoundTripReproducesTheBytes : Prop :=
  ∀ (s : State) (code : Byte), memWf s.mem = true →
    (∀ r < 8, populated s (srcByteAddr s r) ∧ populated s (glyphSlot s code r) ∧
      populated s (dstByteAddr s r)) →
    (∀ r < 8, ∀ r' < 8,
      srcByteAddr s r ≠ glyphSlot s code r' ∧ glyphSlot s code r ≠ dstByteAddr s r' ∧
      srcByteAddr s r ≠ dstByteAddr s r' ∧
      (glyphSlot s code r = glyphSlot s code r' → r = r') ∧
      (dstByteAddr s r = dstByteAddr s r' → r = r')) →
    ∃ t u, exec (.glyphput code) s = .next t ∧ exec (.glyphget code) t = .next u ∧
      ∀ r < 8, memByte u.mem (dstByteAddr s r) = memByte s.mem (srcByteAddr s r)

/-! ### Memory (spec/20_memory.md) -/

/-- Rule R71(c) and R69: a read gives the latest write of its address, a write changes that byte only, and
the canonical form is kept.  That form is the model's own (notes/assumptions/3.md). -/
def Obligations.ReadAfterWriteGivesTheByte : Prop :=
  ∀ (m : List Host.Cell) (a b : Nat) (v : Byte), memWf m = true →
    memByte (memSet m a v) b = (if b = a then v else memByte m b) ∧ memWf (memSet m a v) = true

/-- Canonical contents are determined by what their addresses read as: equal memories are equal data.  The
form is the model's own (notes/assumptions/3.md). -/
def Obligations.CanonicalMemoriesAreEqualWhenTheirBytesAre : Prop :=
  ∀ m m' : List Host.Cell, memWf m = true → memWf m' = true →
    (∀ a, memByte m a = memByte m' a) → m = m'

/-! ### Whole-machine rules -/

/-- Rule R29: no command but a write of MODE changes MODE or the geometry cache. -/
def Obligations.GeometryChangesOnlyAtAModeWrite : Prop :=
  ∀ (i : Instr) (s t : State), exec i s = .next t → (∀ imm, i ≠ .setl 18 imm) →
    t.x.mode = s.x.mode ∧ t.x.gBase = s.x.gBase ∧ t.x.gStride = s.x.gStride ∧
    t.x.gIlv = s.x.gIlv ∧ t.x.gYmult = s.x.gYmult ∧ t.x.gYdiv = s.x.gYdiv

/-- Rules R24, R36: but for SETL and SETH no command changes a register the host writes, except PRINT, which
changes XD only. -/
def Obligations.OperandRegistersAreTheHosts : Prop :=
  ∀ (i : Instr) (s t : State) (reg : Reg), exec i s = .next t → reg.unitOnly = false →
    (∀ r imm, i ≠ .setl r imm ∧ i ≠ .seth r imm) →
    (reg = .xd → ∀ k ch, i ≠ .print k ch) →
    readReg t.x reg = readReg s.x reg

/-- Rule R30: only GETPIX, COMPOSE and MAPADDR change RESULT. -/
def Obligations.ResultIsWrittenByScalarCommandsOnly : Prop :=
  ∀ (i : Instr) (s t : State), exec i s = .next t → (∀ k, i ≠ .getpix k) →
    (∀ d b m, i ≠ composeRow d b m) → i ≠ .mapaddr → t.x.result = s.x.result

/-- Rule R62: NOP, SETL, SETH, COMPOSE and MAPADDR reach no memory; GETPIX writes none. -/
def Obligations.ScalarCommandsLeaveMemoryAlone : Prop :=
  ∀ (i : Instr) (s t : State), exec i s = .next t →
    ((i = .nop ∨ i = .mapaddr ∨ (∃ r imm, i = .setl r imm ∨ i = .seth r imm) ∨
        (∃ d b m, i = composeRow d b m)) → t.mem = s.mem ∧ t.bus = s.bus) ∧
    ((∃ k, i = .getpix k) → t.mem = s.mem)

/-- Rules R31, R241: a command either leaves STATUS, FAULT_INFO and HALTED alone or ends at one error entry. -/
def Obligations.CommandRaisesAtMostOneError : Prop :=
  ∀ (i : Instr) (s t : State), exec i s = .next t →
    (t.x.status = s.x.status ∧ t.x.faultInfo = s.x.faultInfo ∧ t.halted = s.halted) ∨
    (t.halted = true ∧ (t.x.status = 0b001 ∨ t.x.status = 0b010 ∨ t.x.status = 0b100))

/-- Rules R247, R249, R31 to R33: once halted, only RESET changes a register or leaves the halted state. -/
def Obligations.OnlyResetLeavesTheHaltedState : Prop :=
  ∀ s t : State, s.halted = true → (∀ rest, s.moves ≠ .reset :: rest) → step s = .next t →
    t.halted = true ∧ t.x = s.x ∧
    ((∀ a v rest, s.moves ≠ .writeMemory a v :: rest) → t.mem = s.mem)

/-- Rules R270, R271, R37: RESET gives the registers the values the spec states, leaves the halted state and
leaves memory and the parameters alone. -/
def Obligations.ResetGivesTheStatedValues : Prop :=
  ∀ (s : State) (rest : List HostMove), s.moves = .reset :: rest →
    ∃ t, step s = .next t ∧ t.x.ink = 3 ∧ t.x.paper = 0 ∧ t.x.mode = 0 ∧ t.x.ctrl = 0 ∧
      t.x.status = 0 ∧ t.halted = false ∧ t.mem = s.mem ∧ t.cfg = s.cfg ∧ t.moves = rest ∧
      ∀ r, r ∈ t.written → False

/-- Rules R21, R22, R36: a host read of a register changes nothing but what the host sees; it sees the
register zero-extended, and 0 at a reserved index. -/
def Obligations.HostReadsRegistersWithoutSideEffect : Prop :=
  ∀ (s : State) (idx : BitVec 5) (rest : List HostMove), s.moves = .readRegister idx :: rest →
    (idx.toNat < 27 → ∃ reg, regOfIndex idx = some reg ∧
      step s = .next { s with moves := rest, reply := readReg s.x reg } ∧
      (addressesFit s.cfg s.x = true → (readReg s.x reg).toNat < 2 ^ regWidth s.cfg reg)) ∧
    (27 ≤ idx.toNat → step s = .next { s with moves := rest, reply := 0 })

/-- Rules R36, R71: a byte the host writes is what the next access of that address sees, and no other byte
changes. -/
def Obligations.HostWritesAreSeenByTheBlock : Prop :=
  ∀ (s : State) (a : Nat) (v : Byte) (rest : List HostMove), memWf s.mem = true →
    s.moves = .writeMemory a v :: rest → a < 2 ^ s.cfg.addrBits → memValid s.cfg a = true →
    ∃ t, step s = .next t ∧ t = { s with moves := rest, mem := t.mem } ∧
      memByte t.mem a = v ∧ (∀ b, b ≠ a → memByte t.mem b = memByte s.mem b) ∧
      memRead (a : Int) t = .go v { t with bus := t.bus ++ [.read a v] }

/-- The invariant holds right after reset, for every platform and every contents of memory.  The zeros of the
registers the spec leaves unspecified and CFG_TEST are the model's choice (notes/assumptions/1.md, 2.md). -/
def Obligations.ResetMeetsTheInvariant : Prop :=
  Inv State.reset ∧
  ∀ (c : Config) (m : List Host.Cell), c.wf = true → memWf m = true → memInSpace c m = true →
    Inv (State.resetOf c m)

/-- Every step keeps the invariant: the canonical memory within the address space, HALTED = (STATUS != 0),
at most one error bit, addresses of `A` bits, the cache a function of MODE, the Hercules upgrade. -/
def Obligations.EveryStepKeepsTheInvariant : Prop :=
  ∀ s t : State, Inv s → step s = .next t → Inv t ∧ t.cfg = s.cfg

/-- From every state of the invariant a step answers a next state: no command word is refused or faults.
Only a host access to a byte the platform does not have stops (notes/assumptions/9.md).  A command that
reads a register nothing has written runs too (notes/assumptions/1.md). -/
def Obligations.EveryCommandWordCompletes : Prop :=
  ∀ s : State, Inv s →
    (∃ t, step s = .next t) ∨
    (step s = .fault .hostAccessNoByte ∧ ∃ a rest, hostReaches s.cfg a = false ∧
      (s.moves = .readMemory a :: rest ∨ ∃ v, s.moves = .writeMemory a v :: rest))

/-- Rule R38: a grounded command (every register it reads was written since reset or has a stated reset
value) does the same whatever the other registers hold: two states that agree on the defined registers
give states that agree on the defined registers, on memory and on everything else. -/
def Obligations.GroundedCommandsIgnoreUnwrittenRegisters : Prop :=
  ∀ (i : Instr) (s t : State) (y : Regs), grounded i s = true →
    (∀ r, defined s r = true → readReg y r = readReg s.x r) →
    exec i s = .next t →
    ∃ z, exec i { s with x := y } = .next { t with x := z } ∧
      ∀ r, defined t r = true → readReg z r = readReg t.x r
end

