-- ==== Sys2Proof/Laws/Memory.lean ====
section
/-! SUPPORT. The laws of memory contents: read after write, the canonical form kept by every write, and
canonical contents determined by what their addresses read as. -/

namespace Sys2Proof.Machine

theorem memWfAbove_cons {lo : Option Nat} {b : Nat} {v : Byte} {m : List Host.Cell} :
    memWfAbove lo ((b, v) :: m) = true ↔
      (∀ l, lo = some l → l < b) ∧ v ≠ unlistedByte ∧ memWfAbove (some b) m = true := by
  cases lo <;> simp [memWfAbove, and_assoc]

/-- A lower bound may be lowered or dropped. -/
theorem memWfAbove_weaken {lo lo' : Option Nat} {m : List Host.Cell} (h : memWfAbove lo m = true)
    (hlo : ∀ l', lo' = some l' → ∃ l, lo = some l ∧ l' ≤ l) : memWfAbove lo' m = true := by
  cases m with
  | nil => simp [memWfAbove]
  | cons e m =>
    obtain ⟨b, v⟩ := e
    rw [memWfAbove_cons] at h ⊢
    refine ⟨fun l' hl' => ?_, h.2⟩
    obtain ⟨l, hl, hle⟩ := hlo l' hl'
    exact lt_of_le_of_lt hle (h.1 l hl)

/-- Below every listed address nothing is listed. -/
theorem memByte_of_above {lo a : Nat} {m : List Host.Cell} (h : memWfAbove (some lo) m = true)
    (ha : a ≤ lo) : memByte m a = unlistedByte := by
  induction m generalizing lo with
  | nil => rfl
  | cons e m ih =>
    obtain ⟨b, v⟩ := e
    rw [memWfAbove_cons] at h
    have hb := h.1 lo rfl
    rw [memByte, if_neg (by omega)]
    exact ih h.2.2 (by omega)

/-- A write leaves every other byte alone, in any contents. -/
theorem memByte_memSet_ne (m : List Host.Cell) (a b : Nat) (v : Byte) (h : b ≠ a) :
    memByte (memSet m a v) b = memByte m b := by
  induction m with
  | nil =>
    simp only [memSet]
    split
    · rfl
    · simp only [memByte]; rw [if_neg (fun e => h e.symm)]
  | cons e m ih =>
    obtain ⟨c, u⟩ := e
    simp only [memSet]
    split
    · split
      · rfl
      · simp only [memByte]; rw [if_neg (fun e => h e.symm)]
    · split
      · rename_i hac
        subst hac
        split
        · simp only [memByte]; rw [if_neg (fun e => h e.symm)]
        · simp only [memByte]; rw [if_neg (fun e => h e.symm), if_neg (fun e => h e.symm)]
      · simp only [memByte, ih]

/-- A read after a write to the same address gives the byte written. -/
theorem memByte_memSet_self {lo : Option Nat} {m : List Host.Cell} (h : memWfAbove lo m = true)
    (a : Nat) (v : Byte) : memByte (memSet m a v) a = v := by
  induction m generalizing lo with
  | nil =>
    simp only [memSet]
    split
    · rename_i hv; simp [memByte, hv]
    · simp [memByte]
  | cons e m ih =>
    obtain ⟨c, u⟩ := e
    rw [memWfAbove_cons] at h
    simp only [memSet]
    split
    · rename_i hac
      split
      · rename_i hv
        rw [memByte, if_neg (by omega), hv]
        exact memByte_of_above h.2.2 (by omega)
      · simp [memByte]
    · split
      · rename_i hac
        subst hac
        split
        · rename_i hv; rw [hv]; exact memByte_of_above h.2.2 (le_refl _)
        · simp [memByte]
      · rename_i hac
        rw [memByte, if_neg (fun e => hac e.symm)]
        exact ih h.2.2

/-- The read-after-write law in one equation. -/
theorem memByte_memSet {m : List Host.Cell} (h : memWf m = true) (a b : Nat) (v : Byte) :
    memByte (memSet m a v) b = if b = a then v else memByte m b := by
  split
  · rename_i hb; subst hb; exact memByte_memSet_self h b v
  · rename_i hb; exact memByte_memSet_ne m a b v hb

theorem memWfAbove_memSet {lo : Option Nat} {m : List Host.Cell} (h : memWfAbove lo m = true) (a : Nat)
    (v : Byte) (ha : ∀ l, lo = some l → l < a) : memWfAbove lo (memSet m a v) = true := by
  induction m generalizing lo with
  | nil =>
    simp only [memSet]
    split
    · simp [memWfAbove]
    · rename_i hv; rw [memWfAbove_cons]; exact ⟨ha, hv, by simp [memWfAbove]⟩
  | cons e m ih =>
    obtain ⟨c, u⟩ := e
    have h' := memWfAbove_cons.mp h
    simp only [memSet]
    split
    · split
      · exact h
      · rename_i hac hv
        rw [memWfAbove_cons]
        refine ⟨ha, hv, ?_⟩
        rw [memWfAbove_cons]
        exact ⟨fun l hl => by cases hl; exact hac, h'.2⟩
    · split
      · rename_i hac
        subst hac
        split
        · exact memWfAbove_weaken h'.2.2 fun l hl => ⟨a, rfl, le_of_lt (h'.1 l hl)⟩
        · rename_i hv; rw [memWfAbove_cons]; exact ⟨h'.1, hv, h'.2.2⟩
      · rename_i hlt hne
        rw [memWfAbove_cons]
        refine ⟨h'.1, h'.2.1, ih h'.2.2 ?_⟩
        intro l hl; cases hl; omega

/-- Every write keeps the canonical form. -/
theorem memWf_memSet {m : List Host.Cell} (h : memWf m = true) (a : Nat) (v : Byte) :
    memWf (memSet m a v) = true :=
  memWfAbove_memSet h a v (by simp)

/-- A write inside the address space lists nothing outside it. -/
theorem memInSpace_memSet {c : Config} {m : List Host.Cell} (h : memInSpace c m = true) (a : Nat)
    (v : Byte) (ha : a < 2 ^ c.addrBits) : memInSpace c (memSet m a v) = true := by
  simp only [memInSpace, List.all_eq_true, decide_eq_true_eq] at h ⊢
  induction m with
  | nil =>
    simp only [memSet]
    split
    · simp
    · intro e he; simp at he; subst he; exact ha
  | cons e m ih =>
    obtain ⟨b, u⟩ := e
    have hb := h (b, u) (by simp)
    have hm := fun e he => h e (List.mem_cons_of_mem _ he)
    simp only [memSet]
    intro e he
    split at he
    · split at he
      · exact h e he
      · rcases List.mem_cons.mp he with rfl | he
        · exact ha
        · exact h e he
    · split at he
      · split at he
        · exact hm e he
        · rcases List.mem_cons.mp he with rfl | he
          · exact hb
          · exact hm e he
      · rcases List.mem_cons.mp he with rfl | he
        · exact hb
        · exact ih hm e he

/-- Canonical contents with the same bytes are the same list. -/
theorem memWfAbove_ext {lo : Option Nat} {m m' : List Host.Cell} (h : memWfAbove lo m = true)
    (h' : memWfAbove lo m' = true) (hb : ∀ a, memByte m a = memByte m' a) : m = m' := by
  induction m generalizing lo m' with
  | nil =>
    cases m' with
    | nil => rfl
    | cons e m' =>
      obtain ⟨b, v⟩ := e
      rw [memWfAbove_cons] at h'
      have := hb b
      simp [memByte] at this
      exact absurd this.symm h'.2.1
  | cons e m ih =>
    obtain ⟨b, v⟩ := e
    rw [memWfAbove_cons] at h
    cases m' with
    | nil =>
      have := hb b
      simp [memByte] at this
      exact absurd this h.2.1
    | cons e' m' =>
      obtain ⟨b', v'⟩ := e'
      rw [memWfAbove_cons] at h'
      have hbb : b = b' := by
        rcases Nat.lt_trichotomy b b' with hlt | heq | hgt
        · have := hb b
          rw [memByte, if_pos rfl, memByte, if_neg (by omega),
            memByte_of_above h'.2.2 (by omega)] at this
          exact absurd this h.2.1
        · exact heq
        · have := hb b'
          rw [memByte, if_neg (by omega), memByte_of_above h.2.2 (by omega), memByte, if_pos rfl] at this
          exact absurd this.symm h'.2.1
      subst hbb
      have hv : v = v' := by simpa [memByte] using hb b
      subst hv
      have hm : m = m' := by
        refine ih (lo := some b) h.2.2 h'.2.2 fun a => ?_
        by_cases hab : b = a
        · subst hab
          rw [memByte_of_above h.2.2 (le_refl _), memByte_of_above h'.2.2 (le_refl _)]
        · simpa [memByte, hab] using hb a
      rw [hm]

theorem mem_ext {m m' : List Host.Cell} (h : memWf m = true) (h' : memWf m' = true)
    (hb : ∀ a, memByte m a = memByte m' a) : m = m' :=
  memWfAbove_ext h h' hb

end Sys2Proof.Machine
end

