-- ==== Sys2Proof/Laws/State.lean ====
section
/-! SUPPORT. One lemma per field per update of the state, so that no proof unfolds a record update. -/

namespace Sys2Proof.Machine

@[simp] theorem writeReg_x (r : Reg) (v : Word) (s : State) :
    (writeReg r v s).x = setReg s.cfg s.x r v := rfl

@[simp] theorem writeReg_halted (r : Reg) (v : Word) (s : State) :
    (writeReg r v s).halted = s.halted := rfl

@[simp] theorem writeReg_mem (r : Reg) (v : Word) (s : State) :
    (writeReg r v s).mem = s.mem := rfl

@[simp] theorem writeReg_cfg (r : Reg) (v : Word) (s : State) :
    (writeReg r v s).cfg = s.cfg := rfl

@[simp] theorem writeReg_written (r : Reg) (v : Word) (s : State) :
    (writeReg r v s).written = markWritten r s.written := rfl

@[simp] theorem writeReg_moves (r : Reg) (v : Word) (s : State) :
    (writeReg r v s).moves = s.moves := rfl

@[simp] theorem writeReg_position (r : Reg) (v : Word) (s : State) :
    (writeReg r v s).position = s.position := rfl

@[simp] theorem writeReg_bus (r : Reg) (v : Word) (s : State) :
    (writeReg r v s).bus = s.bus := rfl

@[simp] theorem writeReg_reply (r : Reg) (v : Word) (s : State) :
    (writeReg r v s).reply = s.reply := rfl

@[simp] theorem writeReg_freeCount (r : Reg) (v : Word) (s : State) :
    (writeReg r v s).freeCount = s.freeCount := rfl

@[simp] theorem raiseError_x (e : Cause) (info : Word) (s : State) :
    (raiseError e info s).x = { s.x with status := e.statusBit, faultInfo := info } := rfl

@[simp] theorem raiseError_halted (e : Cause) (info : Word) (s : State) :
    (raiseError e info s).halted = true := rfl

@[simp] theorem raiseError_mem (e : Cause) (info : Word) (s : State) :
    (raiseError e info s).mem = s.mem := rfl

@[simp] theorem raiseError_cfg (e : Cause) (info : Word) (s : State) :
    (raiseError e info s).cfg = s.cfg := rfl

@[simp] theorem raiseError_written (e : Cause) (info : Word) (s : State) :
    (raiseError e info s).written = markWritten .faultInfo (markWritten .status s.written) := rfl

@[simp] theorem raiseError_moves (e : Cause) (info : Word) (s : State) :
    (raiseError e info s).moves = s.moves := rfl

@[simp] theorem raiseError_position (e : Cause) (info : Word) (s : State) :
    (raiseError e info s).position = s.position := rfl

@[simp] theorem raiseError_bus (e : Cause) (info : Word) (s : State) :
    (raiseError e info s).bus = s.bus := rfl

@[simp] theorem raiseError_reply (e : Cause) (info : Word) (s : State) :
    (raiseError e info s).reply = s.reply := rfl

@[simp] theorem raiseError_freeCount (e : Cause) (info : Word) (s : State) :
    (raiseError e info s).freeCount = s.freeCount := rfl

@[simp] theorem assertReset_x (s : State) :
    (assertReset s).x = Regs.reset := rfl

@[simp] theorem assertReset_halted (s : State) :
    (assertReset s).halted = false := rfl

@[simp] theorem assertReset_mem (s : State) :
    (assertReset s).mem = s.mem := rfl

@[simp] theorem assertReset_cfg (s : State) :
    (assertReset s).cfg = s.cfg := rfl

@[simp] theorem assertReset_written (s : State) :
    (assertReset s).written = [] := rfl

@[simp] theorem assertReset_moves (s : State) :
    (assertReset s).moves = s.moves := rfl

@[simp] theorem assertReset_position (s : State) :
    (assertReset s).position = s.position := rfl

@[simp] theorem assertReset_bus (s : State) :
    (assertReset s).bus = [] := rfl

@[simp] theorem assertReset_reply (s : State) :
    (assertReset s).reply = s.reply := rfl

@[simp] theorem assertReset_freeCount (s : State) :
    (assertReset s).freeCount = s.freeCount := rfl

@[simp] theorem loadGeometry_halted (g : Geom) (s : State) :
    (loadGeometry g s).halted = s.halted := rfl

@[simp] theorem loadGeometry_mem (g : Geom) (s : State) :
    (loadGeometry g s).mem = s.mem := rfl

@[simp] theorem loadGeometry_cfg (g : Geom) (s : State) :
    (loadGeometry g s).cfg = s.cfg := rfl

@[simp] theorem loadGeometry_moves (g : Geom) (s : State) :
    (loadGeometry g s).moves = s.moves := rfl

@[simp] theorem loadGeometry_position (g : Geom) (s : State) :
    (loadGeometry g s).position = s.position := rfl

@[simp] theorem loadGeometry_bus (g : Geom) (s : State) :
    (loadGeometry g s).bus = s.bus := rfl

@[simp] theorem loadGeometry_reply (g : Geom) (s : State) :
    (loadGeometry g s).reply = s.reply := rfl

@[simp] theorem loadGeometry_freeCount (g : Geom) (s : State) :
    (loadGeometry g s).freeCount = s.freeCount := rfl

@[simp] theorem dropGeometry_halted (s : State) :
    (dropGeometry s).halted = s.halted := rfl

@[simp] theorem dropGeometry_mem (s : State) :
    (dropGeometry s).mem = s.mem := rfl

@[simp] theorem dropGeometry_cfg (s : State) :
    (dropGeometry s).cfg = s.cfg := rfl

@[simp] theorem dropGeometry_moves (s : State) :
    (dropGeometry s).moves = s.moves := rfl

@[simp] theorem dropGeometry_position (s : State) :
    (dropGeometry s).position = s.position := rfl

@[simp] theorem dropGeometry_bus (s : State) :
    (dropGeometry s).bus = s.bus := rfl

@[simp] theorem dropGeometry_reply (s : State) :
    (dropGeometry s).reply = s.reply := rfl

@[simp] theorem dropGeometry_freeCount (s : State) :
    (dropGeometry s).freeCount = s.freeCount + 5 := rfl

@[simp] theorem accept_x (s : State) :
    (accept s).x = s.x := rfl

@[simp] theorem accept_halted (s : State) :
    (accept s).halted = s.halted := rfl

@[simp] theorem accept_mem (s : State) :
    (accept s).mem = s.mem := rfl

@[simp] theorem accept_cfg (s : State) :
    (accept s).cfg = s.cfg := rfl

@[simp] theorem accept_written (s : State) :
    (accept s).written = s.written := rfl

@[simp] theorem accept_moves (s : State) :
    (accept s).moves = s.moves := rfl

@[simp] theorem accept_position (s : State) :
    (accept s).position = s.position + 1 := rfl

@[simp] theorem accept_bus (s : State) :
    (accept s).bus = [] := rfl

@[simp] theorem accept_reply (s : State) :
    (accept s).reply = s.reply := rfl

@[simp] theorem accept_freeCount (s : State) :
    (accept s).freeCount = s.freeCount := rfl

@[simp] theorem modeWrite_halted (v : BitVec 16) (s : State) :
    (modeWrite v s).halted = s.halted := by
  unfold modeWrite; dsimp only; split <;> rfl

@[simp] theorem modeWrite_mem (v : BitVec 16) (s : State) :
    (modeWrite v s).mem = s.mem := by
  unfold modeWrite; dsimp only; split <;> rfl

@[simp] theorem modeWrite_cfg (v : BitVec 16) (s : State) :
    (modeWrite v s).cfg = s.cfg := by
  unfold modeWrite; dsimp only; split <;> rfl

@[simp] theorem modeWrite_moves (v : BitVec 16) (s : State) :
    (modeWrite v s).moves = s.moves := by
  unfold modeWrite; dsimp only; split <;> rfl

@[simp] theorem modeWrite_position (v : BitVec 16) (s : State) :
    (modeWrite v s).position = s.position := by
  unfold modeWrite; dsimp only; split <;> rfl

@[simp] theorem modeWrite_bus (v : BitVec 16) (s : State) :
    (modeWrite v s).bus = s.bus := by
  unfold modeWrite; dsimp only; split <;> rfl

@[simp] theorem modeWrite_reply (v : BitVec 16) (s : State) :
    (modeWrite v s).reply = s.reply := by
  unfold modeWrite; dsimp only; split <;> rfl

@[simp] theorem loadGeometry_x_srcAddr (g : Geom) (s : State) :
    (loadGeometry g s).x.srcAddr = s.x.srcAddr := rfl

@[simp] theorem loadGeometry_x_srcW (g : Geom) (s : State) :
    (loadGeometry g s).x.srcW = s.x.srcW := rfl

@[simp] theorem loadGeometry_x_srcH (g : Geom) (s : State) :
    (loadGeometry g s).x.srcH = s.x.srcH := rfl

@[simp] theorem loadGeometry_x_dstAddr (g : Geom) (s : State) :
    (loadGeometry g s).x.dstAddr = s.x.dstAddr := rfl

@[simp] theorem loadGeometry_x_dstW (g : Geom) (s : State) :
    (loadGeometry g s).x.dstW = s.x.dstW := rfl

@[simp] theorem loadGeometry_x_dstH (g : Geom) (s : State) :
    (loadGeometry g s).x.dstH = s.x.dstH := rfl

@[simp] theorem loadGeometry_x_xd (g : Geom) (s : State) :
    (loadGeometry g s).x.xd = s.x.xd := rfl

@[simp] theorem loadGeometry_x_yd (g : Geom) (s : State) :
    (loadGeometry g s).x.yd = s.x.yd := rfl

@[simp] theorem loadGeometry_x_xs (g : Geom) (s : State) :
    (loadGeometry g s).x.xs = s.x.xs := rfl

@[simp] theorem loadGeometry_x_ys (g : Geom) (s : State) :
    (loadGeometry g s).x.ys = s.x.ys := rfl

@[simp] theorem loadGeometry_x_w (g : Geom) (s : State) :
    (loadGeometry g s).x.w = s.x.w := rfl

@[simp] theorem loadGeometry_x_h (g : Geom) (s : State) :
    (loadGeometry g s).x.h = s.x.h := rfl

@[simp] theorem loadGeometry_x_ink (g : Geom) (s : State) :
    (loadGeometry g s).x.ink = s.x.ink := rfl

@[simp] theorem loadGeometry_x_paper (g : Geom) (s : State) :
    (loadGeometry g s).x.paper = s.x.paper := rfl

@[simp] theorem loadGeometry_x_glyphAddr (g : Geom) (s : State) :
    (loadGeometry g s).x.glyphAddr = s.x.glyphAddr := rfl

@[simp] theorem loadGeometry_x_glyphFirst (g : Geom) (s : State) :
    (loadGeometry g s).x.glyphFirst = s.x.glyphFirst := rfl

@[simp] theorem loadGeometry_x_glyphLast (g : Geom) (s : State) :
    (loadGeometry g s).x.glyphLast = s.x.glyphLast := rfl

@[simp] theorem loadGeometry_x_ctrl (g : Geom) (s : State) :
    (loadGeometry g s).x.ctrl = s.x.ctrl := rfl

@[simp] theorem loadGeometry_x_mode (g : Geom) (s : State) :
    (loadGeometry g s).x.mode = s.x.mode := rfl

@[simp] theorem loadGeometry_x_gBase (g : Geom) (s : State) :
    (loadGeometry g s).x.gBase = truncWord s.cfg g.base := rfl

@[simp] theorem loadGeometry_x_gStride (g : Geom) (s : State) :
    (loadGeometry g s).x.gStride = g.stride := rfl

@[simp] theorem loadGeometry_x_gIlv (g : Geom) (s : State) :
    (loadGeometry g s).x.gIlv = g.ilv := rfl

@[simp] theorem loadGeometry_x_gYmult (g : Geom) (s : State) :
    (loadGeometry g s).x.gYmult = g.ymult := rfl

@[simp] theorem loadGeometry_x_gYdiv (g : Geom) (s : State) :
    (loadGeometry g s).x.gYdiv = g.ydiv := rfl

@[simp] theorem loadGeometry_x_result (g : Geom) (s : State) :
    (loadGeometry g s).x.result = s.x.result := rfl

@[simp] theorem loadGeometry_x_status (g : Geom) (s : State) :
    (loadGeometry g s).x.status = s.x.status := rfl

@[simp] theorem loadGeometry_x_faultInfo (g : Geom) (s : State) :
    (loadGeometry g s).x.faultInfo = s.x.faultInfo := rfl

@[simp] theorem dropGeometry_x_srcAddr (s : State) :
    (dropGeometry s).x.srcAddr = s.x.srcAddr := rfl

@[simp] theorem dropGeometry_x_srcW (s : State) :
    (dropGeometry s).x.srcW = s.x.srcW := rfl

@[simp] theorem dropGeometry_x_srcH (s : State) :
    (dropGeometry s).x.srcH = s.x.srcH := rfl

@[simp] theorem dropGeometry_x_dstAddr (s : State) :
    (dropGeometry s).x.dstAddr = s.x.dstAddr := rfl

@[simp] theorem dropGeometry_x_dstW (s : State) :
    (dropGeometry s).x.dstW = s.x.dstW := rfl

@[simp] theorem dropGeometry_x_dstH (s : State) :
    (dropGeometry s).x.dstH = s.x.dstH := rfl

@[simp] theorem dropGeometry_x_xd (s : State) :
    (dropGeometry s).x.xd = s.x.xd := rfl

@[simp] theorem dropGeometry_x_yd (s : State) :
    (dropGeometry s).x.yd = s.x.yd := rfl

@[simp] theorem dropGeometry_x_xs (s : State) :
    (dropGeometry s).x.xs = s.x.xs := rfl

@[simp] theorem dropGeometry_x_ys (s : State) :
    (dropGeometry s).x.ys = s.x.ys := rfl

@[simp] theorem dropGeometry_x_w (s : State) :
    (dropGeometry s).x.w = s.x.w := rfl

@[simp] theorem dropGeometry_x_h (s : State) :
    (dropGeometry s).x.h = s.x.h := rfl

@[simp] theorem dropGeometry_x_ink (s : State) :
    (dropGeometry s).x.ink = s.x.ink := rfl

@[simp] theorem dropGeometry_x_paper (s : State) :
    (dropGeometry s).x.paper = s.x.paper := rfl

@[simp] theorem dropGeometry_x_glyphAddr (s : State) :
    (dropGeometry s).x.glyphAddr = s.x.glyphAddr := rfl

@[simp] theorem dropGeometry_x_glyphFirst (s : State) :
    (dropGeometry s).x.glyphFirst = s.x.glyphFirst := rfl

@[simp] theorem dropGeometry_x_glyphLast (s : State) :
    (dropGeometry s).x.glyphLast = s.x.glyphLast := rfl

@[simp] theorem dropGeometry_x_ctrl (s : State) :
    (dropGeometry s).x.ctrl = s.x.ctrl := rfl

@[simp] theorem dropGeometry_x_mode (s : State) :
    (dropGeometry s).x.mode = s.x.mode := rfl

@[simp] theorem dropGeometry_x_result (s : State) :
    (dropGeometry s).x.result = s.x.result := rfl

@[simp] theorem dropGeometry_x_status (s : State) :
    (dropGeometry s).x.status = s.x.status := rfl

@[simp] theorem dropGeometry_x_faultInfo (s : State) :
    (dropGeometry s).x.faultInfo = s.x.faultInfo := rfl

/-- A register reads back what was written, cut to its width (rule R22). -/
theorem readReg_setReg_self (c : Config) (x : Regs) (r : Reg) (v : Word) :
    (readReg (setReg c x r v) r).toNat = v.toNat % 2 ^ regWidth c r := by
  have hlt : v.toNat % 2 ^ c.addrBits < 4294967296 :=
    lt_of_le_of_lt (Nat.mod_le _ _) v.isLt
  have h32 : v.toNat % 4294967296 = v.toNat := Nat.mod_eq_of_lt v.isLt
  cases r <;> simp [readReg, setReg, regWidth, truncWord, Nat.mod_eq_of_lt hlt, h32] <;> omega

/-- No register aliases another (rule R22). -/
theorem readReg_setReg_ne (c : Config) (x : Regs) (r r' : Reg) (v : Word) (h : r' ≠ r) :
    readReg (setReg c x r v) r' = readReg x r' := by
  cases r <;> cases r' <;> first | rfl | exact absurd rfl h

/-- What the registers read as determines them. -/
theorem regs_ext (x y : Regs) (h : ∀ r, readReg x r = readReg y r) : x = y := by
  have widen : ∀ {n : Nat} (a b : BitVec n), n ≤ 32 → a.setWidth 32 = b.setWidth 32 → a = b := by
    intro n a b hn hab
    apply BitVec.eq_of_toNat_eq
    have := congrArg BitVec.toNat hab
    have h2 : (2 : Nat) ^ n ≤ 2 ^ 32 := Nat.pow_le_pow_right (by decide) hn
    have ha := a.isLt
    have hb := b.isLt
    rw [BitVec.toNat_setWidth, BitVec.toNat_setWidth, Nat.mod_eq_of_lt (by omega),
      Nat.mod_eq_of_lt (by omega)] at this
    exact this
  cases x; cases y
  simp only [Regs.mk.injEq]
  exact ⟨h .srcAddr, widen _ _ (by decide) (h .srcW), widen _ _ (by decide) (h .srcH), h .dstAddr,
    widen _ _ (by decide) (h .dstW), widen _ _ (by decide) (h .dstH), widen _ _ (by decide) (h .xd),
    widen _ _ (by decide) (h .yd), widen _ _ (by decide) (h .xs), widen _ _ (by decide) (h .ys),
    widen _ _ (by decide) (h .w), widen _ _ (by decide) (h .h), widen _ _ (by decide) (h .ink),
    widen _ _ (by decide) (h .paper), h .glyphAddr, widen _ _ (by decide) (h .glyphFirst),
    widen _ _ (by decide) (h .glyphLast), widen _ _ (by decide) (h .ctrl), widen _ _ (by decide) (h .mode),
    h .gBase, widen _ _ (by decide) (h .gStride), widen _ _ (by decide) (h .gIlv),
    widen _ _ (by decide) (h .gYmult), widen _ _ (by decide) (h .gYdiv), h .result,
    widen _ _ (by decide) (h .status), h .faultInfo⟩

theorem mem_markWritten (r r' : Reg) (marks : List Reg) :
    r' ∈ markWritten r marks ↔ r' = r ∨ r' ∈ marks := by
  unfold markWritten
  split
  · constructor
    · exact Or.inr
    · rintro (rfl | h') <;> assumption
  · simp [or_comm]

theorem mem_markUnwritten (r r' : Reg) (marks : List Reg) :
    r' ∈ markUnwritten r marks ↔ r' ∈ marks ∧ r' ≠ r := by
  simp [markUnwritten]

theorem nodup_markWritten (r : Reg) (marks : List Reg) (h : marks.Nodup) : (markWritten r marks).Nodup := by
  unfold markWritten
  split
  · exact h
  · rename_i hr
    simp only [List.nodup_append, h, List.nodup_cons, List.not_mem_nil, not_false_eq_true,
      List.nodup_nil, and_self, true_and, List.mem_cons, or_false]
    rintro a ha b rfl rfl
    exact hr ha

theorem nodup_markUnwritten (r : Reg) (marks : List Reg) (h : marks.Nodup) :
    (markUnwritten r marks).Nodup := h.filter _

end Sys2Proof.Machine
end

