-- ==== Sys2Proof/Laws/Flow.lean ====
section
/-! SUPPORT. What a byte access, a free value and a counted loop can do, each said once; every proof about a
command cites these. -/

namespace Sys2Proof.Machine

/-- The state a part of a command leaves, whether it goes on or has ended at an error. -/
def Flow.state {α : Type} : Flow α → State
  | .go _ s => s
  | .stop s => s

@[simp] theorem Flow.state_go {α : Type} (v : α) (s : State) : (Flow.go v s).state = s := rfl
@[simp] theorem Flow.state_stop {α : Type} (s : State) : (Flow.stop s : Flow α).state = s := rfl

@[simp] theorem Flow.bind_go {α β : Type} (v : α) (s : State) (f : α → State → Flow β) :
    (Flow.go v s).bind f = f v s := rfl
@[simp] theorem Flow.bind_stop {α β : Type} (s : State) (f : α → State → Flow β) :
    (Flow.stop s : Flow α).bind f = .stop s := rfl

@[simp] theorem Flow.outcome_eq (p : Flow Unit) : p.outcome = .next p.state := by cases p <;> rfl

/-- What holds before and is kept by both halves holds after. -/
theorem Flow.state_bind {α β : Type} (P : State → Prop) (p : Flow α) (f : α → State → Flow β)
    (hp : P p.state) (hf : ∀ v s, P s → P (f v s).state) : P (p.bind f).state := by
  cases p with
  | go v s => exact hf v s hp
  | stop s => exact hp

/-- What the body of a loop keeps, the loop keeps, however it ends. -/
theorem forUpTo_keeps (P : State → Prop) (n : Nat) (body : Nat → State → Flow Unit) (s : State)
    (hs : P s) (hbody : ∀ j s, j < n → P s → P (body j s).state) : P (forUpTo n body s).state := by
  induction n with
  | zero => exact hs
  | succ n ih =>
    exact Flow.state_bind P _ _ (ih fun j s hj => hbody j s (by omega)) fun _ s hs =>
      hbody n s (by omega) hs

/-- A loop whose body always goes on goes on; `Q j` is what holds after `j` turns. -/
theorem forUpTo_go (Q : Nat → State → Prop) (n : Nat) (body : Nat → State → Flow Unit) (s : State)
    (h0 : Q 0 s) (hstep : ∀ j s, j < n → Q j s → ∃ s', body j s = .go () s' ∧ Q (j + 1) s') :
    ∃ s', forUpTo n body s = .go () s' ∧ Q n s' := by
  induction n with
  | zero => exact ⟨s, rfl, h0⟩
  | succ n ih =>
    obtain ⟨s1, h1, hq⟩ := ih fun j s hj => hstep j s (by omega)
    obtain ⟨s2, h2, hq2⟩ := hstep n s1 (by omega) hq
    exact ⟨s2, by rw [forUpTo, h1, Flow.bind_go, h2], hq2⟩

/-- A loop ended at an error stays ended. -/
theorem forUpTo_stop (n m : Nat) (body : Nat → State → Flow Unit) (s s' : State)
    (h : forUpTo n body s = .stop s') (hm : n ≤ m) : forUpTo m body s = .stop s' := by
  induction m with
  | zero => rw [Nat.le_zero.mp hm] at h; exact h
  | succ m ih =>
    rcases Nat.lt_or_ge n (m + 1) with hlt | hge
    · rw [forUpTo, ih (by omega), Flow.bind_stop]
    · have : n = m + 1 := by omega
      rw [← this]; exact h

theorem truncA_lt (c : Config) (a : Int) : truncA c a < 2 ^ c.addrBits := by
  have hpos : (0 : Int) < ((2 ^ c.addrBits : Nat) : Int) := by
    exact_mod_cast Nat.two_pow_pos c.addrBits
  have h1 := Int.emod_nonneg a (ne_of_gt hpos)
  have h2 := Int.emod_lt_of_pos a hpos
  unfold truncA
  omega

/-- On a natural number `trunc_A` is the remainder. -/
theorem truncA_natCast (c : Config) (a : Nat) : truncA c (a : Int) = a % 2 ^ c.addrBits := by
  unfold truncA
  rw [← Int.natCast_emod, Int.toNat_natCast]

/-- A read of a populated address. -/
theorem memRead_valid {a : Int} {s : State} (h : memValid s.cfg (truncA s.cfg a) = true) :
    memRead a s = .go (memByte s.mem (truncA s.cfg a))
      { s with bus := s.bus ++ [.read (truncA s.cfg a) (memByte s.mem (truncA s.cfg a))] } := by
  simp [memRead, h]

/-- A read of an address the platform refuses (rule R79). -/
theorem memRead_refused {a : Int} {s : State} (h : memValid s.cfg (truncA s.cfg a) = false) :
    memRead a s = .stop (raiseError .busError (BitVec.ofNat 32 (truncA s.cfg a)) s) := by
  simp [memRead, h]

/-- A write of a populated address. -/
theorem memWrite_valid {a : Int} {v : Byte} {s : State}
    (h : memValid s.cfg (truncA s.cfg a) = true) :
    memWrite a v s = .go () { s with
      mem := memSet s.mem (truncA s.cfg a) v, bus := s.bus ++ [.write (truncA s.cfg a) v] } := by
  simp [memWrite, h]

/-- A write of an address the platform refuses (rule R79). -/
theorem memWrite_refused {a : Int} {v : Byte} {s : State}
    (h : memValid s.cfg (truncA s.cfg a) = false) :
    memWrite a v s = .stop (raiseError .busError (BitVec.ofNat 32 (truncA s.cfg a)) s) := by
  simp [memWrite, h]

/-- Everything a read can leave. -/
theorem memRead_state (P : State → Prop) (a : Int) (s : State)
    (hbus : ∀ acc, P { s with bus := s.bus ++ [acc] })
    (herr : ∀ info, P (raiseError .busError info s)) : P (memRead a s).state := by
  unfold memRead; dsimp only; split
  · exact hbus _
  · exact herr _

/-- Everything a write can leave. -/
theorem memWrite_state (P : State → Prop) (a : Int) (v : Byte) (s : State)
    (hset : ∀ p acc, p < 2 ^ s.cfg.addrBits →
      P { s with mem := memSet s.mem p v, bus := s.bus ++ [acc] })
    (herr : ∀ info, P (raiseError .busError info s)) : P (memWrite a v s).state := by
  unfold memWrite; dsimp only; split
  · exact hset _ _ (truncA_lt _ _)
  · exact herr _

/-- A colour byte comes with at most one free value taken. -/
theorem colourByte_state (P : State → Prop) (inRange : Bool) (b : Byte) (s : State) (hs : P s)
    (hfree : P { s with freeCount := s.freeCount + 1 }) : P (colourByte inRange b s).state := by
  unfold colourByte; split
  · exact hs
  · exact hfree

/-- Everything the common step of R96 for kind `k` can answer. -/
theorem onKind_cases (k : Kind) (c : Word) (s : State) (run : Flow Unit) :
    (kindReady k s.x = true ∧ onKind k c s run = .next run.state) ∨
    (k = .surf ∧ s.x.mode = 0 ∧ onKind k c s run = .next (raiseError .noSurface c s)) ∨
    (k = .surf ∧ s.x.mode ≠ 0 ∧ surfaceScaled s.x = false ∧
      onKind k c s run = .fault .surfaceScaleUndefined) := by
  cases k with
  | buf => left; simp [kindReady, onKind]
  | surf =>
    by_cases hm : s.x.mode = 0
    · right; left; simp [onKind, hm]
    · have hm' : ¬ s.x.mode = 0#2 := hm
      cases hs : surfaceScaled s.x with
      | true => left; simp [kindReady, onKind, hm', hs]
      | false => right; right; simp [onKind, hm', hs]

/-- A command whose kind is ready runs. -/
theorem onKind_ready {k : Kind} {c : Word} {s : State} {run : Flow Unit} (h : kindReady k s.x = true) :
    onKind k c s run = .next run.state := by
  cases k with
  | buf => simp [onKind]
  | surf =>
    simp only [kindReady, Bool.and_eq_true, bne_iff_ne, ne_eq] at h
    simp [onKind, h.2, show ¬ s.x.mode = 0#2 from h.1]

/-- On the surface in text mode NoSurface is raised, whatever the command would do. -/
theorem onKind_text {c : Word} {s : State} {run : Flow Unit} (h : s.x.mode = 0) :
    onKind .surf c s run = .next (raiseError .noSurface c s) := by
  simp [onKind, show s.x.mode = 0#2 from h]

end Sys2Proof.Machine
end

