-- ==== Sys2Proof/Laws/Loops.lean ====
section
/-! SUPPORT. The bodies of the region and glyph commands and the loops over them: what each does when its
addresses are populated, and what each keeps however it ends. -/

namespace Sys2Proof.Machine

/-- What every byte access, free value and bus error keeps; every command's body keeps it then. -/
structure ByteClosed (P : State → Prop) : Prop where
  bus  : ∀ s acc, P s → P { s with bus := s.bus ++ [acc] }
  set  : ∀ s p v acc, p < 2 ^ s.cfg.addrBits → P s →
    P { s with mem := memSet s.mem p v, bus := s.bus ++ [acc] }
  free : ∀ s, P s → P { s with freeCount := s.freeCount + 1 }
  err  : ∀ s info, P s → P (raiseError .busError info s)

namespace ByteClosed

variable {P : State → Prop} (hP : ByteClosed P)
include hP

theorem read (a : Int) (s : State) (h : P s) : P (memRead a s).state :=
  memRead_state P a s (fun _ => hP.bus s _ h) (fun _ => hP.err s _ h)

theorem write (a : Int) (v : Byte) (s : State) (h : P s) : P (memWrite a v s).state :=
  memWrite_state P a v s (fun _ _ hp => hP.set s _ _ _ hp h) (fun _ => hP.err s _ h)

theorem colour (b : Bool) (v : Byte) (s : State) (h : P s) : P (colourByte b v s).state :=
  colourByte_state P b v s h (hP.free s h)

theorem putpix (m : DrawMode) (k : Kind) (v : Pixel) (s : State) (h : P s) :
    P (putpix m k v s).state :=
  Flow.state_bind P _ _ (hP.read _ _ h) fun _ s' hs => hP.write _ _ s' hs

theorem putByte (m : DrawMode) (sa da : Int) (s : State) (h : P s) : P (putByte m sa da s).state := by
  refine Flow.state_bind P _ _ (hP.read _ _ h) fun b s1 h1 => ?_
  split
  · exact Flow.state_bind P _ _ (hP.read _ _ h1) fun _ s2 h2 => hP.write _ _ s2 h2
  · exact hP.write _ _ s1 h1

theorem copyByte (sa da : Int) (s : State) (h : P s) : P (copyByte sa da s).state :=
  Flow.state_bind P _ _ (hP.read _ _ h) fun _ s' hs => hP.write _ _ s' hs

theorem recolorByte (ink paper : Pixel) (a : Int) (s : State) (h : P s) :
    P (recolorByte ink paper a s).state :=
  Flow.state_bind P _ _ (hP.read _ _ h) fun _ s1 h1 =>
    Flow.state_bind P _ _ (hP.colour _ _ s1 h1) fun _ s2 h2 => hP.write _ _ s2 h2

theorem putRegion (m : DrawMode) (full : Bool) (k : Kind) (s : State) (h : P s) :
    P (putRegion m full k s).state :=
  forUpTo_keeps P _ _ s h fun _ s1 _ h1 =>
    forUpTo_keeps P _ _ s1 h1 fun _ s2 _ h2 => hP.putByte m _ _ s2 h2

theorem getRegion (k : Kind) (s : State) (h : P s) : P (getRegion k s).state :=
  forUpTo_keeps P _ _ _ h fun _ s1 _ h1 =>
    forUpTo_keeps P _ _ s1 h1 fun _ s2 _ h2 => hP.copyByte _ _ s2 h2

theorem fillRegion (k : Kind) (s : State) (h : P s) : P (fillRegion k s).state :=
  forUpTo_keeps P _ _ _ h fun _ s1 _ h1 =>
    forUpTo_keeps P _ _ s1 h1 fun _ s2 _ h2 =>
      Flow.state_bind P _ _ (hP.colour _ _ s2 h2) fun _ s3 h3 => hP.write _ _ s3 h3

theorem printGlyph (k : Kind) (ch : Byte) (s : State) (h : P s) : P (printGlyph k ch s).state :=
  forUpTo_keeps P _ _ _ h fun _ _ _ h1 =>
    Flow.state_bind P _ _ (hP.read _ _ h1) fun _ s2 h2 =>
      Flow.state_bind P _ _ (hP.colour _ _ s2 h2) fun _ s3 h3 => hP.write _ _ s3 h3

end ByteClosed

/-- The two nested loops of a region command, when every body goes on; `Q r i` is what holds before byte `i`
of row `r`. -/
theorem forGrid_go (Q : Nat → Nat → State → Prop) (rows cols : Nat)
    (body : Nat → Nat → State → Flow Unit) (s : State) (h0 : Q 0 0 s)
    (hstep : ∀ r i s, r < rows → i < cols → Q r i s → ∃ s', body r i s = .go () s' ∧ Q r (i + 1) s')
    (hrow : ∀ r s, r < rows → Q r cols s → Q (r + 1) 0 s) :
    ∃ s', forUpTo rows (fun r => forUpTo cols (body r)) s = .go () s' ∧ Q rows 0 s' :=
  forUpTo_go (fun r => Q r 0) rows _ s h0 fun r s hr hq =>
    let ⟨s', h1, h2⟩ := forUpTo_go (Q r) cols (body r) s hq fun i s hi hq => hstep r i s hr hi hq
    ⟨s', h1, hrow r s' hr h2⟩

/-- PUT's body on populated addresses. -/
theorem putByte_valid (m : DrawMode) (sa da : Int) (s : State)
    (hs : memValid s.cfg (truncA s.cfg sa) = true) (hd : memValid s.cfg (truncA s.cfg da) = true) :
    ∃ bus, putByte m sa da s = .go () { s with
        mem := memSet s.mem (truncA s.cfg da)
          (compose m (memByte s.mem (truncA s.cfg da)) (memByte s.mem (truncA s.cfg sa)))
        bus := s.bus ++ bus } ∧
      bus.map busOp = if readsDestination m
        then [.r (truncA s.cfg sa), .r (truncA s.cfg da), .w (truncA s.cfg da)]
        else [.r (truncA s.cfg sa), .w (truncA s.cfg da)] := by
  cases m <;>
    simp [putByte, memRead, memWrite, hs, hd, readsDestination, compose, busOp, List.append_assoc]

/-- The copying body on populated addresses. -/
theorem copyByte_valid (sa da : Int) (s : State)
    (hs : memValid s.cfg (truncA s.cfg sa) = true) (hd : memValid s.cfg (truncA s.cfg da) = true) :
    ∃ bus, copyByte sa da s = .go () { s with
        mem := memSet s.mem (truncA s.cfg da) (memByte s.mem (truncA s.cfg sa))
        bus := s.bus ++ bus } ∧
      bus.map busOp = [.r (truncA s.cfg sa), .w (truncA s.cfg da)] := by
  simp [copyByte, memRead, memWrite, hs, hd, busOp, List.append_assoc]

/-- A colour byte followed by its write, on a populated address. -/
theorem colourWrite_valid (inRange : Bool) (b : Byte) (a : Int) (s : State)
    (ha : memValid s.cfg (truncA s.cfg a) = true) :
    ∃ p n, ((colourByte inRange b s).bind fun p s' => memWrite a p s') = .go () { s with
        mem := memSet s.mem (truncA s.cfg a) p, freeCount := n
        bus := s.bus ++ [.write (truncA s.cfg a) p] } ∧
      (inRange = true → p = b ∧ n = s.freeCount) := by
  cases inRange <;> simp [colourByte, takeFreeByte, memWrite, ha]

end Sys2Proof.Machine
end

