-- ==== Sys2Proof/Laws/Bytes.lean ====
section
/-! SUPPORT. Loops whose every turn rewrites one byte: what the whole loop leaves, said once for PUT, GET,
FILL, PRINT, RECOLOR, GLYPHGET and GLYPHPUT.  Two nested loops are one loop over `rows * cols` turns. -/

namespace Sys2Proof.Machine

theorem forUpTo_add (a b : Nat) (body : Nat → State → Flow Unit) (s : State) :
    forUpTo (a + b) body s =
      (forUpTo a body s).bind fun _ s' => forUpTo b (fun j => body (a + j)) s' := by
  induction b with
  | zero => cases forUpTo a body s <;> simp [forUpTo]
  | succ b ih =>
    rw [← Nat.add_assoc, forUpTo, ih]
    cases forUpTo a body s <;> simp [forUpTo]

theorem forUpTo_congr {n : Nat} {body body' : Nat → State → Flow Unit} {s : State}
    (h : ∀ j < n, ∀ t, body j t = body' j t) : forUpTo n body s = forUpTo n body' s := by
  induction n with
  | zero => rfl
  | succ n ih =>
    rw [forUpTo, forUpTo, ih fun j hj => h j (by omega)]
    cases forUpTo n body' s with
    | go _ t => exact h n (by omega) t
    | stop t => rfl

/-- Rows of `cols` turns are one loop. -/
theorem forGrid_eq (rows cols : Nat) (body : Nat → Nat → State → Flow Unit) (s : State) :
    forUpTo rows (fun r => forUpTo cols (body r)) s =
      forUpTo (rows * cols) (fun n => body (n / cols) (n % cols)) s := by
  induction rows with
  | zero => simp [forUpTo]
  | succ rows ih =>
    rw [Nat.succ_mul, forUpTo_add (rows * cols) cols, ← ih]
    show Flow.bind _ _ = Flow.bind _ _
    congr 1
    funext _ t
    refine forUpTo_congr fun j hj t => ?_
    have hc : 0 < cols := by omega
    rw [Nat.mul_comm rows cols, Nat.mul_add_div hc, Nat.mul_add_mod, Nat.div_eq_of_lt hj,
      Nat.mod_eq_of_lt hj, Nat.add_zero]

/-- The accesses of the grid are those of the one loop. -/
theorem gridOps_eq (rows cols : Nat) (op : Nat → Nat → List BusOp) :
    gridOps rows cols op =
      (List.range (rows * cols)).flatMap fun n => op (n / cols) (n % cols) := by
  unfold gridOps
  induction rows with
  | zero => simp
  | succ rows ih =>
    rw [List.range_succ, List.flatMap_append, ih, Nat.succ_mul, List.range_add, List.flatMap_append]
    congr 1
    simp only [List.flatMap_cons, List.flatMap_nil, List.append_nil]
    rw [List.flatMap_map]
    simp only [List.flatMap]
    congr 1
    refine List.map_congr_left fun j hj => ?_
    have hj' : j < cols := List.mem_range.mp hj
    have hc : 0 < cols := by omega
    rw [Nat.mul_comm rows cols, Nat.mul_add_div hc, Nat.mul_add_mod, Nat.div_eq_of_lt hj',
      Nat.mod_eq_of_lt hj', Nat.add_zero]

/-- A turn number of the one loop, and the row and byte it stands for. -/
theorem grid_index {rows cols r i : Nat} (hr : r < rows) (hi : i < cols) :
    r * cols + i < rows * cols ∧ (r * cols + i) / cols = r ∧ (r * cols + i) % cols = i := by
  have hc : 0 < cols := by omega
  have h1 : (r + 1) * cols ≤ rows * cols := Nat.mul_le_mul_right _ hr
  have h2 : (r + 1) * cols = r * cols + cols := by rw [Nat.succ_mul]
  refine ⟨by omega, ?_, ?_⟩
  · rw [Nat.mul_comm, Nat.mul_add_div hc, Nat.div_eq_of_lt hi, Nat.add_zero]
  · rw [Nat.mul_comm, Nat.mul_add_mod, Nat.mod_eq_of_lt hi]

theorem grid_index_inv {rows cols n : Nat} (h : n < rows * cols) :
    n / cols < rows ∧ n % cols < cols := by
  have hc : 0 < cols := by
    rcases Nat.eq_zero_or_pos cols with h0 | h0
    · rw [h0, Nat.mul_zero] at h; omega
    · exact h0
  exact ⟨Nat.div_lt_of_lt_mul (by rwa [Nat.mul_comm] at h), Nat.mod_lt _ hc⟩

/-- The two states differ in memory, the accesses made and the free values taken at most. -/
def SameBut (s t : State) : Prop := t = { s with mem := t.mem, bus := t.bus, freeCount := t.freeCount }

theorem SameBut.x {s t : State} (h : SameBut s t) : t.x = s.x := by rw [h]
theorem SameBut.cfg {s t : State} (h : SameBut s t) : t.cfg = s.cfg := by rw [h]
theorem SameBut.refl (s : State) : SameBut s s := rfl

theorem SameBut.update {s t : State} (h : SameBut s t) (m : List Host.Cell) (b : List Access)
    (n : Nat) : SameBut s { t with mem := m, bus := b, freeCount := n } := by
  rw [h]; rfl

/-- What a loop leaves whose turn `j` rewrites the byte at `T j` with a byte that `R j` allows for the
contents it finds. `F` is when no turn takes a free value. -/
theorem forUpTo_bytes (s : State) (n : Nat) (body : Nat → State → Flow Unit) (T : Nat → Nat)
    (ops : Nat → List BusOp) (R : Nat → List Host.Cell → Byte → Prop) (F : Prop)
    (hbody : ∀ j < n, ∀ t, SameBut s t → ∃ t' v, body j t = .go () t' ∧ SameBut s t' ∧
      busOps t' = busOps t ++ ops j ∧ t'.mem = memSet t.mem (T j) v ∧ R j t.mem v ∧
      (F → t'.freeCount = t.freeCount)) :
    ∃ t', forUpTo n body s = .go () t' ∧ SameBut s t' ∧
      busOps t' = busOps s ++ (List.range n).flatMap ops ∧ (F → t'.freeCount = s.freeCount) ∧
      (∀ a, (∀ j < n, T j ≠ a) → memByte t'.mem a = memByte s.mem a) ∧
      (memWf s.mem = true → memWf t'.mem = true ∧
        ∀ j < n, (∀ j' < n, j < j' → T j' ≠ T j) →
          ∃ m, memWf m = true ∧ (∀ a, (∀ j' < j, T j' ≠ a) → memByte m a = memByte s.mem a) ∧
            R j m (memByte t'.mem (T j))) := by
  induction n with
  | zero => exact ⟨s, rfl, SameBut.refl s, by simp, fun _ => rfl, fun _ _ => rfl,
      fun h => ⟨h, fun j hj => absurd hj (by omega)⟩⟩
  | succ n ih =>
    obtain ⟨t1, h1, hs1, hb1, hf1, hfr1, hv1⟩ := ih fun j hj => hbody j (by omega)
    obtain ⟨t2, v, h2, hs2, hb2, hm2, hR, hf2⟩ := hbody n (by omega) t1 hs1
    refine ⟨t2, by rw [forUpTo, h1, Flow.bind_go, h2], hs2, ?_, fun f => (hf2 f).trans (hf1 f), ?_, ?_⟩
    · rw [hb2, hb1, List.range_succ, List.flatMap_append, List.append_assoc]; simp
    · intro a ha
      rw [hm2, memByte_memSet_ne _ _ _ _ (fun e => ha n (by omega) e.symm),
        hfr1 a fun j hj => ha j (by omega)]
    · intro hw
      obtain ⟨hw1, hv⟩ := hv1 hw
      refine ⟨by rw [hm2]; exact memWf_memSet hw1 _ _, fun j hj hd => ?_⟩
      rcases Nat.lt_or_ge j n with hjn | hjn
      · obtain ⟨m, hmw, hma, hmR⟩ := hv j hjn fun j' hj' => hd j' (by omega)
        refine ⟨m, hmw, hma, ?_⟩
        rw [hm2, memByte_memSet_ne _ _ _ _ (fun e => hd n (by omega) hjn e.symm)]
        exact hmR
      · have : j = n := by omega
        subst this
        refine ⟨t1.mem, hw1, hfr1, ?_⟩
        rw [hm2, memByte_memSet_self hw1]
        exact hR

/-- `forUpTo_bytes` for the two nested loops of a region command. -/
theorem forGrid_bytes (s : State) (rows cols : Nat) (body : Nat → Nat → State → Flow Unit)
    (T : Nat → Nat → Nat) (ops : Nat → Nat → List BusOp)
    (R : Nat → Nat → List Host.Cell → Byte → Prop) (F : Prop)
    (hbody : ∀ r < rows, ∀ i < cols, ∀ t, SameBut s t → ∃ t' v, body r i t = .go () t' ∧
      SameBut s t' ∧ busOps t' = busOps t ++ ops r i ∧ t'.mem = memSet t.mem (T r i) v ∧
      R r i t.mem v ∧ (F → t'.freeCount = t.freeCount)) :
    ∃ t', forUpTo rows (fun r => forUpTo cols (body r)) s = .go () t' ∧ SameBut s t' ∧
      busOps t' = busOps s ++ gridOps rows cols ops ∧ (F → t'.freeCount = s.freeCount) ∧
      (∀ a, (∀ r < rows, ∀ i < cols, T r i ≠ a) → memByte t'.mem a = memByte s.mem a) ∧
      (memWf s.mem = true → memWf t'.mem = true ∧
        ∀ r < rows, ∀ i < cols,
          (∀ r' < rows, ∀ i' < cols, (r < r' ∨ r = r' ∧ i < i') → T r' i' ≠ T r i) →
          ∃ m, memWf m = true ∧
            (∀ a, (∀ r' < rows, ∀ i' < cols, (r' < r ∨ r' = r ∧ i' < i) → T r' i' ≠ a) →
              memByte m a = memByte s.mem a) ∧
            R r i m (memByte t'.mem (T r i))) := by
  rw [forGrid_eq, gridOps_eq]
  obtain ⟨t', h1, h2, h3, h4, h5, h6⟩ :=
    forUpTo_bytes s (rows * cols) (fun n => body (n / cols) (n % cols))
      (fun n => T (n / cols) (n % cols)) (fun n => ops (n / cols) (n % cols))
      (fun n => R (n / cols) (n % cols)) F
      (fun n hn => hbody _ (grid_index_inv hn).1 _ (grid_index_inv hn).2)
  have order : ∀ {a b : Nat}, a < b → a < rows * cols →
      (a / cols < b / cols ∨ a / cols = b / cols ∧ a % cols < b % cols) := by
    intro a b hab ha
    have e1 := Nat.div_add_mod a cols
    have e2 := Nat.div_add_mod b cols
    have := Nat.div_le_div_right (c := cols) (le_of_lt hab)
    rcases Nat.lt_or_ge (a / cols) (b / cols) with h | h
    · exact Or.inl h
    · right
      have e : a / cols = b / cols := by omega
      rw [e] at e1
      omega
  refine ⟨t', h1, h2, h3, h4, ?_, ?_⟩
  · intro a ha
    exact h5 a fun n hn => ha _ (grid_index_inv hn).1 _ (grid_index_inv hn).2
  · intro hw
    obtain ⟨hw', hv⟩ := h6 hw
    refine ⟨hw', fun r hr i hi hd => ?_⟩
    obtain ⟨g1, g2, g3⟩ := grid_index hr hi
    obtain ⟨m, hm1, hm2, hm3⟩ := hv (r * cols + i) g1 (by
      intro n hn hlt
      simp only [g2, g3]
      have := order hlt g1
      rw [g2, g3] at this
      exact hd _ (grid_index_inv hn).1 _ (grid_index_inv hn).2 this)
    simp only [g2, g3] at hm3
    refine ⟨m, hm1, fun a ha => hm2 a fun n hn => ?_, hm3⟩
    have hn' : n < rows * cols := by omega
    have := order hn hn'
    rw [g2, g3] at this
    exact ha _ (grid_index_inv hn').1 _ (grid_index_inv hn').2 this

/-- One turn of PUT between states that differ from `s` in memory, accesses and free values. -/
theorem putByte_turn (m : DrawMode) (sa da : Int) {s t : State} (ht : SameBut s t)
    (hs : memValid s.cfg (truncA s.cfg sa) = true) (hd : memValid s.cfg (truncA s.cfg da) = true) :
    ∃ t' v, putByte m sa da t = .go () t' ∧ SameBut s t' ∧
      busOps t' = busOps t ++ (if readsDestination m
        then [.r (truncA s.cfg sa), .r (truncA s.cfg da), .w (truncA s.cfg da)]
        else [.r (truncA s.cfg sa), .w (truncA s.cfg da)]) ∧
      t'.mem = memSet t.mem (truncA s.cfg da) v ∧
      v = compose m (memByte t.mem (truncA s.cfg da)) (memByte t.mem (truncA s.cfg sa)) ∧
      (True → t'.freeCount = t.freeCount) := by
  obtain ⟨bus, hb, ho⟩ := putByte_valid m sa da t (by rw [ht.cfg]; exact hs) (by rw [ht.cfg]; exact hd)
  refine ⟨_, _, hb, ht.update _ _ _, ?_, by rw [ht.cfg], rfl, fun _ => rfl⟩
  simp only [busOps, List.map_append, ho, ht.cfg]

/-- One turn of GET, GLYPHGET or GLYPHPUT. -/
theorem copyByte_turn (sa da : Int) {s t : State} (ht : SameBut s t)
    (hs : memValid s.cfg (truncA s.cfg sa) = true) (hd : memValid s.cfg (truncA s.cfg da) = true) :
    ∃ t' v, copyByte sa da t = .go () t' ∧ SameBut s t' ∧
      busOps t' = busOps t ++ [.r (truncA s.cfg sa), .w (truncA s.cfg da)] ∧
      t'.mem = memSet t.mem (truncA s.cfg da) v ∧ v = memByte t.mem (truncA s.cfg sa) ∧
      (True → t'.freeCount = t.freeCount) := by
  obtain ⟨bus, hb, ho⟩ := copyByte_valid sa da t (by rw [ht.cfg]; exact hs) (by rw [ht.cfg]; exact hd)
  refine ⟨_, _, hb, ht.update _ _ _, ?_, by rw [ht.cfg], rfl, fun _ => rfl⟩
  simp only [busOps, List.map_append, ho, ht.cfg]

/-- One turn that writes a colour byte: FILL's, and the second half of PRINT's and RECOLOR's. -/
theorem colourWrite_turn (inRange : Bool) (b : Byte) (a : Int) {s t : State} (ht : SameBut s t)
    (ha : memValid s.cfg (truncA s.cfg a) = true) :
    ∃ t' v, ((colourByte inRange b t).bind fun p t1 => memWrite a p t1) = .go () t' ∧ SameBut s t' ∧
      busOps t' = busOps t ++ [.w (truncA s.cfg a)] ∧ t'.mem = memSet t.mem (truncA s.cfg a) v ∧
      (inRange = true → v = b) ∧ (inRange = true → t'.freeCount = t.freeCount) := by
  obtain ⟨p, n, h, hh⟩ := colourWrite_valid inRange b a t (by rw [ht.cfg]; exact ha)
  refine ⟨_, _, h, ht.update _ _ _, ?_, by rw [ht.cfg], fun e => (hh e).1, fun e => (hh e).2⟩
  simp only [busOps, List.map_append, ht.cfg]; rfl

/-- A read between states that differ from `s` in memory, accesses and free values. -/
theorem memRead_turn (a : Int) {s t : State} (ht : SameBut s t)
    (ha : memValid s.cfg (truncA s.cfg a) = true) :
    ∃ t', memRead a t = .go (memByte t.mem (truncA s.cfg a)) t' ∧ SameBut s t' ∧
      busOps t' = busOps t ++ [.r (truncA s.cfg a)] ∧ t'.mem = t.mem ∧ t'.freeCount = t.freeCount := by
  have h := memRead_valid (a := a) (s := t) (by rw [ht.cfg]; exact ha)
  refine ⟨{ t with bus := t.bus ++ [.read (truncA t.cfg a) (memByte t.mem (truncA t.cfg a))] },
    h.trans (by rw [ht.cfg]), ht.update t.mem _ t.freeCount, ?_, rfl, rfl⟩
  simp only [busOps, List.map_append, ht.cfg]; rfl

end Sys2Proof.Machine
end

