-- ==== Sys2Proof/Laws/Exec.lean ====
section
/-! SUPPORT. Everything a command can do to the state, said once: what is kept by byte accesses, by error
entries and by the one register write of the command's own rule is kept by the command. -/

namespace Sys2Proof.Machine

/-- A command on a kind runs its body, raises NoSurface, or answers no next state. -/
theorem onKind_keeps (P : State → Prop) (herr : ∀ e info s, P s → P (raiseError e info s)) (k : Kind)
    (c : Word) (s t : State) (run : Flow Unit) (hs : P s) (hrun : P run.state)
    (h : onKind k c s run = .next t) : P t := by
  rcases onKind_cases k c s run with ⟨_, e⟩ | ⟨_, _, e⟩ | ⟨_, _, _, e⟩ <;> rw [e] at h <;> cases h
  · exact hrun
  · exact herr _ _ _ hs

/-- The commands that write RESULT (rule R30). -/
def WritesResult (i : Instr) : Prop :=
  (∃ k, i = .getpix k) ∨ (∃ d b m, i = composeRow d b m) ∨ i = .mapaddr

theorem exec_keeps (P : State → Prop) (hP : ByteClosed P)
    (herr : ∀ e info s, P s → P (raiseError e info s)) (i : Instr) (s t : State)
    (hres : WritesResult i → ∀ v s, P s → P (writeReg .result v s))
    (hxd : (∃ k ch, i = .print k ch) → ∀ v s, P s → P (writeReg .xd v s))
    (hsetl : ∀ r imm reg, i = .setl r imm → regOfIndex r = some reg → reg.unitOnly = false →
      reg ≠ .mode → P (writeReg reg (imm.setWidth 32) s))
    (hmode : ∀ imm, i = .setl 18 imm → P (modeWrite imm s))
    (hseth : ∀ r imm reg, i = .seth r imm → regOfIndex r = some reg → reg.isAddress = true →
      P { s with x := setReg s.cfg s.x reg (imm ++ (readReg s.x reg).extractLsb' 0 16) })
    (hs : P s) (h : exec i s = .next t) : P t := by
  have kind : ∀ {k : Kind} {c : Word} {run : Flow Unit}, onKind k c s run = .next t → P run.state → P t :=
    fun h hr => onKind_keeps P herr _ _ s t _ hs hr h
  have loop : ∀ {p : Flow Unit}, p.outcome = .next t → P p.state → P t := by
    intro p h hr
    rw [Flow.outcome_eq] at h
    cases h
    exact hr
  have comp : ∀ {d b : Byte} {m : DrawMode}, i = composeRow d b m →
      Host.Outcome.next (φ := Fault) (ρ := Refusal) (composeResult m d b s) = .next t → P t := by
    intro d b m hi h
    cases h
    exact hres (Or.inr (Or.inl ⟨d, b, m, hi⟩)) _ _ hs
  cases i with
  | nop => cases h; exact hs
  | setl r imm =>
    have h' : execSetl r imm s = .next t := h
    unfold execSetl at h'
    split at h'
    · rename_i reg hreg
      split at h'
      · cases h'; exact herr _ _ _ hs
      · rename_i hu
        split at h'
        · rename_i hm
          cases h'
          have h18 : ∀ r : BitVec 5, regOfIndex r = some .mode → r = 18 := by decide
          exact hmode imm (by rw [h18 r (by rw [hreg, hm])])
        · rename_i hm
          cases h'
          exact hsetl r imm reg rfl hreg (by simpa using hu) hm
    · cases h'; exact herr _ _ _ hs
  | seth r imm =>
    have h' : execSeth r imm s = .next t := h
    unfold execSeth at h'
    split at h'
    · rename_i reg hreg
      split at h'
      · rename_i ha; cases h'; exact hseth r imm reg rfl hreg ha
      · cases h'; exact herr _ _ _ hs
    · cases h'; exact herr _ _ _ hs
  | getpix k =>
    exact kind h (Flow.state_bind P _ _ (hP.read _ _ hs) fun _ s' hs' =>
      hres (Or.inl ⟨k, rfl⟩) _ s' hs')
  | putpixCopy k v => exact kind h (hP.putpix _ _ _ _ hs)
  | putpixCopyinv k v => exact kind h (hP.putpix _ _ _ _ hs)
  | putpixAnd k v => exact kind h (hP.putpix _ _ _ _ hs)
  | putpixOr k v => exact kind h (hP.putpix _ _ _ _ hs)
  | putpixXor k v => exact kind h (hP.putpix _ _ _ _ hs)
  | composeCopy d b => exact comp (m := .copy) rfl h
  | composeCopyinv d b => exact comp (m := .copyInv) rfl h
  | composeAnd d b => exact comp (m := .and) rfl h
  | composeOr d b => exact comp (m := .or) rfl h
  | composeXor d b => exact comp (m := .xor) rfl h
  | mapaddr =>
    exact kind (k := .surf) (c := encode .mapaddr)
      (run := .go () (writeReg .result
        (BitVec.ofNat 32 (truncA s.cfg (surfAddr s.x s.x.xd.toNat s.x.yd.toNat))) s))
      h (hres (Or.inr (Or.inr rfl)) _ _ hs)
  | putCopy f k => exact kind h (hP.putRegion _ _ _ _ hs)
  | putCopyinv f k => exact kind h (hP.putRegion _ _ _ _ hs)
  | putAnd f k => exact kind h (hP.putRegion _ _ _ _ hs)
  | putOr f k => exact kind h (hP.putRegion _ _ _ _ hs)
  | putXor f k => exact kind h (hP.putRegion _ _ _ _ hs)
  | get k => exact kind h (hP.getRegion _ _ hs)
  | fill k => exact kind h (hP.fillRegion _ _ hs)
  | print k ch =>
    refine kind h ?_
    split
    · exact hs
    · exact Flow.state_bind P _ _ (hP.printGlyph _ _ _ hs) fun _ s' hs' =>
        hxd ⟨k, ch, rfl⟩ _ s' hs'
  | recolor ink paper =>
    exact loop h (forUpTo_keeps P _ _ s hs fun _ s' _ hs' => hP.recolorByte _ _ _ s' hs')
  | glyphget code => exact loop h (forUpTo_keeps P _ _ s hs fun _ s' _ hs' => hP.copyByte _ _ s' hs')
  | glyphput code => exact loop h (forUpTo_keeps P _ _ s hs fun _ s' _ hs' => hP.copyByte _ _ s' hs')

end Sys2Proof.Machine
end

