-- ==== Sys2Proof/Laws/Twin.lean ====
section
/-! SUPPORT. Two runs of one command on states that differ in registers only: as long as the addresses agree
the two do the same to memory, to the memory port and to the free values. -/

namespace Sys2Proof.Machine

/-- Two parts of a command end the same way, with the same value, in related states. -/
def Flow.Twin {α : Type} (R : State → State → Prop) : Flow α → Flow α → Prop
  | .go v s, .go v' s' => v = v' ∧ R s s'
  | .stop s, .stop s' => R s s'
  | .go _ _, .stop _ => False
  | .stop _, .go _ _ => False

/-- A relation that says the two states agree on all a byte access sees, and that every access keeps. -/
structure TwinClosed (R : State → State → Prop) : Prop where
  cfg  : ∀ s s', R s s' → s'.cfg = s.cfg
  mem  : ∀ s s', R s s' → s'.mem = s.mem
  bus  : ∀ s s', R s s' → s'.bus = s.bus
  free : ∀ s s', R s s' → s'.freeCount = s.freeCount
  turn : ∀ s s' m b n, R s s' →
    R { s with mem := m, bus := b, freeCount := n } { s' with mem := m, bus := b, freeCount := n }
  err  : ∀ s s' e info, R s s' → R (raiseError e info s) (raiseError e info s')

theorem Flow.Twin.bind {α β : Type} {R : State → State → Prop} {p p' : Flow α}
    {f f' : α → State → Flow β} (h : Flow.Twin R p p')
    (hf : ∀ v s s', R s s' → Flow.Twin R (f v s) (f' v s')) : Flow.Twin R (p.bind f) (p'.bind f') := by
  cases p <;> cases p' <;> first | exact h.elim | skip
  · obtain ⟨rfl, h⟩ := h; exact hf _ _ _ h
  · exact h

/-- Related loops of the same length. -/
theorem forUpTo_twin {R : State → State → Prop} (n : Nat) {body body' : Nat → State → Flow Unit}
    {s s' : State} (h : R s s')
    (hbody : ∀ j s s', j < n → R s s' → Flow.Twin R (body j s) (body' j s')) :
    Flow.Twin R (forUpTo n body s) (forUpTo n body' s') := by
  induction n with
  | zero => exact ⟨rfl, h⟩
  | succ n ih =>
    exact Flow.Twin.bind (ih fun j s s' hj => hbody j s s' (by omega)) fun _ s s' h =>
      hbody n s s' (by omega) h

theorem Flow.Twin.state {α : Type} {R : State → State → Prop} {p p' : Flow α} (h : Flow.Twin R p p') :
    R p.state p'.state := by
  cases p <;> cases p' <;> first | exact h.elim | exact h.2 | exact h

namespace TwinClosed

variable {R : State → State → Prop} (hR : TwinClosed R) {s s' : State} (h : R s s')
include hR h

theorem read (a : Int) : Flow.Twin R (memRead a s) (memRead a s') := by
  unfold memRead
  simp only [hR.cfg _ _ h, hR.mem _ _ h, hR.bus _ _ h]
  split
  · refine ⟨rfl, ?_⟩
    have := hR.turn s s' s.mem
      (s.bus ++ [.read (truncA s.cfg a) (memByte s.mem (truncA s.cfg a))]) s.freeCount h
    rw [← hR.mem _ _ h, ← hR.free _ _ h] at this
    simpa [hR.cfg _ _ h, hR.mem _ _ h, hR.free _ _ h] using this
  · exact hR.err _ _ _ _ h

theorem write (a : Int) (v : Byte) : Flow.Twin R (memWrite a v s) (memWrite a v s') := by
  unfold memWrite
  simp only [hR.cfg _ _ h, hR.mem _ _ h, hR.bus _ _ h]
  split
  · refine ⟨rfl, ?_⟩
    have := hR.turn s s' (memSet s.mem (truncA s.cfg a) v) (s.bus ++ [.write (truncA s.cfg a) v])
      s.freeCount h
    rw [← hR.free _ _ h] at this
    simpa [hR.cfg _ _ h, hR.free _ _ h] using this
  · exact hR.err _ _ _ _ h

theorem colour (inRange : Bool) (b : Byte) :
    Flow.Twin R (colourByte inRange b s) (colourByte inRange b s') := by
  unfold colourByte takeFreeByte
  rw [hR.free _ _ h]
  split
  · exact ⟨rfl, h⟩
  · refine ⟨rfl, ?_⟩
    have := hR.turn s s' s.mem s.bus (s.freeCount + 1) h
    rw [← hR.mem _ _ h, ← hR.bus _ _ h] at this
    simpa [hR.mem _ _ h, hR.bus _ _ h] using this

theorem putByte (m : DrawMode) (sa da : Int) : Flow.Twin R (putByte m sa da s) (putByte m sa da s') := by
  unfold Machine.putByte
  refine Flow.Twin.bind (hR.read h sa) fun b s s' h => ?_
  split
  · exact Flow.Twin.bind (hR.read h da) fun d s s' h => hR.write h da _
  · exact hR.write h da _

theorem copyByte (sa da : Int) : Flow.Twin R (copyByte sa da s) (copyByte sa da s') := by
  unfold Machine.copyByte
  exact Flow.Twin.bind (hR.read h sa) fun b s s' h => hR.write h da _

theorem colourWrite (inRange : Bool) (b : Byte) (a : Int) :
    Flow.Twin R ((colourByte inRange b s).bind fun p t => memWrite a p t)
      ((colourByte inRange b s').bind fun p t => memWrite a p t) :=
  Flow.Twin.bind (hR.colour h inRange b) fun p _ _ h => hR.write h a p

end TwinClosed

/-- A command on a kind, from two states that agree on the mode and on whether the surface has addresses. -/
theorem onKind_twin {R : State → State → Prop} (hR : TwinClosed R) (k : Kind) (c : Word)
    {s s' t : State} {p p' : Flow Unit} (h : R s s') (hm : s'.x.mode = s.x.mode)
    (hsc : k = .surf → s.x.mode ≠ 0 → surfaceScaled s'.x = surfaceScaled s.x) (hp : Flow.Twin R p p')
    (h1 : onKind k c s p = .next t) : ∃ t', onKind k c s' p' = .next t' ∧ R t t' := by
  have hst := hp.state
  cases k with
  | buf =>
    simp only [onKind, Flow.outcome_eq] at h1 ⊢
    cases h1
    exact ⟨_, rfl, hst⟩
  | surf =>
    by_cases h0 : s.x.mode = 0
    · rw [onKind_text h0] at h1
      cases h1
      exact ⟨_, onKind_text (hm.trans h0), hR.err _ _ _ _ h⟩
    · have e := hsc rfl h0
      rcases onKind_cases .surf c s p with ⟨hr, e1⟩ | ⟨_, m, _⟩ | ⟨_, _, _, e1⟩
      · rw [e1] at h1
        cases h1
        refine ⟨_, onKind_ready ?_, hst⟩
        simpa [kindReady, hm, e] using hr
      · exact absurd m h0
      · rw [e1] at h1; cases h1

end Sys2Proof.Machine
end

