-- ==== Sys2Proof/Laws/BusError.lean ====
section
/-! SUPPORT. The memory part of a command changes no register until a refused access ends it, and that
access changes STATUS and FAULT_INFO only. -/

namespace Sys2Proof.Machine

/-- The registers a BusError at one refused address leaves. -/
def RegsAfterBusError (c : Config) (x x' : Regs) : Prop :=
  ∃ a, a < 2 ^ c.addrBits ∧ memValid c a = false ∧
    x' = { x with status := 0b100, faultInfo := BitVec.ofNat 32 a }

/-- How the memory part of a command that started with registers `x` may end. -/
def Flow.KeepsRegs {α : Type} (c : Config) (x : Regs) : Flow α → Prop
  | .go _ s => s.cfg = c ∧ s.x = x
  | .stop s => s.cfg = c ∧ RegsAfterBusError c x s.x

theorem Flow.KeepsRegs.bind {α β : Type} {c : Config} {x : Regs} {p : Flow α} {f : α → State → Flow β}
    (h : Flow.KeepsRegs c x p) (hf : ∀ v s, s.cfg = c → s.x = x → Flow.KeepsRegs c x (f v s)) :
    Flow.KeepsRegs c x (p.bind f) := by
  cases p with
  | go v s => exact hf v s h.1 h.2
  | stop s => exact h

theorem forUpTo_keepsRegs {c : Config} {x : Regs} (n : Nat) {body : Nat → State → Flow Unit} {s : State}
    (hc : s.cfg = c) (hx : s.x = x)
    (hbody : ∀ j s, s.cfg = c → s.x = x → Flow.KeepsRegs c x (body j s)) :
    Flow.KeepsRegs c x (forUpTo n body s) := by
  induction n with
  | zero => exact ⟨hc, hx⟩
  | succ n ih => exact ih.bind fun _ s hc hx => hbody n s hc hx

section

variable {c : Config} {x : Regs} {s : State} (hc : s.cfg = c) (hx : s.x = x)
include hc hx

theorem memRead_keepsRegs (a : Int) : Flow.KeepsRegs c x (memRead a s) := by
  cases hv : memValid s.cfg (truncA s.cfg a) with
  | true => rw [memRead_valid hv]; exact ⟨hc, hx⟩
  | false =>
    rw [memRead_refused hv]
    exact ⟨hc, truncA s.cfg a, hc ▸ truncA_lt _ _, hc ▸ hv, hx ▸ rfl⟩

theorem memWrite_keepsRegs (a : Int) (v : Byte) : Flow.KeepsRegs c x (memWrite a v s) := by
  cases hv : memValid s.cfg (truncA s.cfg a) with
  | true => rw [memWrite_valid hv]; exact ⟨hc, hx⟩
  | false =>
    rw [memWrite_refused hv]
    exact ⟨hc, truncA s.cfg a, hc ▸ truncA_lt _ _, hc ▸ hv, hx ▸ rfl⟩

theorem colourWrite_keepsRegs (inRange : Bool) (b : Byte) (a : Int) :
    Flow.KeepsRegs c x ((colourByte inRange b s).bind fun p t => memWrite a p t) := by
  refine Flow.KeepsRegs.bind ?_ fun p t hc hx => memWrite_keepsRegs hc hx a p
  unfold colourByte takeFreeByte
  split <;> exact ⟨hc, hx⟩

theorem putByte_keepsRegs (m : DrawMode) (sa da : Int) : Flow.KeepsRegs c x (putByte m sa da s) := by
  refine (memRead_keepsRegs hc hx sa).bind fun b s hc hx => ?_
  split
  · exact (memRead_keepsRegs hc hx da).bind fun d s hc hx => memWrite_keepsRegs hc hx da _
  · exact memWrite_keepsRegs hc hx da _

theorem copyByte_keepsRegs (sa da : Int) : Flow.KeepsRegs c x (copyByte sa da s) :=
  (memRead_keepsRegs hc hx sa).bind fun _ _ hc hx => memWrite_keepsRegs hc hx da _

theorem recolorByte_keepsRegs (ink paper : Pixel) (a : Int) :
    Flow.KeepsRegs c x (recolorByte ink paper a s) :=
  (memRead_keepsRegs hc hx a).bind fun _ _ hc hx => colourWrite_keepsRegs hc hx _ _ a

end

theorem putpix_keepsRegs (m : DrawMode) (k : Kind) (v : Pixel) (s : State) :
    Flow.KeepsRegs s.cfg s.x (putpix m k v s) :=
  (memRead_keepsRegs rfl rfl _).bind fun _ _ hc hx => memWrite_keepsRegs hc hx _ _

theorem putRegion_keepsRegs (m : DrawMode) (full : Bool) (k : Kind) (s : State) :
    Flow.KeepsRegs s.cfg s.x (putRegion m full k s) :=
  forUpTo_keepsRegs _ rfl rfl fun _ _ hc hx => forUpTo_keepsRegs _ hc hx fun _ _ hc hx =>
    putByte_keepsRegs hc hx m _ _

theorem getRegion_keepsRegs (k : Kind) (s : State) : Flow.KeepsRegs s.cfg s.x (getRegion k s) :=
  forUpTo_keepsRegs _ rfl rfl fun _ _ hc hx => forUpTo_keepsRegs _ hc hx fun _ _ hc hx =>
    copyByte_keepsRegs hc hx _ _

theorem fillRegion_keepsRegs (k : Kind) (s : State) : Flow.KeepsRegs s.cfg s.x (fillRegion k s) :=
  forUpTo_keepsRegs _ rfl rfl fun _ _ hc hx => forUpTo_keepsRegs _ hc hx fun _ _ hc hx =>
    colourWrite_keepsRegs hc hx _ _ _

theorem printGlyph_keepsRegs (k : Kind) (ch : Byte) (s : State) :
    Flow.KeepsRegs s.cfg s.x (printGlyph k ch s) :=
  forUpTo_keepsRegs _ rfl rfl fun _ _ hc hx => (memRead_keepsRegs hc hx _).bind fun _ _ hc hx =>
    colourWrite_keepsRegs hc hx _ _ _

end Sys2Proof.Machine
end

