-- ==== Sys2Proof/Laws/Encoding.lean ====
section
/-! SUPPORT. The fields of a packed command word, and what the format checks say of the fields an encoder
writes. -/

namespace Sys2Proof

@[simp] theorem opField_packWord (op a : BitVec 8) (imm : BitVec 16) :
    opField (packWord op a imm) = op := by
  unfold opField packWord
  ext i hi
  simp only [BitVec.getElem_extractLsb', BitVec.getLsbD_append]
  rw [if_neg (by omega), if_neg (by omega), BitVec.getLsbD_eq_getElem (by omega)]
  congr 1; omega

@[simp] theorem aField_packWord (op a : BitVec 8) (imm : BitVec 16) :
    aField (packWord op a imm) = a := by
  unfold aField packWord
  ext i hi
  simp only [BitVec.getElem_extractLsb', BitVec.getLsbD_append]
  rw [if_neg (by omega), if_pos (by omega), BitVec.getLsbD_eq_getElem (by omega)]
  congr 1; omega

@[simp] theorem immField_packWord (op a : BitVec 8) (imm : BitVec 16) :
    immField (packWord op a imm) = imm := by
  unfold immField packWord
  ext i hi
  simp only [BitVec.getElem_extractLsb', BitVec.getLsbD_append]
  rw [if_pos (by omega), BitVec.getLsbD_eq_getElem (by omega)]
  congr 1; omega

/-- A word is its three fields. -/
theorem packWord_fields (c : Word) : packWord (opField c) (aField c) (immField c) = c := by
  unfold opField aField immField packWord
  ext i hi
  rw [← BitVec.getLsbD_eq_getElem, ← BitVec.getLsbD_eq_getElem]
  simp only [BitVec.getLsbD_append, BitVec.getLsbD_extractLsb']
  split
  · simp [*]
  · split
    · have h1 : i - 16 < 8 := by omega
      have h2 : 16 + (i - 16) = i := by omega
      simp [h1, h2]
    · have h1 : i - 16 - 8 < 8 := by omega
      have h2 : 24 + (i - 16 - 8) = i := by omega
      simp [h1, h2]

/-- A mask of a packed word is the masks of its fields. -/
theorem packWord_and_eq (op a : BitVec 8) (imm : BitVec 16) (op1 a1 : BitVec 8) (imm1 : BitVec 16)
    (op2 a2 : BitVec 8) (imm2 : BitVec 16) :
    packWord op a imm &&& packWord op1 a1 imm1 = packWord op2 a2 imm2 ↔
      op &&& op1 = op2 ∧ a &&& a1 = a2 ∧ imm &&& imm1 = imm2 := by
  have hand : packWord op a imm &&& packWord op1 a1 imm1
      = packWord (op &&& op1) (a &&& a1) (imm &&& imm1) := by
    unfold packWord
    ext i hi
    rw [← BitVec.getLsbD_eq_getElem, ← BitVec.getLsbD_eq_getElem]
    simp only [BitVec.getLsbD_append, BitVec.getLsbD_and]
    split
    · rfl
    · split <;> rfl
  rw [hand]
  constructor
  · intro h
    have h1 := congrArg opField h
    have h2 := congrArg aField h
    have h3 := congrArg immField h
    rw [opField_packWord, opField_packWord] at h1
    rw [aField_packWord, aField_packWord] at h2
    rw [immField_packWord, immField_packWord] at h3
    exact ⟨h1, h2, h3⟩
  · rintro ⟨rfl, rfl, rfl⟩; rfl

@[simp] theorem extract_regBits (r : BitVec 5) : (regBits r).extractLsb' 0 5 = r := by
  revert r; decide

@[simp] theorem regBits_mbz (r : BitVec 5) : regBits r &&& 0xE0#8 = 0#8 := by
  revert r; decide

@[simp] theorem extract_low_byte (d s : Byte) : (d ++ s : BitVec 16).extractLsb' 0 8 = s := by
  ext i hi
  simp only [BitVec.getElem_extractLsb', BitVec.getLsbD_append]
  rw [if_pos (by omega), BitVec.getLsbD_eq_getElem (by omega)]
  congr 1; omega

@[simp] theorem extract_high_byte (d s : Byte) : (d ++ s : BitVec 16).extractLsb' 8 8 = d := by
  ext i hi
  simp only [BitVec.getElem_extractLsb', BitVec.getLsbD_append]
  rw [if_neg (by omega), BitVec.getLsbD_eq_getElem (by omega)]
  congr 1; omega

@[simp] theorem low_byte_mbz (s : Byte) : (0#8 ++ s : BitVec 16) &&& 0xFF00#16 = 0#16 := by
  revert s; decide

@[simp] theorem extract_pixel (v : Pixel) : (0#14 ++ v : BitVec 16).extractLsb' 0 2 = v := by
  revert v; decide

@[simp] theorem pixel_mbz (v : Pixel) : (0#14 ++ v : BitVec 16) &&& 0xFFFC#16 = 0#16 := by
  revert v; decide

@[simp] theorem extract_ink (i p : Pixel) :
    (0#10 ++ i ++ 0#2 ++ p : BitVec 16).extractLsb' 4 2 = i := by
  revert i p; decide

@[simp] theorem extract_paper (i p : Pixel) :
    (0#10 ++ i ++ 0#2 ++ p : BitVec 16).extractLsb' 0 2 = p := by
  revert i p; decide

@[simp] theorem colours_mbz (i p : Pixel) :
    (0#10 ++ i ++ 0#2 ++ p : BitVec 16) &&& 0xFFCC#16 = 0#16 := by
  revert i p; decide

@[simp] theorem kindField_kindBits (k : Kind) : kindField (kindBits k) = k := by cases k <;> decide

@[simp] theorem kindField_putpix (k : Kind) (m : DrawMode) :
    kindField (kindBits k ||| modeBits m) = k := by cases k <;> cases m <;> decide

@[simp] theorem modeField_putpix (k : Kind) (m : DrawMode) :
    modeField (kindBits k ||| modeBits m) = some m := by cases k <;> cases m <;> decide

@[simp] theorem modeField_modeBits (m : DrawMode) : modeField (modeBits m) = some m := by
  cases m <;> decide

@[simp] theorem fields_put (f : Bool) (k : Kind) (m : DrawMode) :
    kindField (fullBits f ||| kindBits k ||| modeBits m) = k ∧
    fullField (fullBits f ||| kindBits k ||| modeBits m) = f ∧
    modeField (fullBits f ||| kindBits k ||| modeBits m) = some m := by
  cases f <;> cases k <;> cases m <;> decide

/-- What a format without a draw mode answers when it answers a command. -/
theorem plainFormat_ok {a aMask : BitVec 8} {imm immMask : BitVec 16} {i j : Instr}
    (h : plainFormat a aMask imm immMask j = .ok i) : a &&& aMask = 0 ∧ imm &&& immMask = 0 ∧ j = i := by
  unfold plainFormat mbzClear at h
  split at h
  · rename_i hc
    simp only [Bool.and_eq_true, beq_iff_eq] at hc
    cases h
    exact ⟨hc.1, hc.2, rfl⟩
  · cases h

/-- What a format with a draw mode answers when it answers a command. -/
theorem modeFormat_ok {a aMask : BitVec 8} {imm immMask : BitVec 16} {i : Instr} {row : DrawMode → Instr}
    (h : modeFormat a aMask imm immMask row = .ok i) :
    a &&& aMask = 0 ∧ imm &&& immMask = 0 ∧ ∃ m, modeField a = some m ∧ row m = i := by
  unfold modeFormat mbzClear at h
  split at h
  · rename_i hc
    simp only [Bool.and_eq_true, beq_iff_eq] at hc
    split at h
    · rename_i m hm
      cases h
      exact ⟨hc.1, hc.2, m, hm, rfl⟩
    · cases h
  · cases h

end Sys2Proof
end

