-- ==== Sys2Proof/Laws/PerInstr.lean ====
section
/-! SUPPORT. One fact about every command as syntax: its word belongs to its own row of the opcode map, and
the row is one of the 26 (spec/30_encoding.md rule R98). -/

namespace Sys2Proof.Laws.WordInRow

/-- The word of a command is covered by the command's row, and the row is in the map. -/
def Statement (i : Instr) : Prop := i.row ∈ opcodeRows ∧ i.row.covers (encode i) = true

/-- A packed word is covered field by field. -/
theorem covers_packWord {row : OpcodeRow} {op a om am op' a' : BitVec 8} {imm im imm' : BitVec 16}
    (hm : row.mask = packWord om am im) (hp : row.pattern = packWord op' a' imm')
    (h : op &&& om = op' ∧ a &&& am = a' ∧ imm &&& im = imm') : row.covers (packWord op a imm) = true := by
  simp only [OpcodeRow.covers, hm, hp, beq_iff_eq]
  exact (packWord_and_eq ..).mpr h

/-- A register index keeps clear of the bits above it. -/
theorem regBits_fixed (r : BitVec 5) : regBits r &&& 0xE0 = 0 := regBits_mbz r

theorem imm_free (imm : BitVec 16) : imm &&& 0 = 0 := by simp

theorem kind_fixed (k : Kind) : kindBits k &&& 0xEF = 0 := by cases k <;> decide

theorem pixel_fixed (v : Pixel) : (0#14 ++ v : BitVec 16) &&& 0xFFFC = 0 := pixel_mbz v

theorem byte_fixed (b : Byte) : (0#8 ++ b : BitVec 16) &&& 0xFF00 = 0 := low_byte_mbz b

theorem nop : Statement .nop := ⟨by decide, by decide⟩

theorem setl (r : BitVec 5) (imm : BitVec 16) : Statement (.setl r imm) :=
  ⟨(by decide : Instr.row (.setl 0 0) ∈ opcodeRows), covers_packWord (om := 0xFF) (am := 0xE0) (im := 0) (op' := 0x01) (a' := 0) (imm' := 0)
    rfl rfl ⟨by decide, regBits_fixed r, imm_free imm⟩⟩

theorem seth (r : BitVec 5) (imm : BitVec 16) : Statement (.seth r imm) :=
  ⟨(by decide : Instr.row (.seth 0 0) ∈ opcodeRows), covers_packWord (om := 0xFF) (am := 0xE0) (im := 0) (op' := 0x02) (a' := 0) (imm' := 0)
    rfl rfl ⟨by decide, regBits_fixed r, imm_free imm⟩⟩

theorem getpix (k : Kind) : Statement (.getpix k) := by cases k <;> exact ⟨by decide, by decide⟩

/-- The five rows of PUTPIX differ in the draw mode only. -/
theorem putpix (m : DrawMode) (k : Kind) (v : Pixel) : Statement (putpixRow k v m) := by
  refine ⟨?_, ?_⟩
  · have h : ∀ m, (putpixRow .buf 0 m).row ∈ opcodeRows := by intro m; cases m <;> decide
    cases m
    · exact h .copy
    · exact h .copyInv
    · exact h .and
    · exact h .or
    · exact h .xor
  revert v
  cases m <;> cases k <;> decide

theorem putpixCopy (k : Kind) (v : Pixel) : Statement (.putpixCopy k v) := putpix .copy k v
theorem putpixCopyinv (k : Kind) (v : Pixel) : Statement (.putpixCopyinv k v) := putpix .copyInv k v
theorem putpixAnd (k : Kind) (v : Pixel) : Statement (.putpixAnd k v) := putpix .and k v
theorem putpixOr (k : Kind) (v : Pixel) : Statement (.putpixOr k v) := putpix .or k v
theorem putpixXor (k : Kind) (v : Pixel) : Statement (.putpixXor k v) := putpix .xor k v

/-- The five rows of COMPOSE differ in the draw mode only. -/
theorem compose (m : DrawMode) (d s : Byte) : Statement (composeRow d s m) := by
  have hrow : ∀ m, (composeRow 0 0 m).row ∈ opcodeRows := by intro m; cases m <;> decide
  refine ⟨?_, ?_⟩
  · cases m
    · exact hrow .copy
    · exact hrow .copyInv
    · exact hrow .and
    · exact hrow .or
    · exact hrow .xor
  have h : (composeRow d s m).row.covers (packWord 0x20 (modeBits m) (d ++ s)) = true := by
    cases m <;> exact covers_packWord (om := 0xFF) (am := 0xFF) (im := 0) (op' := 0x20) (imm' := 0)
      rfl rfl ⟨by decide, rfl, imm_free _⟩
  cases m <;> exact h

theorem composeCopy (d s : Byte) : Statement (.composeCopy d s) := compose .copy d s
theorem composeCopyinv (d s : Byte) : Statement (.composeCopyinv d s) := compose .copyInv d s
theorem composeAnd (d s : Byte) : Statement (.composeAnd d s) := compose .and d s
theorem composeOr (d s : Byte) : Statement (.composeOr d s) := compose .or d s
theorem composeXor (d s : Byte) : Statement (.composeXor d s) := compose .xor d s

theorem mapaddr : Statement .mapaddr := ⟨by decide, by decide⟩

/-- The five rows of PUT differ in the draw mode only. -/
theorem put (m : DrawMode) (full : Bool) (k : Kind) : Statement (putRow full k m) := by
  cases m <;> cases full <;> cases k <;> exact ⟨by decide, by decide⟩

theorem putCopy (full : Bool) (k : Kind) : Statement (.putCopy full k) := put .copy full k
theorem putCopyinv (full : Bool) (k : Kind) : Statement (.putCopyinv full k) := put .copyInv full k
theorem putAnd (full : Bool) (k : Kind) : Statement (.putAnd full k) := put .and full k
theorem putOr (full : Bool) (k : Kind) : Statement (.putOr full k) := put .or full k
theorem putXor (full : Bool) (k : Kind) : Statement (.putXor full k) := put .xor full k

theorem get (k : Kind) : Statement (.get k) := by cases k <;> exact ⟨by decide, by decide⟩

theorem fill (k : Kind) : Statement (.fill k) := by cases k <;> exact ⟨by decide, by decide⟩

theorem print (k : Kind) (ch : Byte) : Statement (.print k ch) :=
  ⟨(by decide : Instr.row (.print .buf 0) ∈ opcodeRows), covers_packWord (om := 0xFF) (am := 0xEF) (im := 0xFF00) (op' := 0x43) (a' := 0) (imm' := 0)
    rfl rfl ⟨by decide, kind_fixed k, byte_fixed ch⟩⟩

theorem recolor (ink paper : Pixel) : Statement (.recolor ink paper) :=
  ⟨(by decide : Instr.row (.recolor 0 0) ∈ opcodeRows), by revert ink paper; decide⟩

theorem glyphget (code : Byte) : Statement (.glyphget code) :=
  ⟨(by decide : Instr.row (.glyphget 0) ∈ opcodeRows), covers_packWord (om := 0xFF) (am := 0xFF) (im := 0xFF00) (op' := 0x45) (a' := 0) (imm' := 0)
    rfl rfl ⟨by decide, by decide, byte_fixed code⟩⟩

theorem glyphput (code : Byte) : Statement (.glyphput code) :=
  ⟨(by decide : Instr.row (.glyphput 0) ∈ opcodeRows), covers_packWord (om := 0xFF) (am := 0xFF) (im := 0xFF00) (op' := 0x46) (a' := 0) (imm' := 0)
    rfl rfl ⟨by decide, by decide, byte_fixed code⟩⟩

end Sys2Proof.Laws.WordInRow
end

