-- ==== Sys2Proof/Tests/Slice0.lean ====
section
/-! SUPPORT. The model's own tests.  Expected values are those of spec/95_test_vectors.md (named V-..) and of
the examples in the rules; then, for every obligation with hypotheses, a state and operands that meet them. -/

namespace Sys2Proof.Tests

open Sys2Proof.Machine

/-! ### Helpers -/

/-- A state under CFG_TEST with the registers and memory given. -/
def start (x : Regs) (mem : List Host.Cell) : State := { State.resetOf Config.cfgTest mem with x := x }

/-- CFG_TEST with `MemValid(a) = (a < n)`, as in V-RG8. -/
def cfgBelow (n : Nat) : Config := { Config.cfgTest with holes := [⟨n, 2 ^ 20 - 1⟩] }

def startBelow (n : Nat) (x : Regs) (mem : List Host.Cell) : State :=
  { State.resetOf (cfgBelow n) mem with x := x }

/-- The next state of a command, if it answers one. -/
def ran (i : Instr) (s : State) : Option State :=
  match exec i s with
  | .next t => some t
  | .fault _ => none
  | .refused _ => none

/-- The next state of a step that presents the word `c`, if it answers one. -/
def stepped (c : Word) (s : State) : Option State :=
  match step { s with moves := [.command c] } with
  | .next t => some t
  | .fault _ => none
  | .refused _ => none

/-- The `n` bytes from address `a`. -/
def bytes (t : Option State) (a n : Nat) : List Byte :=
  match t with
  | some t => (List.range n).map fun j => memByte t.mem (a + j)
  | none => []

def result (t : Option State) : Option Word := t.map fun t => t.x.result

def ops (t : Option State) : List BusOp :=
  match t with
  | some t => busOps t
  | none => []

/-- STATUS, FAULT_INFO, HALTED. -/
def errorOf (t : Option State) : Option (BitVec 3 × Word × Bool) :=
  t.map fun t => (t.x.status, t.x.faultInfo, t.halted)

/-- The registers in each graphics mode of CFG_TEST. -/
def linear (x : Regs) : Regs := { x with mode := 1, gBase := 0, gStride := 80, gIlv := 1, gYmult := 1, gYdiv := 1 }
def cga (x : Regs) : Regs := { x with mode := 2, gBase := 0xB8000, gStride := 80, gIlv := 2, gYmult := 1, gYdiv := 1 }
def herc (x : Regs) : Regs := { x with mode := 3, gBase := 0xB0000, gStride := 90, gIlv := 4, gYmult := 3, gYdiv := 2 }

/-! ### WellFormed refuses ill-formed terms (rule R123) -/

theorem test_wf_setl_unit_register : (Instr.setl 19 0).wellFormed = false := by decide
theorem test_wf_setl_reserved : (Instr.setl 27 0).wellFormed = false := by decide
theorem test_wf_seth_narrow_register : (Instr.seth 6 0).wellFormed = false := by decide
theorem test_wf_seth_unit_register : (Instr.seth 19 0).wellFormed = false := by decide
theorem test_wf_legal : (Instr.setl 18 0).wellFormed = true ∧ (Instr.seth 14 0).wellFormed = true := by decide

/-! ### Decoding: words written out from rule R98 and V-E1, each to the command it stands for -/

theorem test_decode_nop : decode 0x00000000 = .ok .nop := by rfl
theorem test_decode_setl : decode 0x010C0002 = .ok (.setl 12 2) ∧ decode 0x01120002 = .ok (.setl 18 2) :=
  ⟨rfl, rfl⟩
theorem test_decode_seth : decode 0x0203000B = .ok (.seth 3 0xB) := by rfl
theorem test_decode_getpix : decode 0x10000000 = .ok (.getpix .buf) ∧ decode 0x10100000 = .ok (.getpix .surf) :=
  ⟨rfl, rfl⟩
theorem test_decode_putpix :
    decode 0x11000001 = .ok (.putpixCopy .buf 1) ∧ decode 0x11010001 = .ok (.putpixCopyinv .buf 1) ∧
    decode 0x11020002 = .ok (.putpixAnd .buf 2) ∧ decode 0x11130002 = .ok (.putpixOr .surf 2) ∧
    decode 0x11140003 = .ok (.putpixXor .surf 3) := ⟨rfl, rfl, rfl, rfl, rfl⟩
theorem test_decode_compose :
    decode 0x2000F03C = .ok (.composeCopy 0xF0 0x3C) ∧ decode 0x2001F03C = .ok (.composeCopyinv 0xF0 0x3C) ∧
    decode 0x2002F03C = .ok (.composeAnd 0xF0 0x3C) ∧ decode 0x2003F03C = .ok (.composeOr 0xF0 0x3C) ∧
    decode 0x2004F03C = .ok (.composeXor 0xF0 0x3C) := ⟨rfl, rfl, rfl, rfl, rfl⟩
theorem test_decode_mapaddr : decode 0x30000000 = .ok .mapaddr := by rfl
theorem test_decode_put :
    decode 0x40000000 = .ok (.putCopy false .buf) ∧ decode 0x40300000 = .ok (.putCopy true .surf) ∧
    decode 0x40210000 = .ok (.putCopyinv true .buf) ∧ decode 0x40120000 = .ok (.putAnd false .surf) ∧
    decode 0x40030000 = .ok (.putOr false .buf) ∧ decode 0x40340000 = .ok (.putXor true .surf) :=
  ⟨rfl, rfl, rfl, rfl, rfl, rfl⟩
theorem test_decode_get : decode 0x41000000 = .ok (.get .buf) ∧ decode 0x41100000 = .ok (.get .surf) := ⟨rfl, rfl⟩
theorem test_decode_fill : decode 0x42000000 = .ok (.fill .buf) ∧ decode 0x42100000 = .ok (.fill .surf) := ⟨rfl, rfl⟩
theorem test_decode_print : decode 0x43000041 = .ok (.print .buf 0x41) ∧ decode 0x431000FF = .ok (.print .surf 0xFF) :=
  ⟨rfl, rfl⟩
theorem test_decode_recolor : decode 0x44000021 = .ok (.recolor 2 1) ∧ decode 0x44000033 = .ok (.recolor 3 3) :=
  ⟨rfl, rfl⟩
theorem test_decode_glyphget : decode 0x45000042 = .ok (.glyphget 0x42) := by rfl
theorem test_decode_glyphput : decode 0x46000020 = .ok (.glyphput 0x20) := by rfl

/-- V-E2: the words that match no row. -/
theorem test_decode_rejects :
    decode 0x00000001 = .error .mbzBitSet ∧ decode 0x03000000 = .error .unassignedOpcode ∧
    decode 0xFFFFFFFF = .error .unassignedOpcode ∧ decode 0x01200000 = .error .mbzBitSet ∧
    decode 0x10010000 = .error .mbzBitSet ∧ decode 0x11050000 = .error .reservedMode ∧
    decode 0x20070000 = .error .reservedMode ∧ decode 0x30000001 = .error .mbzBitSet ∧
    decode 0x40080000 = .error .mbzBitSet ∧ decode 0x40000001 = .error .mbzBitSet ∧
    decode 0x41200000 = .error .mbzBitSet ∧ decode 0x43000100 = .error .mbzBitSet ∧
    decode 0x44000004 = .error .mbzBitSet :=
  ⟨rfl, rfl, rfl, rfl, rfl, rfl, rfl, rfl, rfl, rfl, rfl, rfl, rfl⟩

/-- The words of rule R100's table. -/
theorem test_encode :
    encode .nop = 0x00000000 ∧ encode (.setl 18 2) = 0x01120002 ∧ encode (.seth 3 0xB) = 0x0203000B ∧
    encode (.getpix .surf) = 0x10100000 ∧ encode (.putpixOr .surf 2) = 0x11130002 ∧
    encode (.composeXor 0xCC 0x3C) = 0x2004CC3C ∧ encode .mapaddr = 0x30000000 ∧
    encode (.putXor true .buf) = 0x40240000 ∧ encode (.get .surf) = 0x41100000 ∧
    encode (.fill .surf) = 0x42100000 ∧ encode (.print .buf 0x41) = 0x43000041 ∧
    encode (.recolor 1 2) = 0x44000012 ∧ encode (.glyphget 0x41) = 0x45000041 ∧
    encode (.glyphput 0x20) = 0x46000020 := by decide

theorem test_decode_table_word : decodeTableWord 32 0x11130002 = some (.putpixOr .surf 2) := by rfl
theorem test_decode_bytes : decodeBytes [0x02, 0x00, 0x0C, 0x01, 0xFF] = .ok (.setl 12 2, [0xFF]) := by rfl
theorem test_decode_truncated : decodeBytes [0x02, 0x00, 0x0C] = .error .truncatedWord := by rfl

/-! ### One step of each command -/

theorem test_nop : ran .nop (start (cga Regs.reset) []) = some (start (cga Regs.reset) []) := by rfl

/-- V-K1: an 8-bit and a 1-bit register drop the upper bits. -/
theorem test_setl_drops_upper_bits :
    (ran (.setl 12 0x1234) State.reset).map (fun t => t.x.ink) = some 0x34 ∧
    (ran (.setl 17 2) State.reset).map (fun t => t.x.ctrl) = some 0 := by decide

/-- V-K1 and V-K2: `SETL MODE, 7`, and the Hercules upgrade of `SETL MODE, 1`. -/
theorem test_setl_mode :
    (ran (.setl 18 7) State.reset).map (fun t => t.x) = some (herc Regs.reset) ∧
    (ran (.setl 18 1) (State.resetOf { Config.cfgTest with hercPresent := true } [])).map (fun t => t.x)
      = some (herc Regs.reset) := by decide

/-- Rule R122's example and the last row of V-K1. -/
theorem test_seth :
    (ran (.seth 3 0x000B) (start { Regs.reset with dstAddr := 0x8000 } [])).map (fun t => t.x.dstAddr)
      = some 0xB8000 ∧
    (ran (.seth 0 0xFFFF) (start { Regs.reset with srcAddr := 0xFFFF } [])).map (fun t => t.x.srcAddr)
      = some 0xFFFFF := by decide

def pixRegs : Regs :=
  { Regs.reset with srcAddr := 0x1000, srcW := 8, xs := 7, ys := 1, dstAddr := 0x1000, dstW := 8, yd := 1 }

/-- V-B4. -/
theorem test_getpix_buffer :
    result (ran (.getpix .buf) (start pixRegs [(0x1003, 0x1B)])) = some 3 ∧
    result (ran (.getpix .buf) (start { pixRegs with xs := 6 } [(0x1003, 0x1B)])) = some 2 := by decide

/-- V-B5. -/
theorem test_getpix_surface :
    result (ran (.getpix .surf) (start (cga { Regs.reset with xs := 9, ys := 1 }) [(0xBA002, 0x10)])) = some 1 := by
  decide

/-- V-B6. -/
theorem test_putpix_copy :
    bytes (ran (.putpixCopy .buf 3) (start pixRegs [(0x1002, 0x1B)])) 0x1002 1 = [0xDB] := by decide
theorem test_putpix_copyinv :
    bytes (ran (.putpixCopyinv .buf 1) (start { pixRegs with xd := 1 } [(0x1002, 0x1B)])) 0x1002 1 = [0x2B] := by
  decide
theorem test_putpix_and :
    bytes (ran (.putpixAnd .buf 2) (start { pixRegs with xd := 3 } [(0x1002, 0x1B)])) 0x1002 1 = [0x1A] := by
  decide
theorem test_putpix_or :
    bytes (ran (.putpixOr .buf 2) (start { pixRegs with xd := 1 } [(0x1002, 0x1B)])) 0x1002 1 = [0x3B] := by
  decide
/-- V-B5: one read and one write of 0xBA002. -/
theorem test_putpix_or_surface :
    (ran (.putpixOr .surf 2) (start (cga { Regs.reset with xd := 9, yd := 1 }) [])).map (fun t => (t.mem, t.bus))
      = some ([(0xBA002, 0x20)], [.read 0xBA002 0, .write 0xBA002 0x20]) := by decide
theorem test_putpix_xor :
    bytes (ran (.putpixXor .buf 3) (start { pixRegs with xd := 2 } [(0x1002, 0x1B)])) 0x1002 1 = [0x17] := by
  decide

/-- V-C1. -/
theorem test_compose_copy : result (ran (.composeCopy 0xF0 0x3C) State.reset) = some 0x3C := by decide
theorem test_compose_copyinv : result (ran (.composeCopyinv 0xF0 0x3C) State.reset) = some 0xC3 := by decide
theorem test_compose_and : result (ran (.composeAnd 0xF0 0x3C) State.reset) = some 0x30 := by decide
theorem test_compose_or : result (ran (.composeOr 0xF0 0x3C) State.reset) = some 0xFC := by decide
theorem test_compose_xor : result (ran (.composeXor 0xF0 0x3C) State.reset) = some 0xCC := by decide

/-- V-M1, V-M2, V-M3: one row each. -/
theorem test_mapaddr :
    result (ran .mapaddr (start (linear { Regs.reset with xd := 316, yd := 199 }) [])) = some 0x03E7F ∧
    result (ran .mapaddr (start (cga { Regs.reset with xd := 316, yd := 199 }) [])) = some 0xBBF3F ∧
    result (ran .mapaddr (start (herc { Regs.reset with xd := 316, yd := 199 }) [])) = some 0xB5A53 := by decide

/-- V-M4. -/
theorem test_mapaddr_wraps :
    result (ran .mapaddr (start (linear { Regs.reset with xd := 12, yd := 13108 }) [])) = some 0x43 := by decide

def putRegs : Regs :=
  { Regs.reset with srcAddr := 0x100, srcW := 8, srcH := 2, dstAddr := 0x200, dstW := 8 }

def putMem : List Host.Cell :=
  [(0x100, 0x1B), (0x101, 0xE4), (0x102, 0x0F), (0x103, 0xF0), (0x200, 0xF0), (0x201, 0xF0), (0x202, 0x55),
   (0x203, 0xAA)]

def putStart : State := start putRegs putMem

/-- V-RG1. -/
theorem test_put_copy :
    bytes (ran (.putCopy true .buf) putStart) 0x200 4 = [0x1B, 0xE4, 0x0F, 0xF0] ∧
    ops (ran (.putCopy true .buf) putStart) = [.r 0x100, .w 0x200, .r 0x101, .w 0x201, .r 0x102, .w 0x202,
      .r 0x103, .w 0x203] := by decide
theorem test_put_copyinv :
    bytes (ran (.putCopyinv true .buf) putStart) 0x200 4 = [0xE4, 0x1B, 0xF0, 0x0F] := by decide
theorem test_put_and :
    bytes (ran (.putAnd true .buf) putStart) 0x200 4 = [0x10, 0xE0, 0x05, 0xA0] := by decide
theorem test_put_or :
    bytes (ran (.putOr true .buf) putStart) 0x200 4 = [0xFB, 0xF4, 0x5F, 0xFA] := by decide
theorem test_put_xor :
    bytes (ran (.putXor true .buf) putStart) 0x200 4 = [0xEB, 0x14, 0x5A, 0x5A] ∧
    ops (ran (.putXor true .buf) putStart) = [.r 0x100, .r 0x200, .w 0x200, .r 0x101, .r 0x201, .w 0x201,
      .r 0x102, .r 0x202, .w 0x202, .r 0x103, .r 0x203, .w 0x203] := by decide

/-- V-RG2: columns and widths that are not multiples of 4. -/
theorem test_put_truncates :
    ops (ran (.putCopy false .buf) (start { Regs.reset with srcAddr := 0x100, srcW := 16, dstAddr := 0x200, dstW := 16, xs := 5, ys := 1, xd := 6, yd := 2, w := 10, h := 2 } []))
      = [.r 0x105, .w 0x209, .r 0x106, .w 0x20A, .r 0x109, .w 0x20D, .r 0x10A, .w 0x20E] := by decide

/-- V-RG7: across the banks of the CGA surface. -/
theorem test_get_surface :
    bytes (ran (.get .surf) (start (cga { Regs.reset with xs := 8, ys := 7, dstAddr := 0x500, dstW := 8, dstH := 3 })
      [(0xB8142, 0x20), (0xB8143, 0x21), (0xBA0F2, 0x10), (0xBA0F3, 0x11), (0xBA142, 0x30), (0xBA143, 0x31)]))
      0x500 6 = [0x10, 0x11, 0x20, 0x21, 0x30, 0x31] := by decide
theorem test_get_buffer :
    ops (ran (.get .buf) (start { Regs.reset with srcAddr := 0x200, srcW := 16, xs := 4, ys := 1, dstAddr := 0x300, dstW := 8, dstH := 2 } []))
      = [.r 0x205, .w 0x300, .r 0x206, .w 0x301, .r 0x209, .w 0x302, .r 0x20A, .w 0x303] := by decide

def fillRegs : Regs := { Regs.reset with dstAddr := 0x1000, dstW := 8, w := 8, h := 8, ink := 2 }

/-- V-RG5. -/
theorem test_fill : bytes (ran (.fill .buf) (start fillRegs [])) 0x1000 17
    = [0xAA, 0xAA, 0xAA, 0xAA, 0xAA, 0xAA, 0xAA, 0xAA, 0xAA, 0xAA, 0xAA, 0xAA, 0xAA, 0xAA, 0xAA, 0xAA, 0] := by
  decide
/-- V-RG8. -/
theorem test_fill_bus_error :
    errorOf (ran (.fill .buf) (startBelow 0x1008 fillRegs [])) = some (0b100, 0x1008, true) ∧
    bytes (ran (.fill .buf) (startBelow 0x1008 fillRegs [])) 0x1006 3 = [0xAA, 0xAA, 0] := by decide

def glyphMem : List Host.Cell :=
  [(0x3000, 0x3C), (0x3001, 0xC3), (0x3002, 0xC3), (0x3003, 0xFF), (0x3004, 0xC3), (0x3005, 0xC3), (0x3006, 0xC3)]
  ++ [(0x3008, 0xFC), (0x3009, 0xC3), (0x300A, 0xC3), (0x300B, 0xFC), (0x300C, 0xC3), (0x300D, 0xC3), (0x300E, 0xFC)]

def glyphRegs : Regs :=
  { Regs.reset with glyphAddr := 0x3000, glyphFirst := 0x41, glyphLast := 0x42, ctrl := 1, dstAddr := 0x4000, dstW := 4 }

def glyphStart : State := start glyphRegs glyphMem

/-- V-G1. -/
theorem test_print :
    bytes (ran (.print .buf 0x42) glyphStart) 0x4000 8 = [0xFC, 0xC3, 0xC3, 0xFC, 0xC3, 0xC3, 0xFC, 0x00] ∧
    (ran (.print .buf 0x42) glyphStart).map (fun t => t.x.xd) = some 4 := by decide
/-- Program P3's first character, and V-G8's wrap of XD. -/
theorem test_print_colours :
    bytes (ran (.print .buf 0x41) (start { glyphRegs with ink := 2, paper := 1 } glyphMem)) 0x4000 8
      = [0x69, 0x96, 0x96, 0xAA, 0x96, 0x96, 0x96, 0x55] ∧
    (ran (.print .buf 0x41) (start { glyphRegs with xd := 0xFFFE } [])).map (fun t => (t.x.xd, (busOps t)[1]?))
      = some (2, some (.w 0x7FFF)) := by decide
/-- V-G3. -/
theorem test_recolor : bytes (ran (.recolor 1 2) glyphStart) 0x3000 16
    = [0x96, 0x69, 0x69, 0x55, 0x69, 0x69, 0x69, 0xAA, 0x56, 0x69, 0x69, 0x56, 0x69, 0x69, 0x56, 0xAA] := by
  decide
/-- V-G4. -/
theorem test_recolor_empty :
    ran (.recolor 1 2) (start { glyphRegs with glyphFirst := 0x42, glyphLast := 0x41 } glyphMem)
      = some (start { glyphRegs with glyphFirst := 0x42, glyphLast := 0x41 } glyphMem) := by rfl
/-- V-G5, its second half. -/
theorem test_glyphget :
    bytes (ran (.glyphget 0x42) glyphStart) 0x4000 8 = [0xFC, 0xC3, 0xC3, 0xFC, 0xC3, 0xC3, 0xFC, 0x00] := by decide
/-- V-G5, its first half. -/
theorem test_glyphput :
    bytes (ran (.glyphput 0x42) (start { glyphRegs with srcAddr := 0x600 } [(0x600, 1), (0x601, 2), (0x602, 3), (0x603, 4),
      (0x604, 5), (0x605, 6), (0x606, 7), (0x607, 8)])) 0x3008 8 = [1, 2, 3, 4, 5, 6, 7, 8] := by decide

/-! ### Errors, the step, the host -/

/-- V-X2 and V-M5. -/
theorem test_error_priority :
    errorOf (stepped 0x40180000 State.reset) = some (0b001, 0x40180000, true) ∧
    errorOf (stepped 0x30000000 State.reset) = some (0b010, 0x30000000, true) := by decide
/-- V-E2: unit-written, reserved and narrow registers. -/
theorem test_illegal_register :
    errorOf (stepped 0x01130000 State.reset) = some (0b001, 0x01130000, true) ∧
    errorOf (stepped 0x011B0000 State.reset) = some (0b001, 0x011B0000, true) ∧
    errorOf (stepped 0x02060000 State.reset) = some (0b001, 0x02060000, true) := by decide
/-- Program P4: a word after an error is discarded. -/
theorem test_halted_discards :
    (stepped 0x010C0001 { State.reset with halted := true }).map (fun t => t.x) = some Regs.reset := by decide

theorem test_with_fetch_word :
    step (State.reset.withFetchWord 32 0x2000F03C)
      = .next { State.reset with
          x := { Regs.reset with result := 0x3C }, written := [.result], position := 1 } := by rfl
theorem test_reset_is_idle : step State.reset = .next State.reset := by rfl
theorem test_reset_memory_canonical : memWf State.reset.mem = true := by decide

/-! ### A state and operands for the hypotheses of every obligation -/

/-- Under CFG_TEST every address is populated. -/
theorem populated_start (x : Regs) (m : List Host.Cell) (a : Nat) : populated (start x m) a := by rfl

/-- A state with the host about to present the word `c`. -/
def presents (c : Word) (s : State) : State := { s with moves := [.command c] }

theorem test_meets_EncodeOfDecodeIsTheWord : decode 0x46000020 = .ok (.glyphput 0x20) := by rfl

theorem test_meets_WordIsCommandOfItsRow :
    decode 0x460000FF = .ok (.glyphput 0xFF) ∧ Instr.row (.glyphput 0) ∈ opcodeRows ∧
    (Instr.row (.glyphput 0)).covers 0x460000FF = true := ⟨rfl, by decide, by decide⟩

theorem test_meets_StepRunsTheDecodedCommand :
    (presents 0x42000000 putStart).moves = .command 0x42000000 :: [] ∧
    (presents 0x42000000 putStart).halted = false ∧ decode 0x42000000 = .ok (.fill .buf) := ⟨rfl, rfl, rfl⟩

theorem test_meets_HaltedDiscardsEveryWord :
    (presents 0xFFFFFFFF { putStart with halted := true }).moves = .command 0xFFFFFFFF :: [] ∧
    (presents 0xFFFFFFFF { putStart with halted := true }).halted = true := ⟨rfl, rfl⟩

theorem test_meets_UnmatchedWordRaisesIllegalCommand :
    (presents 0x11050000 putStart).moves = .command 0x11050000 :: [] ∧
    (presents 0x11050000 putStart).halted = false ∧ ∀ row ∈ opcodeRows, row.covers 0x11050000 = false := by
  decide

theorem test_meets_IllegalRegisterIndex :
    18 < (19 : BitVec 5).toNat ∧ 18 < (31 : BitVec 5).toNat ∧
    ((1 : BitVec 5) ≠ 0 ∧ (1 : BitVec 5) ≠ 3 ∧ (1 : BitVec 5) ≠ 14) ∧
    ((31 : BitVec 5) ≠ 0 ∧ (31 : BitVec 5) ≠ 3 ∧ (31 : BitVec 5) ≠ 14) := by decide

theorem test_meets_SurfaceCommandInTextModeRaisesNoSurface :
    usesSurface .mapaddr = true ∧ usesSurface (.print .surf 0x41) = true ∧ State.reset.x.mode = 0 := by decide

/-- Both sides of the first hole. -/
theorem test_meets_ByteAccessHappensOrRaisesBusError :
    memValid (startBelow 0x1008 fillRegs []).cfg (truncA (startBelow 0x1008 fillRegs []).cfg 0x1007) = true ∧
    memValid (startBelow 0x1008 fillRegs []).cfg (truncA (startBelow 0x1008 fillRegs []).cfg 0x1008) = false := by
  decide

theorem test_meets_PixelCommandAtRefusedAddress :
    kindReady .buf pixRegs = true ∧
    memValid (startBelow 0x1000 pixRegs []).cfg (getpixAddr (startBelow 0x1000 pixRegs []) .buf) = false ∧
    memValid (startBelow 0x1000 pixRegs []).cfg (putpixAddr (startBelow 0x1000 pixRegs []) .buf) = false ∧
    kindReady .surf (cga pixRegs) = true ∧
    memValid (startBelow 0x1000 (cga pixRegs) []).cfg (getpixAddr (startBelow 0x1000 (cga pixRegs) []) .surf) = false ∧
    memValid (startBelow 0x1000 (cga pixRegs) []).cfg (putpixAddr (startBelow 0x1000 (cga pixRegs) []) .surf) = false := by
  decide

theorem test_meets_BusErrorLeavesTheOtherRegisters :
    (startBelow 0x1000 pixRegs []).cfg.addrBits ≤ 32 ∧ (startBelow 0x1000 pixRegs []).x.status ≠ 0b100 ∧
    (ran (.getpix .buf) (startBelow 0x1000 pixRegs [])).map (fun t => t.x.status) = some 0b100 := by decide

/-- V-RG8's refused byte, row 4 column 0; and the very first byte. -/
theorem test_meets_FillStopsAtTheFirstRefusedWrite :
    kindReady .buf fillRegs = true ∧ memWf (startBelow 0x1008 fillRegs []).mem = true ∧
    colourLegal fillRegs.ink = true ∧ 4 < fillRegs.h.toNat ∧ 0 < fillRegs.w.toNat / 4 ∧
    memValid (cfgBelow 0x1008) (rectTarget (startBelow 0x1008 fillRegs []) .buf 4 0) = false ∧
    (∀ r < 4, ∀ i < 2, memValid (cfgBelow 0x1008) (rectTarget (startBelow 0x1008 fillRegs []) .buf r i) = true) ∧
    memValid (cfgBelow 0x1000) (rectTarget (startBelow 0x1000 fillRegs []) .buf 0 0) = false := by decide

theorem test_meets_SetlWritesTheWholeRegister : (0 : BitVec 5).toNat < 18 ∧ (17 : BitVec 5).toNat < 18 := by decide

/-- The three indices, one at a time. -/
theorem test_meets_SethWritesTheUpperHalf (r : BitVec 5) (h : r = 0 ∨ r = 3 ∨ r = 14) :
    (regOfIndex r).isSome = true := by rcases h with rfl | rfl | rfl <;> decide

theorem test_meets_SethChangesNothingWithShortAddresses :
    addressesFit { Config.cfgTest with addrBits := 16 } { Regs.reset with srcAddr := 0xFFFF } = true ∧
    ({ Config.cfgTest with addrBits := 16 } : Config).addrBits ≤ 16 := by decide

/-- A graphics request without and with Hercules hardware, and a text request. -/
theorem test_meets_ModeWriteSelectsTheGeometry :
    (2 : BitVec 16).extractLsb' 0 2 ≠ 0 ∧ geomOf Config.cfgTest 2 ≠ none ∧ geomOf Config.cfgTest 3 ≠ none ∧
    (4 : BitVec 16).extractLsb' 0 2 = 0 := by decide

theorem test_meets_PackingIdentities : (0 : Fin 4) ≠ 3 := by decide

theorem test_meets_PixelCommands :
    memWf putMem = true ∧ kindReady .buf pixRegs = true ∧ kindReady .surf (cga pixRegs) = true ∧
    populated (start pixRegs putMem) (getpixAddr (start pixRegs putMem) .buf) ∧
    populated (start (cga pixRegs) putMem) (getpixAddr (start (cga pixRegs) putMem) .surf) ∧
    populated (start pixRegs putMem) (putpixAddr (start pixRegs putMem) .buf) ∧
    populated (start (cga pixRegs) putMem) (putpixAddr (start (cga pixRegs) putMem) .surf) :=
  ⟨by decide, by decide, by decide, rfl, rfl, rfl, rfl⟩

theorem test_meets_GetpixReadsWhatPutpixDrew :
    memWf putMem = true ∧ kindReady .buf { pixRegs with xd := 7 } = true ∧
    populated (start { pixRegs with xd := 7 } putMem) (putpixAddr (start { pixRegs with xd := 7 } putMem) .buf) ∧
    ({ pixRegs with xd := 7 } : Regs).xs = ({ pixRegs with xd := 7 } : Regs).xd ∧ pixRegs.ys = pixRegs.yd ∧
    pixRegs.srcAddr = pixRegs.dstAddr ∧ pixRegs.srcW = pixRegs.dstW :=
  ⟨by decide, by decide, rfl, rfl, rfl, rfl, rfl⟩

/-- Each mode of the clause. -/
theorem test_meets_CompositorAlgebra (m : DrawMode) (h : m ≠ .copy ∧ m ≠ .copyInv) :
    m = .and ∨ m = .or ∨ m = .xor := by cases m <;> simp_all

theorem test_meets_SurfaceAddressModeByMode :
    geometryCached Config.cfgTest (linear Regs.reset) = true ∧ (linear Regs.reset).mode = 1 ∧
    geometryCached Config.cfgTest (cga Regs.reset) = true ∧ (cga Regs.reset).mode = 2 ∧
    geometryCached Config.cfgTest (herc Regs.reset) = true ∧ (herc Regs.reset).mode = 3 := by decide

/-- In the interleaved and in the linear geometry. -/
theorem test_meets_SurfaceRectangleIsInjective :
    (surfaceScaled (herc Regs.reset) = true ∧ (herc Regs.reset).gYdiv.toNat ≤ (herc Regs.reset).gYmult.toNat ∧
      2 ≤ (herc Regs.reset).gStride.toNat ∧
      (1 < (herc Regs.reset).gIlv.toNat →
        (herc Regs.reset).gStride.toNat * (scaledRow (herc Regs.reset) (4 - 1) / (herc Regs.reset).gIlv.toNat) + 2
          ≤ 0x2000) ∧
      (∀ j < 2, ∀ y < 4, surfAddr (herc Regs.reset) (4 * j) y < 2 ^ Config.cfgTest.addrBits)) ∧
    (surfaceScaled (linear Regs.reset) = true ∧
      (linear Regs.reset).gYdiv.toNat ≤ (linear Regs.reset).gYmult.toNat ∧ 2 ≤ (linear Regs.reset).gStride.toNat ∧
      ¬ 1 < (linear Regs.reset).gIlv.toNat ∧
      (∀ j < 2, ∀ y < 4, surfAddr (linear Regs.reset) (4 * j) y < 2 ^ Config.cfgTest.addrBits)) := by decide

theorem test_meets_MapaddrLeavesTheAddressInResult : kindReady .surf (herc Regs.reset) = true := by decide

/-- V-RG1 to a buffer, and its source onto the CGA surface. -/
theorem test_meets_Put :
    memWf putMem = true ∧ kindReady .buf putRegs = true ∧ kindReady .surf (cga putRegs) = true ∧
    (∀ r < putRows putStart true, ∀ i < putCols putStart true,
      populated putStart (putSource putStart true r i) ∧ populated putStart (rectTarget putStart .buf r i)) ∧
    (∀ r < putRows (start (cga putRegs) putMem) true, ∀ i < putCols (start (cga putRegs) putMem) true,
      populated (start (cga putRegs) putMem) (putSource (start (cga putRegs) putMem) true r i) ∧
      populated (start (cga putRegs) putMem) (rectTarget (start (cga putRegs) putMem) .surf r i)) :=
  ⟨by decide, by decide, by decide, fun _ _ _ _ => ⟨rfl, rfl⟩, fun _ _ _ _ => ⟨rfl, rfl⟩⟩

/-- The ranges of both do not overlap, and there is more than one byte in them. -/
theorem test_meets_Put_disjoint :
    (putRows putStart true = 2 ∧ putCols putStart true = 2) ∧
    (∀ r < putRows putStart true, ∀ i < putCols putStart true, ∀ r' < putRows putStart true,
      ∀ i' < putCols putStart true, putSource putStart true r i ≠ rectTarget putStart .buf r' i' ∧
        (rectTarget putStart .buf r i = rectTarget putStart .buf r' i' → r = r' ∧ i = i')) := by
  have h : ∀ r i r' i' : Fin 2, putSource putStart true r i ≠ rectTarget putStart .buf r' i' ∧
      (rectTarget putStart .buf r i = rectTarget putStart .buf r' i' → r.val = r'.val ∧ i.val = i'.val) := by
    decide
  exact ⟨by decide, fun r hr i hi r' hr' i' hi' => h ⟨r, hr⟩ ⟨i, hi⟩ ⟨r', hr'⟩ ⟨i', hi'⟩⟩

theorem test_meets_Put_surface_disjoint :
    ∀ r < putRows (start (cga putRegs) putMem) true, ∀ i < putCols (start (cga putRegs) putMem) true,
      ∀ r' < putRows (start (cga putRegs) putMem) true, ∀ i' < putCols (start (cga putRegs) putMem) true,
        putSource (start (cga putRegs) putMem) true r i ≠ rectTarget (start (cga putRegs) putMem) .surf r' i' ∧
        (rectTarget (start (cga putRegs) putMem) .surf r i = rectTarget (start (cga putRegs) putMem) .surf r' i' →
          r = r' ∧ i = i') := by
  have h : ∀ r i r' i' : Fin 2,
      putSource (start (cga putRegs) putMem) true r i ≠ rectTarget (start (cga putRegs) putMem) .surf r' i' ∧
      (rectTarget (start (cga putRegs) putMem) .surf r i = rectTarget (start (cga putRegs) putMem) .surf r' i' →
        r.val = r'.val ∧ i.val = i'.val) := by decide
  exact fun r hr i hi r' hr' i' hi' => h ⟨r, hr⟩ ⟨i, hi⟩ ⟨r', hr'⟩ ⟨i', hi'⟩

/-- V-RG2's columns against the multiples of 4 below them. -/
theorem test_meets_LowColumnBitsAreIgnored :
    (5 : BitVec 16).toNat / 4 = (4 : BitVec 16).toNat / 4 ∧ (10 : BitVec 16).toNat / 4 = (8 : BitVec 16).toNat / 4 ∧
    (∃ t, exec (.putCopy false .buf) (start { putRegs with xs := 5, xd := 5, w := 10, h := 1 } putMem) = .next t) ∧
    (∃ t, exec (.putCopy false .buf) (start { putRegs with xs := 4, xd := 4, w := 8, h := 1 } putMem) = .next t) :=
  ⟨by decide, by decide, ⟨_, rfl⟩, ⟨_, rfl⟩⟩

def getRegs : Regs := { putRegs with dstAddr := 0x300, dstH := 2 }

theorem test_meets_GetCopiesTheRectangle :
    memWf putMem = true ∧ kindReady .buf getRegs = true ∧
    (∀ r < getRegs.dstH.toNat, ∀ i < getRegs.dstW.toNat / 4,
      populated (start getRegs putMem) (getSource (start getRegs putMem) .buf r i) ∧
      populated (start getRegs putMem) (getTarget (start getRegs putMem) r i)) ∧
    (∀ r < getRegs.dstH.toNat, ∀ i < getRegs.dstW.toNat / 4, ∀ r' < getRegs.dstH.toNat,
      ∀ i' < getRegs.dstW.toNat / 4,
        getSource (start getRegs putMem) .buf r i ≠ getTarget (start getRegs putMem) r' i' ∧
        (getTarget (start getRegs putMem) r i = getTarget (start getRegs putMem) r' i' → r = r' ∧ i = i')) := by
  have h : ∀ r i r' i' : Fin 2,
      getSource (start getRegs putMem) .buf r i ≠ getTarget (start getRegs putMem) r' i' ∧
      (getTarget (start getRegs putMem) r i = getTarget (start getRegs putMem) r' i' →
        r.val = r'.val ∧ i.val = i'.val) := by decide
  exact ⟨by decide, by decide, fun _ _ _ _ => ⟨rfl, rfl⟩,
    fun r hr i hi r' hr' i' hi' => h ⟨r, hr⟩ ⟨i, hi⟩ ⟨r', hr'⟩ ⟨i', hi'⟩⟩

theorem test_meets_FillReplicatesInk :
    kindReady .buf fillRegs = true ∧ fillRegs.ink.toNat ≤ 3 ∧ memWf putMem = true ∧
    (∀ r < fillRegs.h.toNat, ∀ i < fillRegs.w.toNat / 4,
      populated (start fillRegs putMem) (rectTarget (start fillRegs putMem) .buf r i)) :=
  ⟨by decide, by decide, by decide, fun _ _ _ _ => rfl⟩

/-- V-RG6: the last buffer at 0x300. -/
theorem test_meets_GetReturnsWhatPutCopyPut :
    memWf putMem = true ∧ kindReady .buf putRegs = true ∧
    (∀ r < putRegs.srcH.toNat, ∀ i < putRegs.srcW.toNat / 4,
      populated putStart (putSource putStart true r i) ∧ populated putStart (rectTarget putStart .buf r i) ∧
      populated putStart (truncA putStart.cfg (bufAddr 0x300 putRegs.srcW 0 r + i : Nat))) ∧
    (∀ r < putRegs.srcH.toNat, ∀ i < putRegs.srcW.toNat / 4, ∀ r' < putRegs.srcH.toNat,
      ∀ i' < putRegs.srcW.toNat / 4,
        putSource putStart true r i ≠ rectTarget putStart .buf r' i' ∧
        rectTarget putStart .buf r i ≠ truncA putStart.cfg (bufAddr 0x300 putRegs.srcW 0 r' + i' : Nat) ∧
        (rectTarget putStart .buf r i = rectTarget putStart .buf r' i' → r = r' ∧ i = i') ∧
        (truncA putStart.cfg (bufAddr 0x300 putRegs.srcW 0 r + i : Nat)
          = truncA putStart.cfg (bufAddr 0x300 putRegs.srcW 0 r' + i' : Nat) → r = r' ∧ i = i')) := by
  have h : ∀ r i r' i' : Fin 2,
      rectTarget putStart .buf r i ≠ truncA putStart.cfg (bufAddr 0x300 putRegs.srcW 0 r' + i' : Nat) ∧
      (truncA putStart.cfg (bufAddr 0x300 putRegs.srcW 0 r + i : Nat)
        = truncA putStart.cfg (bufAddr 0x300 putRegs.srcW 0 r' + i' : Nat) → r.val = r'.val ∧ i.val = i'.val) := by
    decide
  refine ⟨by decide, by decide, fun _ _ _ _ => ⟨rfl, rfl, rfl⟩, fun r hr i hi r' hr' i' hi' => ?_⟩
  have hp := test_meets_Put_disjoint.2 r hr i hi r' hr' i' hi'
  have hb := h ⟨r, hr⟩ ⟨i, hi⟩ ⟨r', hr'⟩ ⟨i', hi'⟩
  exact ⟨hp.1, hb.1, hp.2, hb.2⟩

theorem test_meets_PrintWithoutGlyphSet :
    kindReady .buf putRegs = true ∧ putRegs.ctrl = 0 ∧ kindReady .surf (cga putRegs) = true ∧
    (cga putRegs).ctrl = 0 := by decide

theorem test_meets_PrintDrawsTheGlyphAndAdvances :
    kindReady .buf glyphRegs = true ∧ glyphRegs.ctrl = 1 ∧ memWf glyphMem = true ∧ glyphRegs.ink.toNat ≤ 3 ∧
    glyphRegs.paper.toNat ≤ 3 ∧
    (∀ r < 8, populated glyphStart (glyphSlot glyphStart 0x42 r) ∧ populated glyphStart (printTarget glyphStart .buf r)) ∧
    (∀ r < 8, ∀ r' < 8, glyphSlot glyphStart 0x42 r ≠ printTarget glyphStart .buf r' ∧
      (printTarget glyphStart .buf r = printTarget glyphStart .buf r' → r = r')) :=
  ⟨by decide, by decide, by decide, by decide, by decide, fun _ _ => ⟨rfl, rfl⟩, by decide⟩

theorem test_meets_RecolorRewritesCanonicalBytes :
    (∀ j < recolorCount glyphRegs, populated glyphStart (recolorTarget glyphStart j)) ∧ memWf glyphMem = true ∧
    recolorCount glyphRegs ≤ 2 ^ Config.cfgTest.addrBits ∧ recolorCount glyphRegs = 16 ∧
    canonical (memByte glyphMem (recolorTarget glyphStart 15)) = true :=
  ⟨fun _ _ => rfl, by decide, by decide, by decide, by decide⟩

def copyStart : State := start { glyphRegs with srcAddr := 0x600 } glyphMem

theorem test_meets_GlyphCopies :
    memWf glyphMem = true ∧
    (∀ r < 8, populated copyStart (srcByteAddr copyStart r) ∧ populated copyStart (glyphSlot copyStart 0x42 r) ∧
      populated copyStart (dstByteAddr copyStart r)) ∧
    (∀ r < 8, ∀ r' < 8,
      srcByteAddr copyStart r ≠ glyphSlot copyStart 0x42 r' ∧ glyphSlot copyStart 0x42 r ≠ dstByteAddr copyStart r' ∧
      srcByteAddr copyStart r ≠ dstByteAddr copyStart r' ∧
      (glyphSlot copyStart 0x42 r = glyphSlot copyStart 0x42 r' → r = r') ∧
      (dstByteAddr copyStart r = dstByteAddr copyStart r' → r = r')) :=
  ⟨by decide, fun _ _ => ⟨rfl, rfl, rfl⟩, by decide⟩

theorem test_meets_ReadAfterWrite : memWf putMem = true ∧ (0x100 : Nat) = 0x100 ∧ (0x101 : Nat) ≠ 0x100 := by decide

theorem test_meets_CanonicalMemoriesAreEqual :
    memWf putMem = true ∧ memWf (memSet (memSet putMem 0x100 0) 0x100 0x1B) = true ∧
    memSet (memSet putMem 0x100 0) 0x100 0x1B = putMem := by decide

/-- A command that answers a next state and is none of those the whole-machine rules leave out. -/
theorem test_meets_WholeMachineRules :
    (∃ t, exec (.fill .buf) (start fillRegs []) = .next t) ∧ (∀ imm, Instr.fill .buf ≠ .setl 18 imm) ∧
    Reg.unitOnly .xd = false ∧ (∀ r imm, Instr.fill .buf ≠ .setl r imm ∧ Instr.fill .buf ≠ .seth r imm) ∧
    (∀ k ch, Instr.fill .buf ≠ .print k ch) ∧ (∀ k, Instr.fill .buf ≠ .getpix k) ∧
    (∀ d b m, Instr.fill .buf ≠ composeRow d b m) ∧ Instr.fill .buf ≠ .mapaddr :=
  ⟨⟨_, rfl⟩, fun _ => by simp, rfl, fun _ _ => by simp, fun _ _ => by simp, fun _ => by simp,
    fun _ _ m => by cases m <;> simp [composeRow], by simp⟩

theorem test_meets_ScalarCommandsLeaveMemoryAlone :
    (∃ t, exec .nop State.reset = .next t) ∧ (∃ t, exec (.setl 12 2) State.reset = .next t) ∧
    (∃ t, exec (composeRow 1 2 .xor) State.reset = .next t) ∧ (∃ t, exec (.getpix .buf) State.reset = .next t) :=
  ⟨⟨_, rfl⟩, ⟨_, rfl⟩, ⟨_, rfl⟩, ⟨_, rfl⟩⟩

theorem test_meets_OnlyResetLeavesTheHaltedState :
    { State.reset with halted := true, moves := [HostMove.command 0] }.halted = true ∧
    (∀ rest, [HostMove.command 0] ≠ .reset :: rest) ∧ (∀ a v rest, [HostMove.command 0] ≠ .writeMemory a v :: rest) ∧
    (∃ t, step { State.reset with halted := true, moves := [HostMove.command 0] } = .next t) :=
  ⟨rfl, fun _ => by simp, fun _ _ _ => by simp, ⟨_, rfl⟩⟩

theorem test_meets_ResetGivesTheStatedValues :
    { putStart with halted := true, moves := [HostMove.reset] }.moves = .reset :: [] := by rfl

/-- The last register and both ends of the reserved indices. -/
theorem test_meets_HostReadsRegisters :
    { putStart with moves := [HostMove.readRegister 26] }.moves = .readRegister 26 :: [] ∧ (26 : BitVec 5).toNat < 27 ∧
    addressesFit putStart.cfg putStart.x = true ∧ 27 ≤ (27 : BitVec 5).toNat ∧ 27 ≤ (31 : BitVec 5).toNat := by decide

theorem test_meets_HostWritesAreSeenByTheBlock :
    memWf putMem = true ∧
    { putStart with moves := [HostMove.writeMemory 0xFFFFF 7] }.moves = .writeMemory 0xFFFFF 7 :: [] ∧
    0xFFFFF < 2 ^ putStart.cfg.addrBits ∧ memValid putStart.cfg 0xFFFFF = true := by decide

theorem test_meets_ResetMeetsTheInvariant :
    (cfgBelow 0x1008).wf = true ∧ memWf putMem = true ∧ memInSpace (cfgBelow 0x1008) putMem = true := by decide

theorem test_meets_Inv : Inv (presents 0x42000000 State.reset) ∧
    ∃ t, step (presents 0x42000000 State.reset) = .next t :=
  ⟨⟨by decide, by decide, by decide, by decide, by decide, by decide, by decide, by decide, by decide⟩, ⟨_, rfl⟩⟩

/-- FILL after its registers were written, against a state that differs in registers nothing has written. -/
theorem test_meets_GroundedCommandsIgnoreUnwrittenRegisters :
    grounded (.fill .buf) { start fillRegs [] with written := [.dstAddr, .dstW, .xd, .yd, .w, .h] } = true ∧
    (∀ r, defined { start fillRegs [] with written := [.dstAddr, .dstW, .xd, .yd, .w, .h] } r = true →
      readReg { fillRegs with srcAddr := 0x77, ys := 5 } r = readReg fillRegs r) ∧
    ∃ t, exec (.fill .buf) { start fillRegs [] with written := [.dstAddr, .dstW, .xd, .yd, .w, .h] } = .next t :=
  ⟨by decide, by intro r h; cases r <;> first | rfl | exact absurd h (by decide), ⟨_, rfl⟩⟩

end Sys2Proof.Tests
end

section
/-! PROOFS. What the register file reads as after each shared operation: an error entry, the load and the
loss of the geometry cache, a MODE write. -/

namespace Sys2Proof.Machine

/-- Zero-extension to 32 bits loses nothing. -/
theorem setWidth_word_inj {n : Nat} (hn : n ≤ 32) {a b : BitVec n} :
    a.setWidth 32 = b.setWidth 32 ↔ a = b := by
  refine ⟨fun h => ?_, fun h => h ▸ rfl⟩
  simpa [BitVec.setWidth_setWidth_of_le a hn, BitVec.setWidth_setWidth_of_le b hn] using
    congrArg (BitVec.setWidth n) h

/-- The error entry is two register writes and HALTED. -/
theorem raiseError_eq_writeReg (e : Cause) (info : Word) (s : State) :
    raiseError e info s =
      { writeReg .faultInfo info (writeReg .status (e.statusBit.setWidth 32) s) with halted := true } := by
  cases e <;> rfl

/-- A register write leaves every other register (rule R22). -/
theorem readReg_writeReg_ne {r r' : Reg} (h : r' ≠ r) (v : Word) (s : State) :
    readReg (writeReg r v s).x r' = readReg s.x r' :=
  readReg_setReg_ne s.cfg s.x r r' v h

theorem readReg_raiseError {r : Reg} (hst : r ≠ .status) (hfi : r ≠ .faultInfo) (e : Cause) (info : Word)
    (s : State) : readReg (raiseError e info s).x r = readReg s.x r := by
  rw [raiseError_eq_writeReg]
  exact (readReg_writeReg_ne hfi _ _).trans (readReg_writeReg_ne hst _ _)

/-- The five registers of the geometry cache (rule R29). -/
def Reg.isCache (r : Reg) : Bool := r ∈ [.gBase, .gStride, .gIlv, .gYmult, .gYdiv]

theorem Reg.unitOnly_of_isCache {r : Reg} (h : r.isCache = true) : r.unitOnly = true := by
  cases r <;> first | rfl | cases h

/-- No register of the cache has a stated reset value (rule R37). -/
theorem Reg.isCache_of_hasResetValue {r : Reg} (h : r.hasResetValue = true) : r.isCache = false := by
  cases r <;> first | rfl | cases h

/-- Loading the cache is five register writes. -/
theorem loadGeometry_eq_writeReg (g : Geom) (s : State) :
    loadGeometry g s =
      writeReg .gYdiv (g.ydiv.setWidth 32) (writeReg .gYmult (g.ymult.setWidth 32)
        (writeReg .gIlv (g.ilv.setWidth 32) (writeReg .gStride (g.stride.setWidth 32)
          (writeReg .gBase g.base s)))) := by
  simp [loadGeometry, writeReg, setReg]

theorem readReg_loadGeometry {r : Reg} (h : r.isCache = false) (g : Geom) (s : State) :
    readReg (loadGeometry g s).x r = readReg s.x r := by
  cases r <;> first | rfl | cases h

theorem readReg_dropGeometry {r : Reg} (h : r.isCache = false) (s : State) :
    readReg (dropGeometry s).x r = readReg s.x r := by
  cases r <;> first | rfl | cases h

/-- Dropping the cache takes its five marks away and no other (rule R201). -/
theorem mem_written_dropGeometry (r : Reg) (s : State) :
    r ∈ (dropGeometry s).written ↔ r ∈ s.written ∧ r.isCache = false := by
  simp [dropGeometry, mem_markUnwritten, Reg.isCache, and_assoc]

/-- After MODE is written a MODE write loads the cache, or drops it in text mode (rule R201). -/
theorem modeWrite_cases (v : BitVec 16) (s : State) :
    (∃ g, geomOf s.cfg (effectiveMode s.cfg v) = some g ∧
      modeWrite v s = loadGeometry g (writeReg .mode ((effectiveMode s.cfg v).setWidth 32) s)) ∨
    (geomOf s.cfg (effectiveMode s.cfg v) = none ∧
      modeWrite v s = dropGeometry (writeReg .mode ((effectiveMode s.cfg v).setWidth 32) s)) := by
  cases hg : geomOf s.cfg (effectiveMode s.cfg v) with
  | some g => exact .inl ⟨g, rfl, by simp [modeWrite, hg]⟩
  | none => exact .inr ⟨rfl, by simp [modeWrite, hg]⟩

theorem readReg_modeWrite {r : Reg} (hm : r ≠ .mode) (hc : r.isCache = false) (v : BitVec 16) (s : State) :
    readReg (modeWrite v s).x r = readReg s.x r := by
  rcases modeWrite_cases v s with ⟨g, -, e⟩ | ⟨-, e⟩ <;> rw [e]
  · exact (readReg_loadGeometry hc _ _).trans (readReg_writeReg_ne hm _ _)
  · exact (readReg_dropGeometry hc _).trans (readReg_writeReg_ne hm _ _)

end Sys2Proof.Machine
end

section
/-! PROOFS. O60: two states that agree on the defined registers do the same under a grounded command.  Every
shared operation keeps the agreement, and a command's addresses, counts and colours come from the registers
`regsRead` lists. -/

namespace Sys2Proof.Machine

/-- `s'` differs from `s` in registers only, and in none that is defined in `s`. -/
def AgreeOnDefined (s s' : State) : Prop :=
  ∃ y, s' = { s with x := y } ∧ ∀ r, defined s r = true → readReg y r = readReg s.x r

namespace AgreeOnDefined

/-- A register written with the same value in both states is defined and equal in both. -/
theorem writeReg {s s' : State} (h : AgreeOnDefined s s') (r : Reg) (v : Word) :
    AgreeOnDefined (writeReg r v s) (writeReg r v s') := by
  obtain ⟨y, rfl, hy⟩ := h
  refine ⟨setReg s.cfg y r v, rfl, fun r' hr' => ?_⟩
  by_cases e : r' = r
  · subst e
    apply BitVec.eq_of_toNat_eq
    rw [writeReg_x, readReg_setReg_self, readReg_setReg_self]
  · rw [writeReg_x, readReg_setReg_ne _ _ _ _ _ e, readReg_setReg_ne _ _ _ _ _ e]
    exact hy r' (by simpa [defined, mem_markWritten, e] using hr')

theorem raiseError {s s' : State} (h : AgreeOnDefined s s') (e : Cause) (info : Word) :
    AgreeOnDefined (raiseError e info s) (raiseError e info s') := by
  rw [raiseError_eq_writeReg, raiseError_eq_writeReg]
  obtain ⟨y, hs', hy⟩ := (h.writeReg .status (e.statusBit.setWidth 32)).writeReg .faultInfo info
  exact ⟨y, by rw [hs'], hy⟩

theorem loadGeometry {s s' : State} (h : AgreeOnDefined s s') (g : Geom) :
    AgreeOnDefined (loadGeometry g s) (loadGeometry g s') := by
  rw [loadGeometry_eq_writeReg, loadGeometry_eq_writeReg]
  exact ((((h.writeReg _ _).writeReg _ _).writeReg _ _).writeReg _ _).writeReg _ _

/-- The dropped cache is no longer defined; the other registers stay as they are. -/
theorem dropGeometry {s s' : State} (h : AgreeOnDefined s s') :
    AgreeOnDefined (dropGeometry s) (dropGeometry s') := by
  obtain ⟨y, rfl, hy⟩ := h
  refine ⟨(Machine.dropGeometry { s with x := y }).x, rfl, fun r hr => ?_⟩
  have hr' : r.isCache = false ∧ defined s r = true := by
    simp only [defined, Bool.or_eq_true, decide_eq_true_eq, mem_written_dropGeometry] at hr ⊢
    rcases hr with hr | ⟨hw, hc⟩
    · exact ⟨Reg.isCache_of_hasResetValue hr, .inl hr⟩
    · exact ⟨hc, .inr hw⟩
  rw [readReg_dropGeometry hr'.1, readReg_dropGeometry hr'.1]
  exact hy r hr'.2

theorem modeWrite {s s' : State} (h : AgreeOnDefined s s') (v : BitVec 16) :
    AgreeOnDefined (modeWrite v s) (modeWrite v s') := by
  have hc : s'.cfg = s.cfg := by obtain ⟨y, rfl, -⟩ := h; rfl
  have hw := h.writeReg .mode ((effectiveMode s.cfg v).setWidth 32)
  unfold Machine.modeWrite
  rw [hc]
  dsimp only
  split
  · exact hw.loadGeometry _
  · exact hw.dropGeometry

/-- SETH keeps the low half of its own register, which is the same in both states if it is defined. -/
theorem writeUpperHalf {s s' : State} (h : AgreeOnDefined s s') (r : Reg) (imm : BitVec 16) :
    AgreeOnDefined
      { s with x := setReg s.cfg s.x r (imm ++ (readReg s.x r).extractLsb' 0 16) }
      { s' with x := setReg s'.cfg s'.x r (imm ++ (readReg s'.x r).extractLsb' 0 16) } := by
  obtain ⟨y, rfl, hy⟩ := h
  refine ⟨_, rfl, fun r' hr' => ?_⟩
  by_cases e : r' = r
  · subst e
    apply BitVec.eq_of_toNat_eq
    dsimp only
    rw [readReg_setReg_self, readReg_setReg_self, hy r' hr']
  · dsimp only
    rw [readReg_setReg_ne _ _ _ _ _ e, readReg_setReg_ne _ _ _ _ _ e]
    exact hy r' hr'

/-- The states a grounded command starts from agree on every register it reads. -/
theorem of_grounded {s s' : State} (h : AgreeOnDefined s s') {i : Instr} (hg : grounded i s = true) :
    ∀ r ∈ regsRead s.x i, readReg s'.x r = readReg s.x r := by
  obtain ⟨y, rfl, hy⟩ := h
  exact fun r hr => hy r (List.all_eq_true.mp hg r hr)

/-- MODE has a stated reset value, so the states agree on it whatever was written. -/
theorem mode_eq {s s' : State} (h : AgreeOnDefined s s') : s'.x.mode = s.x.mode := by
  obtain ⟨y, rfl, hy⟩ := h
  exact (setWidth_word_inj (by decide)).mp (hy .mode rfl)

end AgreeOnDefined

/-- The agreement is one that memory accesses keep. -/
theorem agree_twinClosed : TwinClosed AgreeOnDefined where
  cfg := by rintro s _ ⟨y, rfl, -⟩; rfl
  mem := by rintro s _ ⟨y, rfl, -⟩; rfl
  bus := by rintro s _ ⟨y, rfl, -⟩; rfl
  free := by rintro s _ ⟨y, rfl, -⟩; rfl
  turn := by rintro s _ m b n ⟨y, rfl, hy⟩; exact ⟨y, rfl, hy⟩
  err _ _ e info h := h.raiseError e info

/-! ### What the registers a command reads determine -/

/-- The registers `y` and `x` read alike at every register of a list. -/
def ReadAlike (l : List Reg) (y x : Regs) : Prop := ∀ r ∈ l, readReg y r = readReg x r

theorem readAlike_append {l l' : List Reg} {y x : Regs} :
    ReadAlike (l ++ l') y x ↔ ReadAlike l y x ∧ ReadAlike l' y x := by
  simp [ReadAlike, or_imp, forall_and]

theorem surface_congr {y x : Regs} (h : ReadAlike (surfaceReads x) y x) (hm : x.mode ≠ 0) :
    surfAddr y = surfAddr x ∧ surfaceScaled y = surfaceScaled x := by
  obtain ⟨-, hb, hs, hi, hmul, hd⟩ : y.mode = x.mode ∧ y.gBase = x.gBase ∧ y.gStride = x.gStride ∧
      y.gIlv = x.gIlv ∧ y.gYmult = x.gYmult ∧ y.gYdiv = x.gYdiv := by
    simpa [ReadAlike, surfaceReads, show ¬ x.mode = 0#2 from hm, readReg, setWidth_word_inj] using h
  constructor
  · funext px py
    simp only [surfAddr, scaledRow, hb, hs, hi, hmul, hd]
  · simp only [surfaceScaled, hi, hd]

theorem srcRow_congr {y x : Regs} {k : Kind} (h : ReadAlike (sourceReads x k) y x)
    (hm : k = .surf → x.mode ≠ 0) : srcRow y k = srcRow x k := by
  funext px py
  cases k with
  | buf =>
    obtain ⟨ha, hw⟩ : y.srcAddr = x.srcAddr ∧ y.srcW = x.srcW := by
      simpa [ReadAlike, sourceReads, readReg, setWidth_word_inj] using h
    simp only [srcRow, ha, hw]
  | surf => exact congrFun (congrFun (surface_congr h (hm rfl)).1 px) py

theorem dstRow_congr {y x : Regs} {k : Kind} (h : ReadAlike (destinationReads x k) y x)
    (hm : k = .surf → x.mode ≠ 0) : dstRow y k = dstRow x k := by
  funext px py
  cases k with
  | buf =>
    obtain ⟨ha, hw⟩ : y.dstAddr = x.dstAddr ∧ y.dstW = x.dstW := by
      simpa [ReadAlike, destinationReads, readReg, setWidth_word_inj] using h
    simp only [dstRow, ha, hw]
  | surf => exact congrFun (congrFun (surface_congr h (hm rfl)).1 px) py

theorem glyphAddr_congr {y x : Regs} (h : ReadAlike [.glyphAddr, .glyphFirst] y x) :
    glyphAddr y = glyphAddr x := by
  obtain ⟨ha, hf⟩ : y.glyphAddr = x.glyphAddr ∧ y.glyphFirst = x.glyphFirst := by
    simpa [ReadAlike, readReg, setWidth_word_inj] using h
  funext code row
  simp only [glyphAddr, ha, hf]

theorem regionOperands_congr {y x : Regs} {full : Bool} (hw : y.srcW = x.srcW)
    (h : ReadAlike (if full then [.srcH] else [.xs, .ys, .w, .h]) y x) :
    regionOperands y full = regionOperands x full := by
  cases full with
  | true =>
    have hh : y.srcH = x.srcH := by simpa [ReadAlike, readReg, setWidth_word_inj] using h
    simp only [regionOperands, if_true, hw, hh]
  | false =>
    obtain ⟨hxs, hys, hcols, hrows⟩ : y.xs = x.xs ∧ y.ys = x.ys ∧ y.w = x.w ∧ y.h = x.h := by
      simpa [ReadAlike, readReg, setWidth_word_inj] using h
    simp [regionOperands, hxs, hys, hcols, hrows]

/-! ### The bodies of the commands, from two states that agree -/

/-- A part that goes on or ends alike in both states answers states that agree. -/
theorem AgreeOnDefined.outcome {p p' : Flow Unit} {t : State} (hp : Flow.Twin AgreeOnDefined p p')
    (h : p.outcome = .next t) : ∃ t', p'.outcome = .next t' ∧ AgreeOnDefined t t' := by
  rw [Flow.outcome_eq] at h ⊢
  cases h
  exact ⟨_, rfl, hp.state⟩

section

variable {s s' t : State} (h : AgreeOnDefined s s') {k : Kind}
include h

/-- NoSurface reads MODE only, so the bodies are compared only where the surface is in being. -/
theorem AgreeOnDefined.onKind {c : Word} {p p' : Flow Unit}
    (hr : k = .surf → ReadAlike (surfaceReads s.x) s'.x s.x)
    (hp : (k = .surf → s.x.mode ≠ 0) → Flow.Twin AgreeOnDefined p p') (h1 : onKind k c s p = .next t) :
    ∃ t', onKind k c s' p' = .next t' ∧ AgreeOnDefined t t' := by
  by_cases hm : k = .surf → s.x.mode ≠ 0
  · exact onKind_twin agree_twinClosed k c h h.mode_eq (fun e h0 => (surface_congr (hr e) h0).2) (hp hm) h1
  · obtain ⟨rfl, h0⟩ : k = .surf ∧ s.x.mode = 0 := by simpa using hm
    rw [onKind_text h0] at h1
    cases h1
    exact ⟨_, onKind_text (h.mode_eq.trans h0), h.raiseError _ _⟩

theorem execSetl_agree (r : BitVec 5) (imm : BitVec 16) (h1 : execSetl r imm s = .next t) :
    ∃ t', execSetl r imm s' = .next t' ∧ AgreeOnDefined t t' := by
  cases hreg : regOfIndex r with
  | none =>
    simp only [execSetl, hreg] at h1 ⊢
    cases h1
    exact ⟨_, rfl, h.raiseError _ _⟩
  | some reg =>
    simp only [execSetl, hreg] at h1 ⊢
    split_ifs at h1 ⊢ <;> cases h1
    · exact ⟨_, rfl, h.raiseError _ _⟩
    · exact ⟨_, rfl, h.modeWrite imm⟩
    · exact ⟨_, rfl, h.writeReg _ _⟩

theorem execSeth_agree (r : BitVec 5) (imm : BitVec 16) (h1 : execSeth r imm s = .next t) :
    ∃ t', execSeth r imm s' = .next t' ∧ AgreeOnDefined t t' := by
  cases hreg : regOfIndex r with
  | none =>
    simp only [execSeth, hreg] at h1 ⊢
    cases h1
    exact ⟨_, rfl, h.raiseError _ _⟩
  | some reg =>
    simp only [execSeth, hreg] at h1 ⊢
    split_ifs at h1 ⊢ <;> cases h1
    · exact ⟨_, rfl, h.writeUpperHalf reg imm⟩
    · exact ⟨_, rfl, h.raiseError _ _⟩

theorem execGetpix_agree (hr : ReadAlike ([.xs, .ys] ++ sourceReads s.x k) s'.x s.x)
    (h1 : execGetpix k s = .next t) : ∃ t', execGetpix k s' = .next t' ∧ AgreeOnDefined t t' := by
  obtain ⟨hp, hsrc⟩ := readAlike_append.mp hr
  obtain ⟨hxs, hys⟩ : s'.x.xs = s.x.xs ∧ s'.x.ys = s.x.ys := by
    simpa [ReadAlike, readReg, setWidth_word_inj] using hp
  refine h.onKind (fun e => by subst e; exact hsrc) (fun hm => ?_) h1
  rw [srcRow_congr hsrc hm, hxs, hys]
  exact (agree_twinClosed.read h _).bind fun _ _ _ h => ⟨rfl, h.writeReg _ _⟩

theorem onKind_putpix_agree (m : DrawMode) (v : Pixel) {c : Word}
    (hr : ReadAlike (putpixReads s.x k) s'.x s.x) (h1 : onKind k c s (putpix m k v s) = .next t) :
    ∃ t', onKind k c s' (putpix m k v s') = .next t' ∧ AgreeOnDefined t t' := by
  obtain ⟨hp, hdst⟩ := readAlike_append.mp hr
  obtain ⟨hxd, hyd⟩ : s'.x.xd = s.x.xd ∧ s'.x.yd = s.x.yd := by
    simpa [ReadAlike, readReg, setWidth_word_inj] using hp
  refine h.onKind (fun e => by subst e; exact hdst) (fun hm => ?_) h1
  unfold putpix
  rw [dstRow_congr hdst hm, hxd, hyd]
  exact (agree_twinClosed.read h _).bind fun _ _ _ h => agree_twinClosed.write h _ _

theorem execMapaddr_agree (hr : ReadAlike ([.xd, .yd] ++ surfaceReads s.x) s'.x s.x)
    (h1 : execMapaddr s = .next t) : ∃ t', execMapaddr s' = .next t' ∧ AgreeOnDefined t t' := by
  obtain ⟨hp, hsurf⟩ := readAlike_append.mp hr
  obtain ⟨hxd, hyd⟩ : s'.x.xd = s.x.xd ∧ s'.x.yd = s.x.yd := by
    simpa [ReadAlike, readReg, setWidth_word_inj] using hp
  refine h.onKind (fun _ => hsurf) (fun hm => ?_) h1
  rw [(surface_congr hsurf (hm rfl)).1, hxd, hyd, agree_twinClosed.cfg _ _ h]
  exact ⟨rfl, h.writeReg _ _⟩

theorem onKind_putRegion_agree (m : DrawMode) (full : Bool) {c : Word}
    (hr : ReadAlike (putReads s.x full k) s'.x s.x)
    (h1 : onKind k c s (putRegion m full k s) = .next t) :
    ∃ t', onKind k c s' (putRegion m full k s') = .next t' ∧ AgreeOnDefined t t' := by
  obtain ⟨hpo, hdst⟩ := readAlike_append.mp hr
  obtain ⟨hp, hops⟩ := readAlike_append.mp hpo
  obtain ⟨hxd, hyd, ha, hw⟩ : s'.x.xd = s.x.xd ∧ s'.x.yd = s.x.yd ∧ s'.x.srcAddr = s.x.srcAddr ∧
      s'.x.srcW = s.x.srcW := by
    simpa [ReadAlike, readReg, setWidth_word_inj] using hp
  refine h.onKind (fun e => by subst e; exact hdst) (fun hm => ?_) h1
  simp only [putRegion, srcRow, regionOperands_congr hw hops, dstRow_congr hdst hm, hxd, hyd, ha, hw]
  exact forUpTo_twin _ h fun _ _ _ _ h => forUpTo_twin _ h fun _ _ _ _ h =>
    agree_twinClosed.putByte h m _ _

theorem execGet_agree (hr : ReadAlike ([.xs, .ys, .dstAddr, .dstW, .dstH] ++ sourceReads s.x k) s'.x s.x)
    (h1 : execGet k s = .next t) : ∃ t', execGet k s' = .next t' ∧ AgreeOnDefined t t' := by
  obtain ⟨hp, hsrc⟩ := readAlike_append.mp hr
  obtain ⟨hxs, hys, ha, hw, hh⟩ : s'.x.xs = s.x.xs ∧ s'.x.ys = s.x.ys ∧ s'.x.dstAddr = s.x.dstAddr ∧
      s'.x.dstW = s.x.dstW ∧ s'.x.dstH = s.x.dstH := by
    simpa [ReadAlike, readReg, setWidth_word_inj] using hp
  refine h.onKind (fun e => by subst e; exact hsrc) (fun hm => ?_) h1
  simp only [getRegion, srcRow_congr hsrc hm, hxs, hys, ha, hw, hh]
  exact forUpTo_twin _ h fun _ _ _ _ h => forUpTo_twin _ h fun _ _ _ _ h => agree_twinClosed.copyByte h _ _

theorem execFill_agree (hr : ReadAlike ([.xd, .yd, .w, .h, .ink] ++ destinationReads s.x k) s'.x s.x)
    (h1 : execFill k s = .next t) : ∃ t', execFill k s' = .next t' ∧ AgreeOnDefined t t' := by
  obtain ⟨hp, hdst⟩ := readAlike_append.mp hr
  obtain ⟨hxd, hyd, hw, hh, hink⟩ : s'.x.xd = s.x.xd ∧ s'.x.yd = s.x.yd ∧ s'.x.w = s.x.w ∧
      s'.x.h = s.x.h ∧ s'.x.ink = s.x.ink := by
    simpa [ReadAlike, readReg, setWidth_word_inj] using hp
  refine h.onKind (fun e => by subst e; exact hdst) (fun hm => ?_) h1
  simp only [fillRegion, dstRow_congr hdst hm, hxd, hyd, hw, hh, hink]
  exact forUpTo_twin _ h fun _ _ _ _ h => forUpTo_twin _ h fun _ _ _ _ h =>
    agree_twinClosed.colourWrite h _ _ _

theorem execPrint_agree (ch : Byte)
    (hr : ReadAlike ([.ctrl, .xd, .yd, .ink, .paper, .glyphAddr, .glyphFirst] ++
      destinationReads s.x k) s'.x s.x)
    (h1 : execPrint k ch s = .next t) : ∃ t', execPrint k ch s' = .next t' ∧ AgreeOnDefined t t' := by
  obtain ⟨hp, hdst⟩ := readAlike_append.mp hr
  obtain ⟨hp, hglyph⟩ := readAlike_append (l := [.ctrl, .xd, .yd, .ink, .paper]).mp hp
  obtain ⟨hctrl, hxd, hyd, hink, hpaper⟩ : s'.x.ctrl = s.x.ctrl ∧ s'.x.xd = s.x.xd ∧
      s'.x.yd = s.x.yd ∧ s'.x.ink = s.x.ink ∧ s'.x.paper = s.x.paper := by
    simpa [ReadAlike, readReg, setWidth_word_inj] using hp
  refine h.onKind (fun e => by subst e; exact hdst) (fun hm => ?_) h1
  simp only [printGlyph, printedByte, dstRow_congr hdst hm, glyphAddr_congr hglyph, hctrl, hxd, hyd,
    hink, hpaper]
  split
  · exact ⟨rfl, h⟩
  · refine (forUpTo_twin _ h fun _ _ _ _ h => ?_).bind fun _ _ _ h => ⟨rfl, h.writeReg _ _⟩
    exact (agree_twinClosed.read h _).bind fun _ _ _ h => agree_twinClosed.colourWrite h _ _ _

theorem execRecolor_agree (ink paper : Pixel)
    (hr : ReadAlike [.glyphAddr, .glyphFirst, .glyphLast] s'.x s.x)
    (h1 : execRecolor ink paper s = .next t) :
    ∃ t', execRecolor ink paper s' = .next t' ∧ AgreeOnDefined t t' := by
  obtain ⟨ha, hf, hl⟩ : s'.x.glyphAddr = s.x.glyphAddr ∧ s'.x.glyphFirst = s.x.glyphFirst ∧
      s'.x.glyphLast = s.x.glyphLast := by
    simpa [ReadAlike, readReg, setWidth_word_inj] using hr
  refine AgreeOnDefined.outcome ?_ h1
  simp only [recolorCount, ha, hf, hl]
  exact forUpTo_twin _ h fun _ _ _ _ h =>
    (agree_twinClosed.read h _).bind fun _ _ _ h => agree_twinClosed.colourWrite h _ _ _

theorem execGlyphget_agree (code : Byte) (hr : ReadAlike [.glyphAddr, .glyphFirst, .dstAddr] s'.x s.x)
    (h1 : execGlyphget code s = .next t) :
    ∃ t', execGlyphget code s' = .next t' ∧ AgreeOnDefined t t' := by
  obtain ⟨hglyph, hd⟩ := readAlike_append (l := [.glyphAddr, .glyphFirst]).mp hr
  have ha : s'.x.dstAddr = s.x.dstAddr := hd .dstAddr (by simp)
  refine AgreeOnDefined.outcome ?_ h1
  rw [glyphAddr_congr hglyph, ha]
  exact forUpTo_twin _ h fun _ _ _ _ h => agree_twinClosed.copyByte h _ _

theorem execGlyphput_agree (code : Byte) (hr : ReadAlike [.glyphAddr, .glyphFirst, .srcAddr] s'.x s.x)
    (h1 : execGlyphput code s = .next t) :
    ∃ t', execGlyphput code s' = .next t' ∧ AgreeOnDefined t t' := by
  obtain ⟨hglyph, hd⟩ := readAlike_append (l := [.glyphAddr, .glyphFirst]).mp hr
  have ha : s'.x.srcAddr = s.x.srcAddr := hd .srcAddr (by simp)
  refine AgreeOnDefined.outcome ?_ h1
  rw [glyphAddr_congr hglyph, ha]
  exact forUpTo_twin _ h fun _ _ _ _ h => agree_twinClosed.copyByte h _ _

theorem composeResult_agree (m : DrawMode) (d b : Byte)
    (h1 : Host.Outcome.next (φ := Fault) (ρ := Refusal) (composeResult m d b s) = .next t) :
    ∃ t', Host.Outcome.next (φ := Fault) (ρ := Refusal) (composeResult m d b s') = .next t' ∧
      AgreeOnDefined t t' := by
  cases h1
  exact ⟨_, rfl, h.writeReg _ _⟩

/-- A grounded command, from two states that agree on the defined registers. -/
theorem exec_agree (i : Instr) (hg : grounded i s = true) (h1 : exec i s = .next t) :
    ∃ t', exec i s' = .next t' ∧ AgreeOnDefined t t' := by
  have hr : ReadAlike (regsRead s.x i) s'.x s.x := h.of_grounded hg
  cases i with
  | nop => cases h1; exact ⟨s', rfl, h⟩
  | setl r imm => exact execSetl_agree h r imm h1
  | seth r imm => exact execSeth_agree h r imm h1
  | getpix k => exact execGetpix_agree h hr h1
  | putpixCopy k v => exact onKind_putpix_agree h .copy v hr h1
  | putpixCopyinv k v => exact onKind_putpix_agree h .copyInv v hr h1
  | putpixAnd k v => exact onKind_putpix_agree h .and v hr h1
  | putpixOr k v => exact onKind_putpix_agree h .or v hr h1
  | putpixXor k v => exact onKind_putpix_agree h .xor v hr h1
  | composeCopy d b => exact composeResult_agree h .copy d b h1
  | composeCopyinv d b => exact composeResult_agree h .copyInv d b h1
  | composeAnd d b => exact composeResult_agree h .and d b h1
  | composeOr d b => exact composeResult_agree h .or d b h1
  | composeXor d b => exact composeResult_agree h .xor d b h1
  | mapaddr => exact execMapaddr_agree h hr h1
  | putCopy f k => exact onKind_putRegion_agree h .copy f hr h1
  | putCopyinv f k => exact onKind_putRegion_agree h .copyInv f hr h1
  | putAnd f k => exact onKind_putRegion_agree h .and f hr h1
  | putOr f k => exact onKind_putRegion_agree h .or f hr h1
  | putXor f k => exact onKind_putRegion_agree h .xor f hr h1
  | get k => exact execGet_agree h hr h1
  | fill k => exact execFill_agree h hr h1
  | print k ch => exact execPrint_agree h ch hr h1
  | recolor ink paper => exact execRecolor_agree h ink paper hr h1
  | glyphget code => exact execGlyphget_agree h code hr h1
  | glyphput code => exact execGlyphput_agree h code hr h1

end

/-- Settles O60: `exec_agree` with the second state written as the first with other registers. -/
theorem groundedCommandsIgnoreUnwrittenRegisters :
    Obligations.GroundedCommandsIgnoreUnwrittenRegisters := by
  intro i s t y hg hy h1
  obtain ⟨t', h2, z, rfl, hz⟩ := exec_agree (s' := { s with x := y }) ⟨y, rfl, hy⟩ i hg h1
  exact ⟨z, h2, hz⟩

end Sys2Proof.Machine
end

section
/-! PROOFS. O58: the invariant after each shared operation, after a command, after a host move.  MODE and the
geometry cache change together at a MODE write, STATUS and HALTED at an error entry; the other registers a
command writes are data, of which the invariant asks only that addresses fit. -/

namespace Sys2Proof.Machine

/-! ### Data registers -/

/-- The registers a command writes as data: those of the host but MODE, and RESULT. -/
def Reg.isData (r : Reg) : Bool := r == .result || (!r.unitOnly && r != .mode)

theorem Reg.isData_of_unitOnly {r : Reg} (hu : r.unitOnly = false) (hm : r ≠ .mode) : r.isData = true := by
  simp [Reg.isData, hu, hm]

theorem Reg.unitOnly_of_isAddress {r : Reg} (h : r.isAddress = true) :
    r.unitOnly = false ∧ r ≠ .mode := by
  cases r <;> first | exact ⟨rfl, by decide⟩ | cases h

/-- What byte accesses, error entries, data writes and a MODE write keep, every command keeps. -/
theorem exec_keeps_of_data (P : State → Prop) (hP : ByteClosed P)
    (herr : ∀ e info s, P s → P (raiseError e info s))
    (hdata : ∀ r v s, r.isData = true → P s → P (writeReg r v s))
    (hhalf : ∀ r v s, r.isData = true → P s → P { s with x := setReg s.cfg s.x r v })
    (hmode : ∀ v s, P s → P (modeWrite v s)) {i : Instr} {s t : State} (hs : P s)
    (h : exec i s = .next t) : P t :=
  exec_keeps P hP herr i s t (fun _ v s => hdata .result v s rfl) (fun _ v s => hdata .xd v s rfl)
    (fun _ _ _ _ _ hu hm => hdata _ _ s (Reg.isData_of_unitOnly hu hm) hs)
    (fun v _ => hmode v s hs)
    (fun _ _ _ _ _ ha =>
      have ⟨hu, hm⟩ := Reg.unitOnly_of_isAddress ha
      hhalf _ _ s (Reg.isData_of_unitOnly hu hm) hs)
    hs h

theorem setReg_data_status {r : Reg} (h : r.isData = true) (c : Config) (x : Regs) (v : Word) :
    (setReg c x r v).status = x.status ∧ (setReg c x r v).faultInfo = x.faultInfo := by
  cases r <;> first | exact ⟨rfl, rfl⟩ | cases h

theorem setReg_data_geometry {r : Reg} (h : r.isData = true) (c : Config) (x : Regs) (v : Word) :
    (setReg c x r v).mode = x.mode ∧
      geometryCached c (setReg c x r v) = geometryCached c x := by
  cases r <;> first | exact ⟨rfl, rfl⟩ | cases h

/-! ### Addresses and the geometry table -/

theorem truncWord_lt (c : Config) (v : Word) : (truncWord c v).toNat < 2 ^ c.addrBits := by
  rw [truncWord, BitVec.toNat_ofNat]
  exact lt_of_le_of_lt (Nat.mod_le _ _) (Nat.mod_lt _ (Nat.two_pow_pos _))

/-- `trunc_A` keeps an address. -/
theorem truncWord_of_lt {c : Config} {v : Word} (h : v.toNat < 2 ^ c.addrBits) : truncWord c v = v := by
  rw [truncWord, Nat.mod_eq_of_lt h, BitVec.ofNat_toNat, BitVec.setWidth_eq]

theorem addressesFit_iff {c : Config} {x : Regs} : addressesFit c x = true ↔
    x.srcAddr.toNat < 2 ^ c.addrBits ∧ x.dstAddr.toNat < 2 ^ c.addrBits ∧
      x.glyphAddr.toNat < 2 ^ c.addrBits ∧ x.gBase.toNat < 2 ^ c.addrBits := by
  simp [addressesFit, and_assoc]

/-- A register write cuts an address to `A` bits, whatever was written (rule R22). -/
theorem addressesFit_setReg {c : Config} {x : Regs} (h : addressesFit c x = true) (r : Reg) (v : Word) :
    addressesFit c (setReg c x r v) = true := by
  rw [addressesFit_iff] at h ⊢
  obtain ⟨hs, hd, hg, hb⟩ := h
  have hv := truncWord_lt c v
  cases r <;> exact ⟨by assumption, by assumption, by assumption, by assumption⟩

theorem geomOf_base_lt {c : Config} (hc : c.wf = true) {m : BitVec 2} {g : Geom}
    (hg : geomOf c m = some g) : g.base.toNat < 2 ^ c.addrBits := by
  simp only [Config.wf, Bool.and_eq_true, decide_eq_true_eq] at hc
  obtain ⟨⟨⟨⟨-, hlin⟩, hcga⟩, hherc⟩, -⟩ := hc
  unfold geomOf at hg
  split_ifs at hg <;> cases hg <;> assumption

/-- The Hercules upgrade of rule R201. -/
theorem effectiveMode_upgraded (c : Config) (v : BitVec 16) :
    (!c.hercPresent || effectiveMode c v == 0 || effectiveMode c v == 3) = true := by
  unfold effectiveMode
  split
  · simp
  · rename_i h
    by_cases h0 : v.extractLsb' 0 2 = 0 <;> simp_all

/-! ### The invariant after the shared operations -/

namespace Inv

variable {s : State} (h : Inv s)
include h

/-- The invariant does not speak of the ports, the host's moves or the model's counters. -/
theorem of_eq {t : State} (hx : t.x = s.x) (hh : t.halted = s.halted) (hm : t.mem = s.mem)
    (hc : t.cfg = s.cfg) (hw : t.written = s.written) : Inv t := by
  obtain ⟨h1, h2, h3, h4, h5, h6, h7, h8, h9⟩ := h
  constructor <;> simpa only [hx, hh, hm, hc, hw]

theorem memSet {a : Nat} (ha : a < 2 ^ s.cfg.addrBits) (v : Byte) :
    Inv { s with mem := memSet s.mem a v } :=
  { h with memCanonical := memWf_memSet h.memCanonical a v
           memInRange := memInSpace_memSet h.memInRange a v ha }

theorem raiseError (e : Cause) (info : Word) : Inv (raiseError e info s) :=
  { h with haltedStatus := by cases e <;> rfl
           oneHot := by cases e <;> rfl
           marksNodup := nodup_markWritten _ _ (nodup_markWritten _ _ h.marksNodup) }

/-- A data register takes any value, whether or not the write is marked. -/
theorem setData {r : Reg} (hr : r.isData = true) (v : Word) {w : List Reg} (hw : w.Nodup) :
    Inv { s with x := setReg s.cfg s.x r v, written := w } := by
  obtain ⟨hst, -⟩ := setReg_data_status hr s.cfg s.x v
  obtain ⟨hm, hg⟩ := setReg_data_geometry hr s.cfg s.x v
  exact { cfgWf := h.cfgWf, memCanonical := h.memCanonical, memInRange := h.memInRange
          haltedStatus := hst ▸ h.haltedStatus
          oneHot := hst ▸ h.oneHot
          addresses := addressesFit_setReg h.addresses r v
          geometry := hg.trans h.geometry
          upgraded := by simpa only [hercUpgraded, hm] using h.upgraded
          marksNodup := hw }

/-- A MODE write sets MODE and the cache together. -/
theorem modeWrite (v : BitVec 16) : Inv (modeWrite v s) := by
  have ha := addressesFit_setReg h.addresses .mode ((effectiveMode s.cfg v).setWidth 32)
  rw [addressesFit_iff] at ha
  obtain ⟨hs, hd, hg, -⟩ := ha
  have hw := nodup_markWritten .mode _ h.marksNodup
  have hu : hercUpgraded s.cfg
      (writeReg .mode ((effectiveMode s.cfg v).setWidth 32) s).x = true := by
    simpa [hercUpgraded, setReg] using effectiveMode_upgraded s.cfg v
  rcases modeWrite_cases v s with ⟨g, hgeom, e⟩ | ⟨hgeom, e⟩ <;> rw [e]
  · have hb := geomOf_base_lt h.cfgWf hgeom
    exact { cfgWf := h.cfgWf, memCanonical := h.memCanonical, memInRange := h.memInRange
            haltedStatus := h.haltedStatus, oneHot := h.oneHot
            addresses := addressesFit_iff.mpr ⟨hs, hd, hg, truncWord_lt _ _⟩
            geometry := by simp [geometryCached, setReg, hgeom, truncWord_of_lt hb]
            upgraded := hu
            marksNodup := by
              rw [loadGeometry_eq_writeReg]
              exact nodup_markWritten _ _ (nodup_markWritten _ _ (nodup_markWritten _ _
                (nodup_markWritten _ _ (nodup_markWritten _ _ hw)))) }
  · exact { cfgWf := h.cfgWf, memCanonical := h.memCanonical, memInRange := h.memInRange
            haltedStatus := h.haltedStatus, oneHot := h.oneHot
            addresses := addressesFit_iff.mpr ⟨hs, hd, hg, truncWord_lt _ _⟩
            geometry := by simp [geometryCached, setReg, hgeom]
            upgraded := hu
            marksNodup := nodup_markUnwritten _ _ (nodup_markUnwritten _ _ (nodup_markUnwritten _ _
              (nodup_markUnwritten _ _ (nodup_markUnwritten _ _ hw)))) }

end Inv

/-- Registers at their reset values, canonical memory in the space: the invariant, whatever stood before. -/
theorem inv_of_reset {s : State} (hx : s.x = Regs.reset) (hh : s.halted = false) (hw : s.written = [])
    (hc : s.cfg.wf = true) (hm : memWf s.mem = true) (hin : memInSpace s.cfg s.mem = true) : Inv s where
  cfgWf := hc
  memCanonical := hm
  memInRange := hin
  haltedStatus := by rw [hx, hh]; rfl
  oneHot := by rw [hx]; rfl
  addresses := by rw [hx, addressesFit_iff]; simp [Regs.reset]
  geometry := by rw [hx]; rfl
  upgraded := by rw [hx]; simp [hercUpgraded, Regs.reset]
  marksNodup := by rw [hw]; exact List.nodup_nil

/-! ### The invariant after a command and after a move -/

/-- The invariant under given parameters. -/
def InvUnder (c : Config) (s : State) : Prop := Inv s ∧ s.cfg = c

theorem invUnder_byteClosed (c : Config) : ByteClosed (InvUnder c) where
  bus _ _ h := ⟨h.1.of_eq rfl rfl rfl rfl rfl, h.2⟩
  set _ _ v _ ha h := ⟨(h.1.memSet ha v).of_eq rfl rfl rfl rfl rfl, h.2⟩
  free _ h := ⟨h.1.of_eq rfl rfl rfl rfl rfl, h.2⟩
  err _ info h := ⟨h.1.raiseError _ info, h.2⟩

theorem exec_keeps_invUnder {c : Config} {i : Instr} {s t : State} (hs : InvUnder c s)
    (h : exec i s = .next t) : InvUnder c t :=
  exec_keeps_of_data (InvUnder c) (invUnder_byteClosed c)
    (fun e info _ h => ⟨h.1.raiseError e info, h.2⟩)
    (fun r v _ hr h => ⟨h.1.setData hr v (nodup_markWritten r _ h.1.marksNodup), h.2⟩)
    (fun _ v _ hr h => ⟨h.1.setData hr v h.1.marksNodup, h.2⟩)
    (fun v s h => ⟨h.1.modeWrite v, (modeWrite_cfg v s).trans h.2⟩) hs h

theorem issue_keeps_invUnder {c : Config} {w : Word} {s t : State} (hs : InvUnder c s)
    (h : issue w s = .next t) : InvUnder c t := by
  have ha : InvUnder c (accept s) := ⟨hs.1.of_eq rfl rfl rfl rfl rfl, hs.2⟩
  unfold issue at h
  split at h
  · cases h; exact ha
  · split at h
    · exact exec_keeps_invUnder ha h
    · cases h; exact ⟨ha.1.raiseError _ _, ha.2⟩

theorem makeMove_keeps_invUnder {c : Config} {m : HostMove} {s t : State} (hs : InvUnder c s)
    (h : makeMove m s = .next t) : InvUnder c t := by
  cases m with
  | reset =>
    cases h
    exact ⟨inv_of_reset rfl rfl rfl hs.1.cfgWf hs.1.memCanonical hs.1.memInRange, hs.2⟩
  | command w => exact issue_keeps_invUnder hs h
  | readRegister idx => cases h; exact ⟨hs.1.of_eq rfl rfl rfl rfl rfl, hs.2⟩
  | readMemory a =>
    simp only [makeMove] at h
    split at h <;> cases h
    exact ⟨hs.1.of_eq rfl rfl rfl rfl rfl, hs.2⟩
  | writeMemory a v =>
    simp only [makeMove] at h
    split at h <;> cases h
    rename_i hr
    have ha : a < 2 ^ s.cfg.addrBits := by
      simp only [hostReaches, Bool.and_eq_true, decide_eq_true_eq] at hr
      exact hr.1
    exact ⟨hs.1.memSet ha v, hs.2⟩

/-- Settles O58, by the host's next move. -/
theorem everyStepKeepsTheInvariant : Obligations.EveryStepKeepsTheInvariant := by
  intro s t hs h
  unfold step at h
  split at h
  · cases h; exact ⟨hs, rfl⟩
  · rename_i rest hmoves
    have hs' : InvUnder s.cfg { s with moves := rest } := ⟨hs.of_eq rfl rfl rfl rfl rfl, rfl⟩
    exact makeMove_keeps_invUnder hs' h

end Sys2Proof.Machine
end

section
/-! PROOFS. O48, O49, O50, O52: which registers a command leaves alone, and the error items. -/

namespace Sys2Proof.Machine

/-! ### One register kept by a command -/

/-- A byte access changes no register, and a bus error STATUS and FAULT_INFO only. -/
theorem readReg_byteClosed {reg : Reg} (hst : reg ≠ .status) (hfi : reg ≠ .faultInfo) (u : Word) :
    ByteClosed fun s => readReg s.x reg = u where
  bus _ _ h := h
  set _ _ _ _ _ h := h
  free _ h := h
  err s info h := (readReg_raiseError hst hfi .busError info s).trans h

/-- A command keeps every register but those of an error entry, unless its own rule writes it: RESULT, XD
under PRINT, the operand of SETL or SETH, MODE and the cache at a MODE write. -/
theorem exec_keeps_readReg {i : Instr} {s t : State} {reg : Reg} (h : exec i s = .next t)
    (hst : reg ≠ .status) (hfi : reg ≠ .faultInfo) (hres : reg = .result → ¬ WritesResult i)
    (hxd : reg = .xd → ∀ k ch, i ≠ .print k ch)
    (hset : reg.unitOnly = false → reg ≠ .mode → ∀ r imm, i ≠ .setl r imm ∧ i ≠ .seth r imm)
    (hgeom : reg = .mode ∨ reg.isCache = true → ∀ imm, i ≠ .setl 18 imm) :
    readReg t.x reg = readReg s.x reg := by
  refine exec_keeps (fun s' => readReg s'.x reg = readReg s.x reg) (readReg_byteClosed hst hfi _)
    (fun e info s' hs => (readReg_raiseError hst hfi e info s').trans hs) i s t ?result ?xd ?setl ?mode
    ?seth rfl h
  case result =>
    intro hw v s' hs
    exact (readReg_writeReg_ne (fun e => hres e hw) v s').trans hs
  case xd =>
    rintro ⟨k, ch, hi⟩ v s' hs
    exact (readReg_writeReg_ne (fun e => hxd e k ch hi) v s').trans hs
  case setl =>
    intro r imm reg' hi _ hu hm
    refine readReg_writeReg_ne (fun e => ?_) _ s
    subst e
    exact (hset hu hm r imm).1 hi
  case mode =>
    intro imm hi
    have hg : ¬ (reg = .mode ∨ reg.isCache = true) := fun hr => hgeom hr imm hi
    rw [not_or, Bool.not_eq_true] at hg
    exact readReg_modeWrite hg.1 hg.2 imm s
  case seth =>
    intro r imm reg' hi _ ha
    refine readReg_setReg_ne _ _ _ _ _ fun e => ?_
    subst e
    obtain ⟨hu, hm⟩ := Reg.unitOnly_of_isAddress ha
    exact (hset hu hm r imm).2 hi

/-- Settles O48: each of the six registers by `exec_keeps_readReg`. -/
theorem geometryChangesOnlyAtAModeWrite : Obligations.GeometryChangesOnlyAtAModeWrite := by
  intro i s t h hi
  have keep : ∀ reg : Reg, reg = .mode ∨ reg.isCache = true → readReg t.x reg = readReg s.x reg := by
    intro reg hr
    refine exec_keeps_readReg h ?_ ?_ ?_ ?_ (fun hu hm => ?_) fun _ => hi
    case refine_5 =>
      have hc := Reg.unitOnly_of_isCache (hr.resolve_left hm)
      simp [hu] at hc
    all_goals
      rintro rfl
      exact absurd hr (by decide)
  exact ⟨(setWidth_word_inj (by decide)).mp (keep .mode (.inl rfl)), keep .gBase (.inr rfl),
    (setWidth_word_inj (by decide)).mp (keep .gStride (.inr rfl)),
    (setWidth_word_inj (by decide)).mp (keep .gIlv (.inr rfl)),
    (setWidth_word_inj (by decide)).mp (keep .gYmult (.inr rfl)),
    (setWidth_word_inj (by decide)).mp (keep .gYdiv (.inr rfl))⟩

/-- Settles O49: a register of the host is none that an error entry or a scalar command writes. -/
theorem operandRegistersAreTheHosts : Obligations.OperandRegistersAreTheHosts := by
  intro i s t reg h hu hi hxd
  refine exec_keeps_readReg h ?_ ?_ ?_ hxd (fun _ _ => hi) fun _ imm => (hi 18 imm).1 <;>
    · rintro rfl
      cases hu

/-- Settles O50. -/
theorem resultIsWrittenByScalarCommandsOnly : Obligations.ResultIsWrittenByScalarCommandsOnly := by
  intro i s t h hget hcomp hmap
  have hw : ¬ WritesResult i := by
    rintro (⟨k, e⟩ | ⟨d, b, m, e⟩ | e)
    · exact hget k e
    · exact hcomp d b m e
    · exact hmap e
  exact exec_keeps_readReg (reg := .result) h (by decide) (by decide) (fun _ => hw) nofun nofun
    fun hr => absurd hr (by decide)

/-! ### The error items -/

/-- STATUS, FAULT_INFO and HALTED are the same in both states. -/
def SameErrorItems (s t : State) : Prop :=
  t.x.status = s.x.status ∧ t.x.faultInfo = s.x.faultInfo ∧ t.halted = s.halted

/-- An error entry has ended the command: HALTED, and one bit of STATUS. -/
def EndedAtError (t : State) : Prop :=
  t.halted = true ∧ (t.x.status = 0b001 ∨ t.x.status = 0b010 ∨ t.x.status = 0b100)

theorem endedAtError_raiseError (e : Cause) (info : Word) (s : State) :
    EndedAtError (raiseError e info s) := by
  cases e
  · exact ⟨rfl, .inl rfl⟩
  · exact ⟨rfl, .inr (.inl rfl)⟩
  · exact ⟨rfl, .inr (.inr rfl)⟩

/-- What leaves the error items alone leaves open how the command has ended so far. -/
theorem errorItems_trans {s u u' : State} (he : SameErrorItems u u')
    (h : SameErrorItems s u ∨ EndedAtError u) : SameErrorItems s u' ∨ EndedAtError u' := by
  obtain ⟨hs, hf, hh⟩ := he
  rcases h with ⟨hs', hf', hh'⟩ | ⟨hh', hs'⟩
  · exact .inl ⟨hs.trans hs', hf.trans hf', hh.trans hh'⟩
  · exact .inr ⟨hh.trans hh', hs ▸ hs'⟩

theorem sameErrorItems_modeWrite (v : BitVec 16) (s : State) : SameErrorItems s (modeWrite v s) :=
  ⟨(setWidth_word_inj (by decide)).mp (readReg_modeWrite (r := .status) (by decide) rfl v s),
    readReg_modeWrite (r := .faultInfo) (by decide) rfl v s, modeWrite_halted v s⟩

/-- Settles O52: data writes and byte accesses leave the error items alone, and an error entry sets them. -/
theorem commandRaisesAtMostOneError : Obligations.CommandRaisesAtMostOneError := by
  intro i s t h
  have data : ∀ (r : Reg) (v : Word) (u : State), r.isData = true →
      SameErrorItems u (writeReg r v u) := fun r v u hr =>
    have ⟨hs, hf⟩ := setReg_data_status hr u.cfg u.x v
    ⟨hs, hf, rfl⟩
  have bytes : ByteClosed fun u => SameErrorItems s u ∨ EndedAtError u :=
    { bus := fun _ _ h => h
      set := fun _ _ _ _ _ h => h
      free := fun _ h => h
      err := fun u info _ => .inr (endedAtError_raiseError .busError info u) }
  exact exec_keeps_of_data (fun u => SameErrorItems s u ∨ EndedAtError u) bytes
    (fun e info u _ => .inr (endedAtError_raiseError e info u))
    (fun r v u hr => errorItems_trans (data r v u hr))
    (fun r v u hr => errorItems_trans (data r v u hr))
    (fun v u => errorItems_trans (sameErrorItems_modeWrite v u)) (.inl ⟨rfl, rfl, rfl⟩) h

end Sys2Proof.Machine
end

section
/-! PROOFS. O54, O55, O56, O57: the host's own moves, and the state right after reset. -/

namespace Sys2Proof.Machine

/-- With a move pending a step is that move (rule R36). -/
theorem step_move {s : State} {m : HostMove} {rest : List HostMove} (h : s.moves = m :: rest) :
    step s = makeMove m { s with moves := rest } := by
  simp [step, h]

/-- Settles O54. -/
theorem resetGivesTheStatedValues : Obligations.ResetGivesTheStatedValues := by
  intro s rest h
  exact ⟨assertReset { s with moves := rest }, step_move h, rfl, rfl, rfl, rfl, rfl, rfl, rfl, rfl, rfl,
    fun r hr => List.not_mem_nil hr⟩

/-- The indices 0..26 name registers. -/
theorem regOfIndex_of_lt {idx : BitVec 5} (h : idx.toNat < 27) : ∃ reg, regOfIndex idx = some reg := by
  have all : ∀ idx : BitVec 5, idx.toNat < 27 → (regOfIndex idx).isSome = true := by decide
  exact Option.isSome_iff_exists.mp (all idx h)

/-- The indices 27..31 are reserved. -/
theorem regOfIndex_of_ge {idx : BitVec 5} (h : 27 ≤ idx.toNat) : regOfIndex idx = none := by
  have all : ∀ idx : BitVec 5, 27 ≤ idx.toNat → regOfIndex idx = none := by decide
  exact all idx h

/-- A register reads below two to its width (rule R22); an address where the address registers fit. -/
theorem readReg_lt_two_pow_regWidth {c : Config} {x : Regs} (h : addressesFit c x = true) (reg : Reg) :
    (readReg x reg).toNat < 2 ^ regWidth c reg := by
  obtain ⟨hs, hd, hg, hb⟩ := addressesFit_iff.mp h
  have narrow : ∀ {n : Nat} (b : BitVec n), (b.setWidth 32).toNat < 2 ^ n := fun b =>
    lt_of_le_of_lt (by rw [BitVec.toNat_setWidth]; exact Nat.mod_le _ _) b.isLt
  cases reg <;> first | assumption | exact narrow _ | exact BitVec.isLt _

/-- Settles O55. -/
theorem hostReadsRegistersWithoutSideEffect : Obligations.HostReadsRegistersWithoutSideEffect := by
  intro s idx rest h
  constructor
  · intro hidx
    obtain ⟨reg, hreg⟩ := regOfIndex_of_lt hidx
    refine ⟨reg, hreg, ?_, fun ha => readReg_lt_two_pow_regWidth ha reg⟩
    rw [step_move h]
    simp only [makeMove, readPort, hreg]
  · intro hidx
    rw [step_move h]
    simp only [makeMove, readPort, regOfIndex_of_ge hidx]

/-- Settles O56. -/
theorem hostWritesAreSeenByTheBlock : Obligations.HostWritesAreSeenByTheBlock := by
  intro s a v rest hwf h ha hv
  have hreach : hostReaches s.cfg a = true := by simp [hostReaches, ha, hv]
  have hbyte : memByte (memSet s.mem a v) a = v := memByte_memSet_self hwf a v
  have htrunc : truncA s.cfg a = a := by rw [truncA_natCast, Nat.mod_eq_of_lt ha]
  refine ⟨{ s with moves := rest, mem := memSet s.mem a v }, ?_, rfl, hbyte,
    fun b hb => memByte_memSet_ne _ _ _ _ hb, ?_⟩
  · rw [step_move h]
    simp only [makeMove, hreach, if_true]
  · rw [memRead_valid (by simpa only [htrunc] using hv)]
    simp only [htrunc, hbyte]

/-- Settles O57. -/
theorem resetMeetsTheInvariant : Obligations.ResetMeetsTheInvariant :=
  ⟨inv_of_reset rfl rfl rfl (by decide) rfl rfl, fun _ _ hc hm hin => inv_of_reset rfl rfl rfl hc hm hin⟩

end Sys2Proof.Machine
end

section
/-! PROOFS. O11, O46, O47, O51: byte accesses, memory contents, and the commands that reach no memory. -/

namespace Sys2Proof.Machine

/-- Settles O11: the two accesses at a populated and at a refused address. -/
theorem byteAccessHappensOrRaisesBusError : Obligations.ByteAccessHappensOrRaisesBusError :=
  fun _ _ _ => ⟨fun h => ⟨memRead_valid h, memWrite_valid h⟩,
    fun h => ⟨memRead_refused h, memWrite_refused h⟩⟩

/-- Settles O46. -/
theorem readAfterWriteGivesTheByte : Obligations.ReadAfterWriteGivesTheByte :=
  fun _ a b v h => ⟨memByte_memSet h a b v, memWf_memSet h a v⟩

/-- Settles O47. -/
theorem canonicalMemoriesAreEqualWhenTheirBytesAre :
    Obligations.CanonicalMemoriesAreEqualWhenTheirBytesAre :=
  fun _ _ => mem_ext

/-- The five COMPOSE rows are one meaning with the draw mode as a parameter (rule R98). -/
theorem exec_composeRow (d b : Byte) (m : DrawMode) (s : State) :
    exec (composeRow d b m) s = .next (composeResult m d b s) := by
  cases m <;> rfl

/-- From `s` to `t` no byte was read or written: memory and the memory port are the same. -/
def NoAccess (s t : State) : Prop := t.mem = s.mem ∧ t.bus = s.bus

theorem noAccess_execSetl {r : BitVec 5} {imm : BitVec 16} {s t : State}
    (h : execSetl r imm s = .next t) : NoAccess s t := by
  cases hreg : regOfIndex r with
  | none =>
    simp only [execSetl, hreg] at h
    cases h
    exact ⟨rfl, rfl⟩
  | some reg =>
    simp only [execSetl, hreg] at h
    split_ifs at h <;> cases h
    · exact ⟨rfl, rfl⟩
    · exact ⟨modeWrite_mem imm s, modeWrite_bus imm s⟩
    · exact ⟨rfl, rfl⟩

theorem noAccess_execSeth {r : BitVec 5} {imm : BitVec 16} {s t : State}
    (h : execSeth r imm s = .next t) : NoAccess s t := by
  cases hreg : regOfIndex r with
  | none =>
    simp only [execSeth, hreg] at h
    cases h
    exact ⟨rfl, rfl⟩
  | some reg =>
    simp only [execSeth, hreg] at h
    split_ifs at h <;> cases h <;> exact ⟨rfl, rfl⟩

theorem noAccess_execMapaddr {s t : State} (h : execMapaddr s = .next t) : NoAccess s t :=
  onKind_keeps (NoAccess s) (fun _ _ _ hs => hs) .surf _ s t _ ⟨rfl, rfl⟩ ⟨rfl, rfl⟩ h

/-- GETPIX reads a byte and writes RESULT (rule R138). -/
theorem execGetpix_mem {k : Kind} {s t : State} (h : execGetpix k s = .next t) : t.mem = s.mem := by
  refine onKind_keeps (fun u => u.mem = s.mem) (fun _ _ _ hs => hs) k _ s t _ rfl ?_ h
  exact Flow.state_bind (fun u => u.mem = s.mem) _ _
    (memRead_state (fun u => u.mem = s.mem) _ s (fun _ => rfl) fun _ => rfl) fun _ _ hs => hs

/-- Settles O51, command by command. -/
theorem scalarCommandsLeaveMemoryAlone : Obligations.ScalarCommandsLeaveMemoryAlone := by
  intro i s t h
  constructor
  · rintro (rfl | rfl | ⟨r, imm, rfl | rfl⟩ | ⟨d, b, m, rfl⟩)
    · cases h; exact ⟨rfl, rfl⟩
    · exact noAccess_execMapaddr h
    · exact noAccess_execSetl h
    · exact noAccess_execSeth h
    · rw [exec_composeRow] at h
      cases h
      exact ⟨rfl, rfl⟩
  · rintro ⟨k, rfl⟩
    exact execGetpix_mem h

end Sys2Proof.Machine
end

section
/-! PROOFS. O37: two runs from registers that differ in the low two bits of columns and widths only.  Every
address and every count takes a column or a width divided by 4, so the runs make the same accesses. -/

namespace Sys2Proof.Machine

/-- `y` differs from `x` in the low two bits of XD, XS, W, SRC_W and DST_W at most (rule R68). -/
structure SameColumns (x y : Regs) : Prop where
  xd   : y.xd.toNat / 4 = x.xd.toNat / 4
  xs   : y.xs.toNat / 4 = x.xs.toNat / 4
  w    : y.w.toNat / 4 = x.w.toNat / 4
  srcW : y.srcW.toNat / 4 = x.srcW.toNat / 4
  dstW : y.dstW.toNat / 4 = x.dstW.toNat / 4
  rest : y = { x with xd := y.xd, xs := y.xs, w := y.w, srcW := y.srcW, dstW := y.dstW }

/-! ### Addresses and counts -/

section

variable {x y : Regs} (h : SameColumns x y)
include h

theorem surfAddr_sameColumns {px px' : Nat} (hp : px' / 4 = px / 4) (py : Nat) :
    surfAddr y px' py = surfAddr x px py := by
  rw [h.rest]
  simp only [surfAddr, scaledRow, hp]

theorem srcRow_sameColumns (k : Kind) {px px' : Nat} (hp : px' / 4 = px / 4) (py : Nat) :
    srcRow y k px' py = srcRow x k px py := by
  cases k with
  | buf =>
    have ha : y.srcAddr = x.srcAddr := by rw [h.rest]
    simp only [srcRow, bufAddr, ha, hp, h.srcW]
  | surf => exact surfAddr_sameColumns h hp py

theorem dstRow_sameColumns (k : Kind) {px px' : Nat} (hp : px' / 4 = px / 4) (py : Nat) :
    dstRow y k px' py = dstRow x k px py := by
  cases k with
  | buf =>
    have ha : y.dstAddr = x.dstAddr := by rw [h.rest]
    simp only [dstRow, bufAddr, ha, hp, h.dstW]
  | surf => exact surfAddr_sameColumns h hp py

/-- The operands of PUT name the same bytes, from the registers and with FULL (rule R153). -/
theorem regionOperands_sameColumns (full : Bool) :
    (regionOperands y full).rows = (regionOperands x full).rows ∧
      (regionOperands y full).py = (regionOperands x full).py ∧
      (regionOperands y full).cols / 4 = (regionOperands x full).cols / 4 ∧
      (regionOperands y full).px / 4 = (regionOperands x full).px / 4 := by
  cases full with
  | true => exact ⟨by rw [h.rest]; rfl, rfl, h.srcW, rfl⟩
  | false => exact ⟨by rw [h.rest]; rfl, by rw [h.rest]; rfl, h.w, h.xs⟩

end

/-! ### States -/

/-- `s'` is `s` but for the low two bits of columns and widths. -/
def SameButColumns (s s' : State) : Prop := ∃ y, s' = { s with x := y } ∧ SameColumns s.x y

theorem SameButColumns.regs {s s' : State} (h : SameButColumns s s') : SameColumns s.x s'.x := by
  obtain ⟨y, rfl, hy⟩ := h
  exact hy

theorem SameButColumns.raiseError {s s' : State} (h : SameButColumns s s') (e : Cause) (info : Word) :
    SameButColumns (raiseError e info s) (raiseError e info s') := by
  obtain ⟨y, rfl, hy⟩ := h
  refine ⟨{ y with status := e.statusBit, faultInfo := info }, rfl, ?_⟩
  exact { xd := hy.xd, xs := hy.xs, w := hy.w, srcW := hy.srcW, dstW := hy.dstW
          rest := congrArg (fun z => { z with status := e.statusBit, faultInfo := info }) hy.rest }

theorem sameButColumns_twinClosed : TwinClosed SameButColumns where
  cfg := by rintro s _ ⟨y, rfl, -⟩; rfl
  mem := by rintro s _ ⟨y, rfl, -⟩; rfl
  bus := by rintro s _ ⟨y, rfl, -⟩; rfl
  free := by rintro s _ ⟨y, rfl, -⟩; rfl
  turn := by rintro s _ m b n ⟨y, rfl, hy⟩; exact ⟨y, rfl, hy⟩
  err _ _ e info h := h.raiseError e info

/-- PRINT's advance by one byte of pixels leaves the low two bits as they are (rule R183). -/
theorem SameButColumns.advanceXd {s s' : State} (h : SameButColumns s s') {a b : BitVec 16}
    (hab : b.toNat / 4 = a.toNat / 4) :
    SameButColumns (writeReg .xd ((a + 4).setWidth 32) s) (writeReg .xd ((b + 4).setWidth 32) s') := by
  obtain ⟨y, rfl, hy⟩ := h
  refine ⟨setReg s.cfg y .xd ((b + 4).setWidth 32), rfl, ?_⟩
  have hxd : (((b + 4).setWidth 32).setWidth 16).toNat / 4
      = (((a + 4).setWidth 32).setWidth 16).toNat / 4 := by
    have h4 : (4 : BitVec 16).toNat = 4 := rfl
    simp only [BitVec.toNat_setWidth, BitVec.toNat_add, h4]
    omega
  exact { xd := hxd, xs := hy.xs, w := hy.w, srcW := hy.srcW, dstW := hy.dstW
          rest := congrArg (fun z => { z with xd := ((b + 4).setWidth 32).setWidth 16 }) hy.rest }

/-! ### The four commands -/

section

variable {s s' t : State} (h : SameButColumns s s') (k : Kind)
include h

/-- MODE and the geometry cache are the same, so NoSurface is raised in both states or in neither. -/
theorem SameButColumns.onKind {c : Word} {p p' : Flow Unit} (hp : Flow.Twin SameButColumns p p')
    (h1 : onKind k c s p = .next t) : ∃ t', onKind k c s' p' = .next t' ∧ SameButColumns t t' :=
  onKind_twin sameButColumns_twinClosed k c h (by rw [h.regs.rest])
    (fun _ _ => by rw [h.regs.rest]; rfl) hp h1

theorem putRegion_sameColumns (m : DrawMode) (full : Bool) :
    Flow.Twin SameButColumns (putRegion m full k s) (putRegion m full k s') := by
  obtain ⟨hrows, hpy, hcols, hpx⟩ := regionOperands_sameColumns h.regs full
  have hyd : s'.x.yd = s.x.yd := by rw [h.regs.rest]
  simp only [putRegion, hrows, hpy, hcols, hyd, srcRow_sameColumns h.regs .buf hpx,
    dstRow_sameColumns h.regs k h.regs.xd]
  exact forUpTo_twin _ h fun _ _ _ _ h => forUpTo_twin _ h fun _ _ _ _ h =>
    sameButColumns_twinClosed.putByte h m _ _

theorem getRegion_sameColumns : Flow.Twin SameButColumns (getRegion k s) (getRegion k s') := by
  obtain ⟨ha, hh, hys⟩ : s'.x.dstAddr = s.x.dstAddr ∧ s'.x.dstH = s.x.dstH ∧ s'.x.ys = s.x.ys := by
    rw [h.regs.rest]
    exact ⟨rfl, rfl, rfl⟩
  simp only [getRegion, bufAddr, ha, hh, hys, h.regs.dstW, srcRow_sameColumns h.regs k h.regs.xs]
  exact forUpTo_twin _ h fun _ _ _ _ h => forUpTo_twin _ h fun _ _ _ _ h =>
    sameButColumns_twinClosed.copyByte h _ _

theorem fillRegion_sameColumns : Flow.Twin SameButColumns (fillRegion k s) (fillRegion k s') := by
  obtain ⟨hh, hink, hyd⟩ : s'.x.h = s.x.h ∧ s'.x.ink = s.x.ink ∧ s'.x.yd = s.x.yd := by
    rw [h.regs.rest]
    exact ⟨rfl, rfl, rfl⟩
  simp only [fillRegion, hh, hink, hyd, h.regs.w, dstRow_sameColumns h.regs k h.regs.xd]
  exact forUpTo_twin _ h fun _ _ _ _ h => forUpTo_twin _ h fun _ _ _ _ h =>
    sameButColumns_twinClosed.colourWrite h _ _ _

theorem printGlyph_sameColumns (ch : Byte) :
    Flow.Twin SameButColumns (printGlyph k ch s) (printGlyph k ch s') := by
  obtain ⟨hink, hpaper, hyd⟩ : s'.x.ink = s.x.ink ∧ s'.x.paper = s.x.paper ∧ s'.x.yd = s.x.yd := by
    rw [h.regs.rest]
    exact ⟨rfl, rfl, rfl⟩
  have hglyph : glyphAddr s'.x = glyphAddr s.x := by rw [h.regs.rest]; rfl
  simp only [printGlyph, printedByte, hglyph, hink, hpaper, hyd,
    dstRow_sameColumns h.regs k h.regs.xd]
  exact forUpTo_twin _ h fun _ _ _ _ h =>
    (sameButColumns_twinClosed.read h _).bind fun _ _ _ h => sameButColumns_twinClosed.colourWrite h _ _ _

theorem execPrint_sameColumns (ch : Byte) (h1 : execPrint k ch s = .next t) :
    ∃ t', execPrint k ch s' = .next t' ∧ SameButColumns t t' := by
  refine h.onKind k ?_ h1
  have hctrl : s'.x.ctrl = s.x.ctrl := by rw [h.regs.rest]
  rw [hctrl]
  split
  · exact ⟨rfl, h⟩
  · exact (printGlyph_sameColumns h k ch).bind fun _ _ _ hu => ⟨rfl, hu.advanceXd h.regs.xd⟩

end

/-- The five PUT rows are one meaning with the draw mode as a parameter (rule R98). -/
theorem exec_putRow (full : Bool) (k : Kind) (m : DrawMode) (s : State) :
    exec (putRow full k m) s = onKind k (encode (putRow full k m)) s (putRegion m full k s) := by
  cases m <;> rfl

/-- The four region commands end alike from states that are the same but for the low bits of columns. -/
theorem exec_sameColumns {s s' t : State} (h : SameButColumns s s') {i : Instr} {k : Kind} {full : Bool}
    {m : DrawMode} {ch : Byte} (hi : i = putRow full k m ∨ i = .get k ∨ i = .fill k ∨ i = .print k ch)
    (h1 : exec i s = .next t) : ∃ t', exec i s' = .next t' ∧ SameButColumns t t' := by
  rcases hi with rfl | rfl | rfl | rfl
  · rw [exec_putRow] at h1 ⊢
    exact h.onKind k (putRegion_sameColumns h k m full) h1
  · exact h.onKind k (getRegion_sameColumns h k) h1
  · exact h.onKind k (fillRegion_sameColumns h k) h1
  · exact execPrint_sameColumns h k ch h1

/-- Settles O37: the two next states are the same but for columns and widths. -/
theorem lowColumnBitsAreIgnored : Obligations.LowColumnBitsAreIgnored := by
  intro s t t' i k full m ch xd xs w srcW dstW hi hxd hxs hw hsrcW hdstW h1 h2
  have hy : SameColumns s.x { s.x with xd := xd, xs := xs, w := w, srcW := srcW, dstW := dstW } :=
    ⟨hxd, hxs, hw, hsrcW, hdstW, rfl⟩
  obtain ⟨u, hu, hR⟩ := exec_sameColumns ⟨_, rfl, hy⟩ hi h1
  rw [h2] at hu
  cases hu
  exact ⟨sameButColumns_twinClosed.mem _ _ hR, sameButColumns_twinClosed.bus _ _ hR,
    by rw [hR.regs.rest]⟩

end Sys2Proof.Machine
end

section
/-! PROOFS. O5: the decoder inverts the encoder, and four bytes put together again are the word. -/

namespace Sys2Proof

/-! ### Decoding an encoded command -/

/-- A format whose must-be-zero bits are clear answers its command. -/
theorem plainFormat_of_clear {a aMask : BitVec 8} {imm immMask : BitVec 16} (ha : a &&& aMask = 0)
    (himm : imm &&& immMask = 0) (i : Instr) : plainFormat a aMask imm immMask i = .ok i := by
  simp [plainFormat, mbzClear, ha, himm]

/-- A format with a draw mode answers the row of its mode. -/
theorem modeFormat_of_clear {a aMask : BitVec 8} {imm immMask : BitVec 16} {m : DrawMode}
    (ha : a &&& aMask = 0) (himm : imm &&& immMask = 0) (hm : modeField a = some m)
    (row : DrawMode → Instr) : modeFormat a aMask imm immMask row = .ok (row m) := by
  simp [modeFormat, mbzClear, ha, himm, hm]

theorem decode_encodePutpix (m : DrawMode) (k : Kind) (v : Pixel) :
    decode (encodePutpix m k v) = .ok (putpixRow k v m) := by
  have ha : (kindBits k ||| modeBits m) &&& 0xE8 = 0 := by cases k <;> cases m <;> decide
  simpa [decode, encodePutpix] using
    modeFormat_of_clear ha (pixel_mbz v) (modeField_putpix k m) (putpixRow k v)

theorem decode_encodeCompose (m : DrawMode) (d s : Byte) :
    decode (encodeCompose m d s) = .ok (composeRow d s m) := by
  have ha : modeBits m &&& 0xF8 = 0 := by cases m <;> decide
  simpa [decode, encodeCompose] using
    modeFormat_of_clear ha (Laws.WordInRow.imm_free (d ++ s)) (modeField_modeBits m) (composeRow d s)

theorem decode_encodePut (m : DrawMode) (f : Bool) (k : Kind) :
    decode (encodePut m f k) = .ok (putRow f k m) := by
  have ha : (fullBits f ||| kindBits k ||| modeBits m) &&& 0xC8 = 0 := by
    cases f <;> cases k <;> cases m <;> decide
  obtain ⟨hk, hf, hm⟩ := fields_put f k m
  simpa [decode, encodePut, hk, hf] using
    modeFormat_of_clear (immMask := 0xFFFF) ha (by decide) hm (putRow f k)

/-- Decoding the word of a command gives the command, by its row of the opcode map (rules R92, R98). -/
theorem decode_encode (i : Instr) : decode (encode i) = .ok i := by
  cases i with
  | nop => rfl
  | setl r imm =>
    simpa [decode, encode] using
      plainFormat_of_clear (regBits_mbz r) (Laws.WordInRow.imm_free imm) (.setl r imm)
  | seth r imm =>
    simpa [decode, encode] using
      plainFormat_of_clear (regBits_mbz r) (Laws.WordInRow.imm_free imm) (.seth r imm)
  | getpix k => cases k <;> rfl
  | putpixCopy k v => exact decode_encodePutpix .copy k v
  | putpixCopyinv k v => exact decode_encodePutpix .copyInv k v
  | putpixAnd k v => exact decode_encodePutpix .and k v
  | putpixOr k v => exact decode_encodePutpix .or k v
  | putpixXor k v => exact decode_encodePutpix .xor k v
  | composeCopy d s => exact decode_encodeCompose .copy d s
  | composeCopyinv d s => exact decode_encodeCompose .copyInv d s
  | composeAnd d s => exact decode_encodeCompose .and d s
  | composeOr d s => exact decode_encodeCompose .or d s
  | composeXor d s => exact decode_encodeCompose .xor d s
  | mapaddr => rfl
  | putCopy f k => exact decode_encodePut .copy f k
  | putCopyinv f k => exact decode_encodePut .copyInv f k
  | putAnd f k => exact decode_encodePut .and f k
  | putOr f k => exact decode_encodePut .or f k
  | putXor f k => exact decode_encodePut .xor f k
  | get k => cases k <;> rfl
  | fill k => cases k <;> rfl
  | print k ch =>
    simpa [decode, encode] using
      plainFormat_of_clear (Laws.WordInRow.kind_fixed k) (low_byte_mbz ch) (.print k ch)
  | recolor ink paper =>
    simpa [decode, encode] using
      plainFormat_of_clear (aMask := 0xFF) (by decide) (colours_mbz ink paper) (.recolor ink paper)
  | glyphget code =>
    simpa [decode, encode] using
      plainFormat_of_clear (aMask := 0xFF) (by decide) (low_byte_mbz code) (.glyphget code)
  | glyphput code =>
    simpa [decode, encode] using
      plainFormat_of_clear (aMask := 0xFF) (by decide) (low_byte_mbz code) (.glyphput code)

/-! ### Byte streams -/

/-- The bytes of a word, most significant first, are the word. -/
theorem append_bytes (c : Word) :
    c.extractLsb' 24 8 ++ c.extractLsb' 16 8 ++ c.extractLsb' 8 8 ++ c.extractLsb' 0 8 = c := by
  rw [BitVec.extractLsb'_append_extractLsb'_eq_extractLsb' (by decide),
    BitVec.extractLsb'_append_extractLsb'_eq_extractLsb' (by decide),
    BitVec.extractLsb'_append_extractLsb'_eq_extractLsb' (by decide)]
  exact BitVec.extractLsb'_eq_self

/-- A stream that begins with a word's bytes decodes to that word's command and the other bytes. -/
theorem decodeBytes_wordBytes_append {c : Word} {i : Instr} (h : decode c = .ok i) (rest : List Byte) :
    decodeBytes (wordBytes c ++ rest) = .ok (i, rest) := by
  simp [wordBytes, decodeBytes, append_bytes, h]

/-- Settles O5. -/
theorem byteStreamHoldsWordsLowByteFirst : Obligations.ByteStreamHoldsWordsLowByteFirst :=
  fun i rest => decodeBytes_wordBytes_append (decode_encode i) rest

end Sys2Proof
end

section
/-! PROOFS. O1, O2, O3, O6, O8: a row of the opcode map covers exactly the words of its commands, and what a step
makes of a word that is a command and of one that is none. -/

namespace Sys2Proof

/-- Settles O1. -/
theorem decodeOfEncodeIsTheCommand : Obligations.DecodeOfEncodeIsTheCommand := decode_encode

/-! ### The rows of the opcode map, field by field -/

/-- A row with `op` under a full mask covers the words of that `op` whose other fields match the row's. -/
theorem covers_iff_fields {row : OpcodeRow} {c : Word} {op am a : BitVec 8} {im imm : BitVec 16}
    (hmask : row.mask = packWord 0xFF am im) (hpattern : row.pattern = packWord op a imm) :
    row.covers c = true ↔ opField c = op ∧ aField c &&& am = a ∧ immField c &&& im = imm := by
  have hop : opField c &&& 0xFF = opField c := BitVec.and_allOnes
  rw [OpcodeRow.covers, hmask, hpattern, beq_iff_eq, ← packWord_fields c, packWord_and_eq,
    packWord_fields, hop]

section

variable {c : Word}

theorem covers_nop : (Instr.row .nop).covers c = true ↔
    opField c = 0x00 ∧ aField c &&& 0xFF = 0 ∧ immField c &&& 0xFFFF = 0 := covers_iff_fields rfl rfl

theorem covers_setl {r : BitVec 5} {imm : BitVec 16} : (Instr.setl r imm).row.covers c = true ↔
    opField c = 0x01 ∧ aField c &&& 0xE0 = 0 ∧ immField c &&& 0 = 0 := covers_iff_fields rfl rfl

theorem covers_seth {r : BitVec 5} {imm : BitVec 16} : (Instr.seth r imm).row.covers c = true ↔
    opField c = 0x02 ∧ aField c &&& 0xE0 = 0 ∧ immField c &&& 0 = 0 := covers_iff_fields rfl rfl

theorem covers_getpix {k : Kind} : (Instr.getpix k).row.covers c = true ↔
    opField c = 0x10 ∧ aField c &&& 0xEF = 0 ∧ immField c &&& 0xFFFF = 0 := covers_iff_fields rfl rfl

theorem covers_putpix {k : Kind} {v : Pixel} {m : DrawMode} : (putpixRow k v m).row.covers c = true ↔
    opField c = 0x11 ∧ aField c &&& (0xE8 ||| 7) = modeBits m ∧ immField c &&& 0xFFFC = 0 := by
  cases m <;> exact covers_iff_fields rfl rfl

theorem covers_compose {d s : Byte} {m : DrawMode} : (composeRow d s m).row.covers c = true ↔
    opField c = 0x20 ∧ aField c &&& (0xF8 ||| 7) = modeBits m ∧ immField c &&& 0 = 0 := by
  cases m <;> exact covers_iff_fields rfl rfl

theorem covers_mapaddr : (Instr.row .mapaddr).covers c = true ↔
    opField c = 0x30 ∧ aField c &&& 0xFF = 0 ∧ immField c &&& 0xFFFF = 0 := covers_iff_fields rfl rfl

theorem covers_put {f : Bool} {k : Kind} {m : DrawMode} : (putRow f k m).row.covers c = true ↔
    opField c = 0x40 ∧ aField c &&& (0xC8 ||| 7) = modeBits m ∧ immField c &&& 0xFFFF = 0 := by
  cases m <;> exact covers_iff_fields rfl rfl

theorem covers_get {k : Kind} : (Instr.get k).row.covers c = true ↔
    opField c = 0x41 ∧ aField c &&& 0xEF = 0 ∧ immField c &&& 0xFFFF = 0 := covers_iff_fields rfl rfl

theorem covers_fill {k : Kind} : (Instr.fill k).row.covers c = true ↔
    opField c = 0x42 ∧ aField c &&& 0xEF = 0 ∧ immField c &&& 0xFFFF = 0 := covers_iff_fields rfl rfl

theorem covers_print {k : Kind} {ch : Byte} : (Instr.print k ch).row.covers c = true ↔
    opField c = 0x43 ∧ aField c &&& 0xEF = 0 ∧ immField c &&& 0xFF00 = 0 := covers_iff_fields rfl rfl

theorem covers_recolor {ink paper : Pixel} : (Instr.recolor ink paper).row.covers c = true ↔
    opField c = 0x44 ∧ aField c &&& 0xFF = 0 ∧ immField c &&& 0xFFCC = 0 := covers_iff_fields rfl rfl

theorem covers_glyphget {code : Byte} : (Instr.glyphget code).row.covers c = true ↔
    opField c = 0x45 ∧ aField c &&& 0xFF = 0 ∧ immField c &&& 0xFF00 = 0 := covers_iff_fields rfl rfl

theorem covers_glyphput {code : Byte} : (Instr.glyphput code).row.covers c = true ↔
    opField c = 0x46 ∧ aField c &&& 0xFF = 0 ∧ immField c &&& 0xFF00 = 0 := covers_iff_fields rfl rfl

end

/-! ### A command's word is covered by the command's row -/

/-- The draw mode of `a` is the one its low three bits spell (rule R95). -/
theorem modeField_eq_some_iff {a : BitVec 8} {m : DrawMode} :
    modeField a = some m ↔ a &&& 7 = modeBits m := by
  revert a; cases m <;> decide

/-- Where the must-be-zero bits are clear and the mode reads `m`, the row's mask shows `m` alone. -/
theorem and_mask_or_mode {a mask : BitVec 8} {m : DrawMode} (ha : a &&& mask = 0)
    (hm : modeField a = some m) : a &&& (mask ||| 7) = modeBits m := by
  rw [BitVec.and_or_distrib_left, ha, modeField_eq_some_iff.mp hm]
  exact BitVec.zero_or

section

variable {c : Word} {i : Instr} {op aMask : BitVec 8} {immMask : BitVec 16}

/-- What a format without a draw mode answers is in the row that fixes the format's bits. -/
theorem covers_of_plainFormat {j : Instr} (h : plainFormat (aField c) aMask (immField c) immMask j = .ok i)
    (hcovers : j.row.covers c = true ↔
      opField c = op ∧ aField c &&& aMask = 0 ∧ immField c &&& immMask = 0)
    (hop : opField c = op) : i.row.covers c = true := by
  obtain ⟨ha, himm, rfl⟩ := plainFormat_ok h
  exact hcovers.2 ⟨hop, ha, himm⟩

/-- What a format with a draw mode answers is in the row of its mode. -/
theorem covers_of_modeFormat {row : DrawMode → Instr}
    (h : modeFormat (aField c) aMask (immField c) immMask row = .ok i)
    (hcovers : ∀ m, (row m).row.covers c = true ↔
      opField c = op ∧ aField c &&& (aMask ||| 7) = modeBits m ∧ immField c &&& immMask = 0)
    (hop : opField c = op) : i.row.covers c = true := by
  obtain ⟨ha, himm, m, hm, rfl⟩ := modeFormat_ok h
  exact (hcovers m).2 ⟨hop, and_mask_or_mode ha hm, himm⟩

end

/-- The decoder answers a command only for a word the command's row covers. -/
theorem row_covers_of_decode {c : Word} {i : Instr} (h : decode c = .ok i) : i.row.covers c = true := by
  simp only [decode] at h
  obtain ⟨hop, h⟩ | ⟨-, h⟩ := ite_eq_iff.1 h
  · exact covers_of_plainFormat h covers_nop hop
  obtain ⟨hop, h⟩ | ⟨-, h⟩ := ite_eq_iff.1 h
  · exact covers_of_plainFormat h covers_setl hop
  obtain ⟨hop, h⟩ | ⟨-, h⟩ := ite_eq_iff.1 h
  · exact covers_of_plainFormat h covers_seth hop
  obtain ⟨hop, h⟩ | ⟨-, h⟩ := ite_eq_iff.1 h
  · exact covers_of_plainFormat h covers_getpix hop
  obtain ⟨hop, h⟩ | ⟨-, h⟩ := ite_eq_iff.1 h
  · exact covers_of_modeFormat h (fun _ => covers_putpix) hop
  obtain ⟨hop, h⟩ | ⟨-, h⟩ := ite_eq_iff.1 h
  · exact covers_of_modeFormat h (fun _ => covers_compose) hop
  obtain ⟨hop, h⟩ | ⟨-, h⟩ := ite_eq_iff.1 h
  · exact covers_of_plainFormat h covers_mapaddr hop
  obtain ⟨hop, h⟩ | ⟨-, h⟩ := ite_eq_iff.1 h
  · exact covers_of_modeFormat h (fun _ => covers_put) hop
  obtain ⟨hop, h⟩ | ⟨-, h⟩ := ite_eq_iff.1 h
  · exact covers_of_plainFormat h covers_get hop
  obtain ⟨hop, h⟩ | ⟨-, h⟩ := ite_eq_iff.1 h
  · exact covers_of_plainFormat h covers_fill hop
  obtain ⟨hop, h⟩ | ⟨-, h⟩ := ite_eq_iff.1 h
  · exact covers_of_plainFormat h covers_print hop
  obtain ⟨hop, h⟩ | ⟨-, h⟩ := ite_eq_iff.1 h
  · exact covers_of_plainFormat h covers_recolor hop
  obtain ⟨hop, h⟩ | ⟨-, h⟩ := ite_eq_iff.1 h
  · exact covers_of_plainFormat h covers_glyphget hop
  obtain ⟨hop, h⟩ | ⟨-, h⟩ := ite_eq_iff.1 h
  · exact covers_of_plainFormat h covers_glyphput hop
  cases h

/-! ### A word a row covers is the word of a command of that row -/

/-- A word is put together again from its `op` and what is known of its other fields. -/
theorem packWord_eq_word {c : Word} {op a : BitVec 8} {imm : BitVec 16} (hop : opField c = op)
    (ha : a = aField c) (himm : imm = immField c) : packWord op a imm = c := by
  rw [← hop, ha, himm, packWord_fields]

theorem zero_eq_of_and_allOnes {w : Nat} {x : BitVec w} (h : x &&& BitVec.allOnes w = 0) : 0 = x := by
  rw [← h, BitVec.and_allOnes]

theorem regBits_extract {a : BitVec 8} (h : a &&& 0xE0 = 0) : regBits (a.extractLsb' 0 5) = a := by
  revert a; decide

theorem kindBits_kindField {a : BitVec 8} (h : a &&& 0xEF = 0) : kindBits (kindField a) = a := by
  revert a; decide

theorem putpixBits_fields {a : BitVec 8} {m : DrawMode} (h : a &&& (0xE8 ||| 7) = modeBits m) :
    kindBits (kindField a) ||| modeBits m = a := by
  revert a; cases m <;> decide

theorem putBits_fields {a : BitVec 8} {m : DrawMode} (h : a &&& (0xC8 ||| 7) = modeBits m) :
    fullBits (fullField a) ||| kindBits (kindField a) ||| modeBits m = a := by
  revert a; cases m <;> decide

/-- A run of bits that lies under a mask is clear where the masked vector is. -/
theorem extractLsb'_eq_zero_of_mask {w : Nat} {x mask : BitVec w} (h : x &&& mask = 0) (start len : Nat)
    (hmask : mask.extractLsb' start len = BitVec.allOnes len) : x.extractLsb' start len = 0#len := by
  have hx := congrArg (BitVec.extractLsb' start len) h
  rwa [BitVec.extractLsb'_and, hmask, BitVec.and_allOnes, BitVec.ofNat_eq_ofNat,
    BitVec.extractLsb'_zero] at hx

theorem append_bytes_imm (imm : BitVec 16) : imm.extractLsb' 8 8 ++ imm.extractLsb' 0 8 = imm := by
  rw [BitVec.extractLsb'_append_extractLsb'_eq_extractLsb' (by decide)]
  exact BitVec.extractLsb'_eq_self

theorem append_low_byte {imm : BitVec 16} (h : imm &&& 0xFF00 = 0) : 0#8 ++ imm.extractLsb' 0 8 = imm := by
  rw [← extractLsb'_eq_zero_of_mask h 8 8 (by decide)]
  exact append_bytes_imm imm

theorem append_pixel {imm : BitVec 16} (h : imm &&& 0xFFFC = 0) : 0#14 ++ imm.extractLsb' 0 2 = imm := by
  rw [← extractLsb'_eq_zero_of_mask h 2 14 (by decide),
    BitVec.extractLsb'_append_extractLsb'_eq_extractLsb' (by decide)]
  exact BitVec.extractLsb'_eq_self

theorem append_colours {imm : BitVec 16} (h : imm &&& 0xFFCC = 0) :
    0#10 ++ imm.extractLsb' 4 2 ++ 0#2 ++ imm.extractLsb' 0 2 = imm := by
  rw [← extractLsb'_eq_zero_of_mask h 6 10 (by decide), ← extractLsb'_eq_zero_of_mask h 2 2 (by decide),
    BitVec.extractLsb'_append_extractLsb'_eq_extractLsb' (by decide),
    BitVec.extractLsb'_append_extractLsb'_eq_extractLsb' (by decide),
    BitVec.extractLsb'_append_extractLsb'_eq_extractLsb' (by decide)]
  exact BitVec.extractLsb'_eq_self

theorem encode_putpixRow (k : Kind) (v : Pixel) (m : DrawMode) :
    encode (putpixRow k v m) = encodePutpix m k v := by cases m <;> rfl

theorem encode_composeRow (d s : Byte) (m : DrawMode) :
    encode (composeRow d s m) = encodeCompose m d s := by cases m <;> rfl

theorem encode_putRow (f : Bool) (k : Kind) (m : DrawMode) :
    encode (putRow f k m) = encodePut m f k := by cases m <;> rfl

/-- The word `c` is a command word of the row of `i`, whatever operands it carries. -/
def IsWordOfRow (c : Word) (i : Instr) : Prop := ∃ j : Instr, j.row = i.row ∧ encode j = c

theorem isWordOfRow_putpix {c : Word} {k : Kind} {v : Pixel} (m : DrawMode)
    (h : (putpixRow k v m).row.covers c = true) : IsWordOfRow c (putpixRow k v m) := by
  obtain ⟨hop, ha, himm⟩ := covers_putpix.1 h
  refine ⟨putpixRow (kindField (aField c)) ((immField c).extractLsb' 0 2) m, by cases m <;> rfl, ?_⟩
  rw [encode_putpixRow]
  exact packWord_eq_word hop (putpixBits_fields ha) (append_pixel himm)

theorem isWordOfRow_compose {c : Word} {d s : Byte} (m : DrawMode)
    (h : (composeRow d s m).row.covers c = true) : IsWordOfRow c (composeRow d s m) := by
  obtain ⟨hop, ha, -⟩ := covers_compose.1 h
  refine ⟨composeRow ((immField c).extractLsb' 8 8) ((immField c).extractLsb' 0 8) m, by cases m <;> rfl, ?_⟩
  have hmode : modeBits m = aField c := ha.symm.trans BitVec.and_allOnes
  rw [encode_composeRow]
  exact packWord_eq_word hop hmode (append_bytes_imm _)

theorem isWordOfRow_put {c : Word} {f : Bool} {k : Kind} (m : DrawMode)
    (h : (putRow f k m).row.covers c = true) : IsWordOfRow c (putRow f k m) := by
  obtain ⟨hop, ha, himm⟩ := covers_put.1 h
  refine ⟨putRow (fullField (aField c)) (kindField (aField c)) m, by cases m <;> rfl, ?_⟩
  rw [encode_putRow]
  exact packWord_eq_word hop (putBits_fields ha) (zero_eq_of_and_allOnes himm)

theorem isWordOfRow_of_covers {c : Word} {i : Instr} (h : i.row.covers c = true) : IsWordOfRow c i := by
  cases i with
  | nop =>
    obtain ⟨hop, ha, himm⟩ := covers_nop.1 h
    exact ⟨.nop, rfl, packWord_eq_word hop (zero_eq_of_and_allOnes ha) (zero_eq_of_and_allOnes himm)⟩
  | setl r imm =>
    obtain ⟨hop, ha, -⟩ := covers_setl.1 h
    exact ⟨.setl ((aField c).extractLsb' 0 5) (immField c), rfl, packWord_eq_word hop (regBits_extract ha) rfl⟩
  | seth r imm =>
    obtain ⟨hop, ha, -⟩ := covers_seth.1 h
    exact ⟨.seth ((aField c).extractLsb' 0 5) (immField c), rfl, packWord_eq_word hop (regBits_extract ha) rfl⟩
  | getpix k =>
    obtain ⟨hop, ha, himm⟩ := covers_getpix.1 h
    exact ⟨.getpix (kindField (aField c)), rfl,
      packWord_eq_word hop (kindBits_kindField ha) (zero_eq_of_and_allOnes himm)⟩
  | putpixCopy k v => exact isWordOfRow_putpix .copy h
  | putpixCopyinv k v => exact isWordOfRow_putpix .copyInv h
  | putpixAnd k v => exact isWordOfRow_putpix .and h
  | putpixOr k v => exact isWordOfRow_putpix .or h
  | putpixXor k v => exact isWordOfRow_putpix .xor h
  | composeCopy d s => exact isWordOfRow_compose .copy h
  | composeCopyinv d s => exact isWordOfRow_compose .copyInv h
  | composeAnd d s => exact isWordOfRow_compose .and h
  | composeOr d s => exact isWordOfRow_compose .or h
  | composeXor d s => exact isWordOfRow_compose .xor h
  | mapaddr =>
    obtain ⟨hop, ha, himm⟩ := covers_mapaddr.1 h
    exact ⟨.mapaddr, rfl, packWord_eq_word hop (zero_eq_of_and_allOnes ha) (zero_eq_of_and_allOnes himm)⟩
  | putCopy f k => exact isWordOfRow_put .copy h
  | putCopyinv f k => exact isWordOfRow_put .copyInv h
  | putAnd f k => exact isWordOfRow_put .and h
  | putOr f k => exact isWordOfRow_put .or h
  | putXor f k => exact isWordOfRow_put .xor h
  | get k =>
    obtain ⟨hop, ha, himm⟩ := covers_get.1 h
    exact ⟨.get (kindField (aField c)), rfl,
      packWord_eq_word hop (kindBits_kindField ha) (zero_eq_of_and_allOnes himm)⟩
  | fill k =>
    obtain ⟨hop, ha, himm⟩ := covers_fill.1 h
    exact ⟨.fill (kindField (aField c)), rfl,
      packWord_eq_word hop (kindBits_kindField ha) (zero_eq_of_and_allOnes himm)⟩
  | print k ch =>
    obtain ⟨hop, ha, himm⟩ := covers_print.1 h
    exact ⟨.print (kindField (aField c)) ((immField c).extractLsb' 0 8), rfl,
      packWord_eq_word hop (kindBits_kindField ha) (append_low_byte himm)⟩
  | recolor ink paper =>
    obtain ⟨hop, ha, himm⟩ := covers_recolor.1 h
    exact ⟨.recolor ((immField c).extractLsb' 4 2) ((immField c).extractLsb' 0 2), rfl,
      packWord_eq_word hop (zero_eq_of_and_allOnes ha) (append_colours himm)⟩
  | glyphget code =>
    obtain ⟨hop, ha, himm⟩ := covers_glyphget.1 h
    exact ⟨.glyphget ((immField c).extractLsb' 0 8), rfl,
      packWord_eq_word hop (zero_eq_of_and_allOnes ha) (append_low_byte himm)⟩
  | glyphput code =>
    obtain ⟨hop, ha, himm⟩ := covers_glyphput.1 h
    exact ⟨.glyphput ((immField c).extractLsb' 0 8), rfl,
      packWord_eq_word hop (zero_eq_of_and_allOnes ha) (append_low_byte himm)⟩

/-! ### Words, commands and rows -/

/-- Settles O2: the word is that of some command of the row, which the decoder gives back. -/
theorem encodeOfDecodeIsTheWord : Obligations.EncodeOfDecodeIsTheWord := by
  intro c i h
  obtain ⟨j, -, rfl⟩ := isWordOfRow_of_covers (row_covers_of_decode h)
  rw [decode_encode] at h
  cases h
  rfl

theorem row_mem_opcodeRows (i : Instr) : i.row ∈ opcodeRows := by
  cases i with
  | nop => exact (Laws.WordInRow.nop).1
  | setl r imm => exact (Laws.WordInRow.setl r imm).1
  | seth r imm => exact (Laws.WordInRow.seth r imm).1
  | getpix k => exact (Laws.WordInRow.getpix k).1
  | putpixCopy k v => exact (Laws.WordInRow.putpixCopy k v).1
  | putpixCopyinv k v => exact (Laws.WordInRow.putpixCopyinv k v).1
  | putpixAnd k v => exact (Laws.WordInRow.putpixAnd k v).1
  | putpixOr k v => exact (Laws.WordInRow.putpixOr k v).1
  | putpixXor k v => exact (Laws.WordInRow.putpixXor k v).1
  | composeCopy d s => exact (Laws.WordInRow.composeCopy d s).1
  | composeCopyinv d s => exact (Laws.WordInRow.composeCopyinv d s).1
  | composeAnd d s => exact (Laws.WordInRow.composeAnd d s).1
  | composeOr d s => exact (Laws.WordInRow.composeOr d s).1
  | composeXor d s => exact (Laws.WordInRow.composeXor d s).1
  | mapaddr => exact (Laws.WordInRow.mapaddr).1
  | putCopy f k => exact (Laws.WordInRow.putCopy f k).1
  | putCopyinv f k => exact (Laws.WordInRow.putCopyinv f k).1
  | putAnd f k => exact (Laws.WordInRow.putAnd f k).1
  | putOr f k => exact (Laws.WordInRow.putOr f k).1
  | putXor f k => exact (Laws.WordInRow.putXor f k).1
  | get k => exact (Laws.WordInRow.get k).1
  | fill k => exact (Laws.WordInRow.fill k).1
  | print k ch => exact (Laws.WordInRow.print k ch).1
  | recolor ink paper => exact (Laws.WordInRow.recolor ink paper).1
  | glyphget code => exact (Laws.WordInRow.glyphget code).1
  | glyphput code => exact (Laws.WordInRow.glyphput code).1

theorem exists_row_eq {row : OpcodeRow} (h : row ∈ opcodeRows) : ∃ i : Instr, i.row = row := by
  revert row
  simp [opcodeRows]

/-- A row of the opcode map that covers a word is the row of the command the word decodes to. -/
theorem decode_of_covers {c : Word} {row : OpcodeRow} (hrow : row ∈ opcodeRows)
    (h : row.covers c = true) : ∃ i, decode c = .ok i ∧ i.row = row := by
  obtain ⟨i, rfl⟩ := exists_row_eq hrow
  obtain ⟨j, hj, rfl⟩ := isWordOfRow_of_covers h
  exact ⟨j, decode_encode j, hj⟩

/-- Settles O3; the rows are disjoint because the decoder answers one command. -/
theorem wordIsCommandOfItsRow : Obligations.WordIsCommandOfItsRow := by
  refine ⟨fun c i h => ⟨row_mem_opcodeRows i, row_covers_of_decode h⟩, fun c row => decode_of_covers, ?_⟩
  intro c row row' hrow hrow' h h'
  obtain ⟨i, hi, rfl⟩ := decode_of_covers hrow h
  obtain ⟨j, hj, rfl⟩ := decode_of_covers hrow' h'
  rw [hi] at hj
  cases hj
  rfl

end Sys2Proof

namespace Sys2Proof.Machine

/-! ### The step on a command word (rule R96) -/

section

variable {s : State} {c : Word} {rest : List HostMove}

/-- On a block that is not halted a step runs the command the word decodes to. -/
theorem step_of_decode_ok {i : Instr} (hmoves : s.moves = .command c :: rest) (hhalted : s.halted = false)
    (h : decode c = .ok i) : step s = exec i (accept { s with moves := rest }) := by
  rw [step_move hmoves]
  simp [makeMove, issue, hhalted, h]

/-- On a block that is not halted a word that is no command raises IllegalCommand. -/
theorem step_of_decode_error {e : Reject} (hmoves : s.moves = .command c :: rest)
    (hhalted : s.halted = false) (h : decode c = .error e) :
    step s = .next (raiseError .illegalCommand c (accept { s with moves := rest })) := by
  rw [step_move hmoves]
  simp [makeMove, issue, hhalted, h]

end

/-- Settles O6. -/
theorem stepRunsTheDecodedCommand : Obligations.StepRunsTheDecodedCommand :=
  fun _ _ _ _ hmoves hhalted h => step_of_decode_ok hmoves hhalted h

/-- Settles O8: the decoder cannot answer a command, whose row would cover the word. -/
theorem unmatchedWordRaisesIllegalCommand : Obligations.UnmatchedWordRaisesIllegalCommand := by
  intro s c rest hmoves hhalted huncovered
  cases h : decode c with
  | error e => exact step_of_decode_error hmoves hhalted h
  | ok i =>
    have hcovers := row_covers_of_decode h
    rw [huncovered _ (row_mem_opcodeRows i)] at hcovers
    cases hcovers

end Sys2Proof.Machine
end

section
/-! PROOFS. O9, O15, O16, O17, O18: NOP, SETL and SETH.  SETL writes a register or raises IllegalCommand, and so
does SETH; which of the two follows from the index alone. -/

namespace Sys2Proof.Machine

/-! ### What a register index names (rules R121 to R123) -/

/-- The indices below 18 name registers SETL writes whole. -/
theorem regOfIndex_of_lt_18 {r : BitVec 5} (h : r.toNat < 18) :
    ∃ reg, regOfIndex r = some reg ∧ reg.unitOnly = false ∧ reg ≠ .mode := by
  have all : ∀ r : BitVec 5, r.toNat < 18 → ∀ reg ∈ regOfIndex r, reg.unitOnly = false ∧ reg ≠ .mode := by
    decide
  obtain ⟨reg, hreg⟩ := regOfIndex_of_lt (h.trans (by decide))
  exact ⟨reg, hreg, all r h reg hreg⟩

/-- The indices above 18 name at most registers of the PPRB. -/
theorem unitOnly_of_index_gt_18 {r : BitVec 5} (h : 18 < r.toNat) :
    ∀ reg ∈ regOfIndex r, reg.unitOnly = true := by
  revert r
  decide

/-- The three indices SETH accepts name address registers. -/
theorem regOfIndex_of_sethIndex {r : BitVec 5} (h : r = 0 ∨ r = 3 ∨ r = 14) :
    ∃ reg, regOfIndex r = some reg ∧ reg.isAddress = true := by
  rcases h with rfl | rfl | rfl <;> exact ⟨_, rfl, rfl⟩

/-- The other indices name no address register SETH may write. -/
theorem not_isAddress_of_index {r : BitVec 5} (h0 : r ≠ 0) (h3 : r ≠ 3) (h14 : r ≠ 14) :
    ∀ reg ∈ regOfIndex r, reg.isAddress = false := by
  revert r
  decide

theorem regWidth_of_isAddress {reg : Reg} (h : reg.isAddress = true) (c : Config) :
    regWidth c reg = c.addrBits := by
  cases reg <;> first | rfl | cases h

/-! ### SETL and SETH, one equation per case -/

section

variable {r : BitVec 5} {reg : Reg} (imm : BitVec 16) (s : State)

theorem exec_setl_of_data (hreg : regOfIndex r = some reg) (hunit : reg.unitOnly = false)
    (hmode : reg ≠ .mode) : exec (.setl r imm) s = .next (writeReg reg (imm.setWidth 32) s) := by
  simp [exec, execSetl, hreg, hunit, hmode]

theorem exec_setl_of_illegal (h : ∀ reg ∈ regOfIndex r, reg.unitOnly = true) :
    exec (.setl r imm) s = .next (raiseError .illegalCommand (encode (.setl r imm)) s) := by
  cases hreg : regOfIndex r with
  | none => simp [exec, execSetl, hreg]
  | some reg => simp [exec, execSetl, hreg, h reg hreg]

theorem exec_seth_of_address (hreg : regOfIndex r = some reg) (haddr : reg.isAddress = true) :
    exec (.seth r imm) s =
      .next { s with x := setReg s.cfg s.x reg (imm ++ (readReg s.x reg).extractLsb' 0 16) } := by
  simp [exec, execSeth, hreg, haddr]

theorem exec_seth_of_illegal (h : ∀ reg ∈ regOfIndex r, reg.isAddress = false) :
    exec (.seth r imm) s = .next (raiseError .illegalCommand (encode (.seth r imm)) s) := by
  cases hreg : regOfIndex r with
  | none => simp [exec, execSeth, hreg]
  | some reg => simp [exec, execSeth, hreg, h reg hreg]

end

/-! ### The values written -/

/-- The two halves of the word SETH writes do not overlap, so the word is their sum (rule R122). -/
theorem toNat_append_lowHalf (imm : BitVec 16) (v : Word) :
    (imm ++ v.extractLsb' 0 16).toNat = imm.toNat * 2 ^ 16 + v.toNat % 2 ^ 16 := by
  have hlow : (v.extractLsb' 0 16).toNat = v.toNat % 2 ^ 16 := by simp
  rw [BitVec.toNat_append, ← Nat.shiftLeft_add_eq_or_of_lt (BitVec.isLt _), Nat.shiftLeft_eq, hlow]

/-- Cut to at most 16 bits, a value with a new upper half is the old value. -/
theorem upperHalf_mod_two_pow {n v : Nat} (hn : n ≤ 16) (hv : v < 2 ^ n) (u : Nat) :
    (u * 2 ^ 16 + v % 2 ^ 16) % 2 ^ n = v := by
  have hdvd : 2 ^ n ∣ 2 ^ 16 := Nat.pow_dvd_pow 2 hn
  have hupper : u * 2 ^ 16 % 2 ^ n = 0 := Nat.mod_eq_zero_of_dvd (hdvd.mul_left u)
  rw [Nat.add_mod, hupper, Nat.mod_mod_of_dvd _ hdvd, Nat.zero_add, Nat.mod_mod, Nat.mod_eq_of_lt hv]

/-- Writing a register with what it holds changes nothing. -/
theorem setReg_eq_self {c : Config} {x : Regs} {reg : Reg} {v : Word}
    (h : v.toNat % 2 ^ regWidth c reg = (readReg x reg).toNat) : setReg c x reg v = x := by
  refine regs_ext _ _ fun reg' => ?_
  by_cases e : reg' = reg
  · subst e
    exact BitVec.eq_of_toNat_eq ((readReg_setReg_self c x reg' v).trans h)
  · exact readReg_setReg_ne c x reg reg' v e

/-! ### The statements -/

/-- Settles O16: SETL is one register write. -/
theorem setlWritesTheWholeRegister : Obligations.SetlWritesTheWholeRegister := by
  intro s r imm h
  obtain ⟨reg, hreg, hunit, hmode⟩ := regOfIndex_of_lt_18 h
  have hword : (imm.setWidth 32).toNat = imm.toNat := BitVec.toNat_setWidth_of_le (by decide)
  refine ⟨reg, writeReg reg (imm.setWidth 32) s, hreg, exec_setl_of_data imm s hreg hunit hmode, rfl, ?_,
    fun reg' hne => readReg_writeReg_ne hne _ s⟩
  rw [writeReg_x, readReg_setReg_self, hword]

/-- Settles O17: SETH writes the new upper half with the old lower half below it. -/
theorem sethWritesTheUpperHalf : Obligations.SethWritesTheUpperHalf := by
  intro s r imm h
  obtain ⟨reg, hreg, haddr⟩ := regOfIndex_of_sethIndex h
  refine ⟨reg, _, hreg, exec_seth_of_address imm s hreg haddr, rfl, ?_,
    fun reg' hne => readReg_setReg_ne s.cfg s.x reg reg' _ hne⟩
  rw [readReg_setReg_self, toNat_append_lowHalf, regWidth_of_isAddress haddr]

/-- Settles O9: an index outside SETL's names no register software writes, one outside SETH's no address. -/
theorem illegalRegisterIndexRaisesIllegalCommand : Obligations.IllegalRegisterIndexRaisesIllegalCommand :=
  fun s _ imm => ⟨fun h => exec_setl_of_illegal imm s (unitOnly_of_index_gt_18 h),
    fun h0 h3 h14 => exec_seth_of_illegal imm s (not_isAddress_of_index h0 h3 h14)⟩

/-- Settles O15: NOP's meaning is the state it was given (rule R120). -/
theorem nopChangesNothing : Obligations.NopChangesNothing := fun _ => rfl

/-- Settles O18: the new upper half lies above the `A` bits the register keeps. -/
theorem sethChangesNothingWithShortAddresses : Obligations.SethChangesNothingWithShortAddresses := by
  intro s r imm hfit hshort h
  obtain ⟨reg, hreg, haddr⟩ := regOfIndex_of_sethIndex h
  have hlt : (readReg s.x reg).toNat < 2 ^ s.cfg.addrBits :=
    regWidth_of_isAddress haddr s.cfg ▸ readReg_lt_two_pow_regWidth hfit reg
  have hsame : setReg s.cfg s.x reg (imm ++ (readReg s.x reg).extractLsb' 0 16) = s.x := by
    apply setReg_eq_self
    rw [toNat_append_lowHalf, regWidth_of_isAddress haddr, upperHalf_mod_two_pow hshort hlt]
  rw [exec_seth_of_address imm s hreg haddr, hsame]

end Sys2Proof.Machine
end

section
/-! PROOFS. O20, O21, O24: pixels and bytes.  A byte is the four pixels of its lanes (`byte_ext_pixGet`), and
every byte operation of rules R132 to R135 has an equation that says what each lane of its answer is; the
identities are then read off lane by lane. -/

namespace Sys2Proof.Machine

/-! ### Lanes as bit ranges (rules R131 to R133) -/

/-- The bits of two lanes do not meet. -/
theorem laneShift_apart {l l' : Fin 4} (h : l ≠ l') :
    laneShift l + 2 ≤ laneShift l' ∨ laneShift l' + 2 ≤ laneShift l := by
  unfold laneShift; omega

/-- Every bit of a byte is bit 0 or 1 of some lane. -/
theorem exists_lane_of_bit {j : Nat} (h : j < 8) : ∃ l : Fin 4, ∃ i < 2, laneShift l + i = j :=
  ⟨⟨3 - j / 2, by omega⟩, j % 2, by omega, by simp only [laneShift]; omega⟩

theorem getLsbD_pixGet (b : Byte) (l : Fin 4) {i : Nat} (hi : i < 2) :
    (pixGet b l).getLsbD i = b.getLsbD (laneShift l + i) := by
  simp [pixGet, hi]

/-- A pixel moved to its lane lies on the two bits of that lane. -/
theorem getLsbD_shiftToLane (l : Fin 4) (v : Pixel) (j : Nat) :
    (v.setWidth 8 <<< laneShift l).getLsbD j
      = (!decide (j < laneShift l) && v.getLsbD (j - laneShift l)) := by
  have hl : laneShift l ≤ 6 := Nat.sub_le _ _
  by_cases hj : j < laneShift l + 2
  · simp [show j < 8 by omega]
  · have hv : v.getLsbD (j - laneShift l) = false := BitVec.getLsbD_of_ge v _ (by omega)
    simp [hv]

/-- A byte is determined by its four pixels. -/
theorem byte_ext_pixGet {b b' : Byte} (h : ∀ l, pixGet b l = pixGet b' l) : b = b' := by
  refine BitVec.eq_of_getLsbD_eq fun j hj => ?_
  obtain ⟨l, i, hi, rfl⟩ := exists_lane_of_bit hj
  rw [← getLsbD_pixGet b l hi, ← getLsbD_pixGet b' l hi, h l]

/-! ### Each lane of each operation's answer -/

@[simp] theorem pixGet_and (b c : Byte) (l : Fin 4) : pixGet (b &&& c) l = pixGet b l &&& pixGet c l := by
  refine BitVec.eq_of_getLsbD_eq fun i hi => ?_
  simp [getLsbD_pixGet _ _ hi]

@[simp] theorem pixGet_or (b c : Byte) (l : Fin 4) : pixGet (b ||| c) l = pixGet b l ||| pixGet c l := by
  refine BitVec.eq_of_getLsbD_eq fun i hi => ?_
  simp [getLsbD_pixGet _ _ hi]

@[simp] theorem pixGet_xor (b c : Byte) (l : Fin 4) : pixGet (b ^^^ c) l = pixGet b l ^^^ pixGet c l := by
  refine BitVec.eq_of_getLsbD_eq fun i hi => ?_
  simp [getLsbD_pixGet _ _ hi]

@[simp] theorem pixGet_not (b : Byte) (l : Fin 4) : pixGet (~~~b) l = ~~~pixGet b l := by
  have hl : laneShift l ≤ 6 := Nat.sub_le _ _
  refine BitVec.eq_of_getLsbD_eq fun i hi => ?_
  have hbit : laneShift l + i < 8 := by omega
  rw [getLsbD_pixGet _ _ hi, BitVec.getLsbD_not, BitVec.getLsbD_not, getLsbD_pixGet _ _ hi]
  simp [hi, hbit]

@[simp] theorem pixGet_shiftToLane (l l' : Fin 4) (v : Pixel) :
    pixGet (v.setWidth 8 <<< laneShift l) l' = if l' = l then v else 0 := by
  refine BitVec.eq_of_getLsbD_eq fun i hi => ?_
  rw [getLsbD_pixGet _ _ hi, getLsbD_shiftToLane]
  split
  · next h => simp [h]
  · next h =>
    rcases laneShift_apart h with hlt | hgt
    · simp [show laneShift l' + i < laneShift l by omega]
    · simp [BitVec.getLsbD_of_ge v (laneShift l' + i - laneShift l) (by omega)]

/-- The mask of a lane is the pixel 3 moved there. -/
@[simp] theorem pixGet_laneMask (l l' : Fin 4) :
    pixGet ((3 : Byte) <<< laneShift l) l' = if l' = l then 3 else 0 :=
  pixGet_shiftToLane l l' 3

/-- The pixel 3 is all ones. -/
@[simp] theorem pixel_and_three (q : Pixel) : q &&& 3#2 = q := BitVec.and_allOnes

@[simp] theorem pixGet_pixSet (b : Byte) (l l' : Fin 4) (v : Pixel) :
    pixGet (pixSet b l v) l' = if l' = l then v else pixGet b l' := by
  simp only [pixSet, pixGet_or, pixGet_and, pixGet_not, pixGet_laneMask, pixGet_shiftToLane]
  split <;> simp

@[simp] theorem pixGet_rep4 (v : Pixel) (l : Fin 4) : pixGet (rep4 (v.setWidth 8)) l = v := by
  revert v l; decide

/-- On a pixel, taking away from 3 is the complement (rule R227). -/
theorem three_sub_pixel (q : Pixel) : 3 - q = ~~~q := BitVec.allOnes_sub_eq_not q

/-! ### The identities of rule R137 -/

theorem pixSet_pixGet (b : Byte) (l : Fin 4) : pixSet b l (pixGet b l) = b := by
  refine byte_ext_pixGet fun l' => ?_
  rw [pixGet_pixSet]
  split
  · next h => rw [h]
  · rfl

theorem pixSet_pixSet (b : Byte) (l : Fin 4) (v v' : Pixel) : pixSet (pixSet b l v) l v' = pixSet b l v' := by
  refine byte_ext_pixGet fun l' => ?_
  simp only [pixGet_pixSet]
  split <;> rfl

theorem byte_eq_pixels (b : Byte) :
    b = (pixGet b 0).setWidth 8 <<< laneShift 0 ||| (pixGet b 1).setWidth 8 <<< laneShift 1 |||
      (pixGet b 2).setWidth 8 <<< laneShift 2 ||| (pixGet b 3).setWidth 8 <<< laneShift 3 := by
  refine byte_ext_pixGet fun l => ?_
  simp only [pixGet_or, pixGet_shiftToLane]
  fin_cases l <;> simp

/-- Settles O20: each identity lane by lane. -/
theorem packingIdentities : Obligations.PackingIdentities := by
  intro b l l' v v'
  refine ⟨?_, fun hne => ?_, pixSet_pixGet b l, pixSet_pixSet b l v v', ?_, pixGet_rep4 v l⟩
  · rw [pixGet_pixSet, if_pos rfl]
  · rw [pixGet_pixSet, if_neg hne.symm]
  · have h := byte_eq_pixels b
    rwa [show laneShift 3 = 0 from rfl, BitVec.shiftLeft_zero] at h

/-- Settles O21: both masks of the rule hold the same pixel in every lane. -/
theorem recolourActsLaneByLane : Obligations.RecolourActsLaneByLane := by
  refine ⟨fun b i p l => ?_, fun b => ?_⟩
  · simp only [recolour, pixGet_or, pixGet_and, pixGet_not, pixGet_rep4, three_sub_pixel]
  · have hink : rep4 3 = BitVec.allOnes 8 := by decide
    have hpaper : rep4 0 = 0#8 := by decide
    rw [recolour, hink, hpaper, BitVec.and_allOnes, BitVec.and_zero, BitVec.or_zero]

/-! ### The closed forms of rules R143 to R145 -/

theorem pixSet_and (b : Byte) (l : Fin 4) (v : Pixel) : pixSet b l (pixGet b l &&& v)
    = b &&& (~~~((3 : Byte) <<< laneShift l) ||| v.setWidth 8 <<< laneShift l) := by
  refine byte_ext_pixGet fun l' => ?_
  simp only [pixGet_pixSet, pixGet_and, pixGet_or, pixGet_not, pixGet_laneMask, pixGet_shiftToLane]
  split
  · next h => simp [h]
  · simp

theorem pixSet_or (b : Byte) (l : Fin 4) (v : Pixel) :
    pixSet b l (pixGet b l ||| v) = b ||| v.setWidth 8 <<< laneShift l := by
  refine byte_ext_pixGet fun l' => ?_
  simp only [pixGet_pixSet, pixGet_or, pixGet_shiftToLane]
  split
  · next h => rw [h]
  · simp

theorem pixSet_xor (b : Byte) (l : Fin 4) (v : Pixel) :
    pixSet b l (pixGet b l ^^^ v) = b ^^^ v.setWidth 8 <<< laneShift l := by
  refine byte_ext_pixGet fun l' => ?_
  simp only [pixGet_pixSet, pixGet_xor, pixGet_shiftToLane]
  split
  · next h => rw [h]
  · simp

/-- Settles O24: COPY and COPYINV are the composed pixel itself, the other three their closed forms. -/
theorem putpixClosedForms : Obligations.PutpixClosedForms :=
  fun b l v => ⟨rfl, rfl, pixSet_and b l v, pixSet_or b l v, pixSet_xor b l v⟩

end Sys2Proof.Machine
end

section
/-! PROOFS. O12, O22, O23, O25, O26: GETPIX and PUTPIX.  What each does at a populated and at a refused
address is said once (rules R138, R140, R244); the statements about one command and about two in a row follow. -/

namespace Sys2Proof.Machine

/-! ### GETPIX (rule R138) -/

/-- The pixel GETPIX reads. -/
def readPixel (k : Kind) (s : State) : Pixel :=
  pixGet (memByte s.mem (getpixAddr s k)) (lane s.x.xs.toNat)

section
variable {s : State} {k : Kind} (hready : kindReady k s.x = true)
include hready

theorem exec_getpix (h : populated s (getpixAddr s k)) :
    exec (.getpix k) s = .next (writeReg .result ((readPixel k s).setWidth 32)
      { s with bus := s.bus ++ [.read (getpixAddr s k) (memByte s.mem (getpixAddr s k))] }) := by
  refine (onKind_ready hready).trans ?_
  rw [memRead_valid h]
  rfl

theorem exec_getpix_refused (h : memValid s.cfg (getpixAddr s k) = false) :
    exec (.getpix k) s = .next (raiseError .busError (BitVec.ofNat 32 (getpixAddr s k)) s) := by
  refine (onKind_ready hready).trans ?_
  rw [memRead_refused h]
  rfl

end

/-! ### PUTPIX (rule R140) -/

/-- The five PUTPIX rows are one meaning with the draw mode as a parameter (rule R98). -/
theorem exec_putpixRow (k : Kind) (v : Pixel) (m : DrawMode) (s : State) :
    exec (putpixRow k v m) s = onKind k (encode (putpixRow k v m)) s (putpix m k v s) := by
  cases m <;> rfl

/-- A byte with the pixel of one lane composed with `v`. -/
def composePixel (m : DrawMode) (l : Fin 4) (v : Pixel) (b : Byte) : Byte :=
  pixSet b l (compose2 m (pixGet b l) v)

/-- The byte PUTPIX writes. -/
def drawnByte (m : DrawMode) (k : Kind) (v : Pixel) (s : State) : Byte :=
  composePixel m (lane s.x.xd.toNat) v (memByte s.mem (putpixAddr s k))

/-- The state PUTPIX leaves when its byte is populated. -/
def drawPixel (m : DrawMode) (k : Kind) (v : Pixel) (s : State) : State :=
  { s with
    mem := memSet s.mem (putpixAddr s k) (drawnByte m k v s)
    bus := s.bus ++ [.read (putpixAddr s k) (memByte s.mem (putpixAddr s k)),
      .write (putpixAddr s k) (drawnByte m k v s)] }

/-- One read and one write of a populated address. -/
theorem readThenWrite_valid {a : Int} {s : State} (f : Byte → Byte)
    (h : memValid s.cfg (truncA s.cfg a) = true) :
    ((memRead a s).bind fun b s' => memWrite a (f b) s') = .go () { s with
      mem := memSet s.mem (truncA s.cfg a) (f (memByte s.mem (truncA s.cfg a)))
      bus := s.bus ++ [.read (truncA s.cfg a) (memByte s.mem (truncA s.cfg a)),
        .write (truncA s.cfg a) (f (memByte s.mem (truncA s.cfg a)))] } := by
  rw [memRead_valid h, Flow.bind_go, memWrite_valid (by exact h), List.append_assoc]
  rfl

section
variable {s : State} {k : Kind} (hready : kindReady k s.x = true) (m : DrawMode) (v : Pixel)
include hready

theorem exec_putpix (h : populated s (putpixAddr s k)) :
    exec (putpixRow k v m) s = .next (drawPixel m k v s) := by
  have hbody : putpix m k v s = .go () (drawPixel m k v s) :=
    readThenWrite_valid (composePixel m (lane s.x.xd.toNat) v) h
  rw [exec_putpixRow, onKind_ready hready, hbody, Flow.state_go]

theorem exec_putpix_refused (h : memValid s.cfg (putpixAddr s k) = false) :
    exec (putpixRow k v m) s = .next (raiseError .busError (BitVec.ofNat 32 (putpixAddr s k)) s) := by
  rw [exec_putpixRow, onKind_ready hready, putpix, memRead_refused h]
  rfl

end

/-- Settles O12: the one read is refused before anything is written. -/
theorem pixelCommandAtRefusedAddressChangesNothingElse :
    Obligations.PixelCommandAtRefusedAddressChangesNothingElse :=
  fun _ _ hready => ⟨fun h => exec_getpix_refused hready h, fun h m v => exec_putpix_refused hready m v h⟩

/-- Settles O22: RESULT is the one register GETPIX writes (rule R138). -/
theorem getpixLeavesThePixelInResult : Obligations.GetpixLeavesThePixelInResult :=
  fun _ _ hready h => exec_getpix hready h

/-- Settles O23: memory after PUTPIX is memory with the one byte replaced. -/
theorem putpixComposesOnePixel : Obligations.PutpixComposesOnePixel := by
  intro s m k v hwf hready h
  exact ⟨drawPixel m k v s, memByte s.mem (putpixAddr s k), drawnByte m k v s, exec_putpix hready m v h,
    rfl, rfl, rfl, memByte_memSet_self hwf _ _, fun a ha => memByte_memSet_ne _ _ a _ ha⟩

/-! ### Two commands in a row -/

/-- Putting back the byte an address held undoes a write there. -/
theorem memSet_memSet_memByte {mem : List Host.Cell} (h : memWf mem = true) (a : Nat) (v : Byte) :
    memSet (memSet mem a v) a (memByte mem a) = mem := by
  refine mem_ext (memWf_memSet (memWf_memSet h a v) a _) h fun b => ?_
  rw [memByte_memSet (memWf_memSet h a v), memByte_memSet h]
  split
  · next hb => rw [hb]
  · rfl

/-- After PUTPIX its byte reads as drawn. -/
theorem memByte_drawPixel {s : State} (h : memWf s.mem = true) (m : DrawMode) (k : Kind) (v : Pixel) :
    memByte (drawPixel m k v s).mem (putpixAddr s k) = drawnByte m k v s :=
  memByte_memSet_self h _ _

/-- The second exclusive or takes the first one away (rule R145). -/
theorem composePixel_xor_twice (l : Fin 4) (v : Pixel) (b : Byte) :
    composePixel .xor l v (composePixel .xor l v b) = b := by
  simp only [composePixel, compose2, pixSet_xor, BitVec.xor_assoc, BitVec.xor_self, BitVec.xor_zero]

theorem drawnByte_xor_drawPixel {s : State} (h : memWf s.mem = true) (k : Kind) (v : Pixel) :
    drawnByte .xor k v (drawPixel .xor k v s) = memByte s.mem (putpixAddr s k) :=
  (congrArg (composePixel .xor _ v) (memByte_drawPixel h .xor k v)).trans (composePixel_xor_twice _ v _)

/-- Settles O25: the second command writes back the byte the first one found. -/
theorem putpixXorTwiceRestoresMemory : Obligations.PutpixXorTwiceRestoresMemory := by
  intro s k v hwf hready h
  let t := drawPixel .xor k v s
  let u := drawPixel .xor k v t
  have hframe : u = { s with mem := u.mem, bus := u.bus } := rfl
  have hmem : u.mem = s.mem := by
    change memSet t.mem (putpixAddr s k) (drawnByte .xor k v t) = s.mem
    rw [drawnByte_xor_drawPixel hwf]
    exact memSet_memSet_memByte hwf _ _
  rw [hmem] at hframe
  exact ⟨t, u, exec_putpix hready .xor v h, exec_putpix (s := t) hready .xor v h, hframe⟩

/-- With the source and destination operands equal, both commands name one byte. -/
theorem getpixAddr_eq_putpixAddr {s : State} (hx : s.x.xs = s.x.xd) (hy : s.x.ys = s.x.yd)
    (ha : s.x.srcAddr = s.x.dstAddr) (hw : s.x.srcW = s.x.dstW) (k : Kind) :
    getpixAddr s k = putpixAddr s k := by
  rw [getpixAddr, putpixAddr, hx, hy]
  cases k with
  | buf => rw [srcRow, dstRow, ha, hw]
  | surf => rfl

/-- Settles O26: GETPIX finds the byte drawn, whose lane of column XD holds `v`. -/
theorem getpixReadsWhatPutpixDrew : Obligations.GetpixReadsWhatPutpixDrew := by
  intro s k v hwf hready h hx hy ha hw
  have haddr : getpixAddr (drawPixel .copy k v s) k = putpixAddr s k :=
    getpixAddr_eq_putpixAddr (s := drawPixel .copy k v s) hx hy ha hw k
  have hpixel : readPixel k (drawPixel .copy k v s) = v := by
    have hlane : lane (drawPixel .copy k v s).x.xs.toNat = lane s.x.xd.toNat := congrArg (lane ·.toNat) hx
    rw [readPixel, haddr, memByte_drawPixel hwf, hlane, drawnByte, composePixel, pixGet_pixSet, if_pos rfl]
    rfl
  have hread := exec_getpix (s := drawPixel .copy k v s) hready (haddr ▸ h)
  rw [hpixel] at hread
  exact ⟨drawPixel .copy k v s, _, exec_putpix hready .copy v h, hread, rfl⟩

end Sys2Proof.Machine
end

section
/-! PROOFS. O34, O35, O36, O38, O39, O40: PUT, GET and FILL.  Each is a grid of turns that rewrite one byte.  What
a grid leaves is said once, by its frame and by the turn that wrote a byte last; the byte values follow where
source and destination are apart.  PUT.XOR needs no such last turn: the masks of all turns at a byte add up. -/

namespace Sys2Proof.Machine

/-! ### What a grid of one-byte turns leaves -/

/-- From every state like `s`, `turn` makes the accesses `ops` and replaces the byte at `a` by one that `R`
allows for the contents it finds; `F` is when it takes no free value. -/
def RewritesByte (s : State) (turn : State → Flow Unit) (a : Nat) (ops : List BusOp)
    (R : List Host.Cell → Byte → Prop) (F : Prop) : Prop :=
  ∀ t, SameBut s t → ∃ t' v, turn t = .go () t' ∧ SameBut s t' ∧ busOps t' = busOps t ++ ops ∧
    t'.mem = memSet t.mem a v ∧ R t.mem v ∧ (F → t'.freeCount = t.freeCount)

/-- `after` is `before` with the bytes `T r i` of a grid rewritten row by row, each with a byte that `R r i`
allows for the contents `found` that only earlier turns had changed. -/
structure GridWritten (rows cols : Nat) (T : Nat → Nat → Nat)
    (R : Nat → Nat → List Host.Cell → Byte → Prop) (before after : List Host.Cell) : Prop where
  frame : ∀ a, (∀ r < rows, ∀ i < cols, T r i ≠ a) → memByte after a = memByte before a
  wf    : memWf before = true → memWf after = true
  /-- The byte holds what the last turn at its address wrote. -/
  last  : memWf before = true → ∀ r < rows, ∀ i < cols, ∃ r' < rows, ∃ i' < cols, T r' i' = T r i ∧
    ∃ found, (∀ a, (∀ r'' < rows, ∀ i'' < cols, (r'' < r' ∨ r'' = r' ∧ i'' < i') → T r'' i'' ≠ a) →
        memByte found a = memByte before a) ∧
      R r' i' found (memByte after (T r i))

/-- Among the turns at one address there is a last one. -/
theorem exists_last_turn {rows cols r i : Nat} (T : Nat → Nat → Nat) (hr : r < rows) (hi : i < cols) :
    ∃ r' < rows, ∃ i' < cols, T r' i' = T r i ∧
      ∀ r'' < rows, ∀ i'' < cols, (r' < r'' ∨ r' = r'' ∧ i' < i'') → T r'' i'' ≠ T r' i' := by
  obtain ⟨⟨r', i'⟩, hmem, hmax⟩ := Finset.exists_max_image
    ((Finset.range rows ×ˢ Finset.range cols).filter fun p => T p.1 p.2 = T r i) toLex
    ⟨(r, i), by simp [hr, hi]⟩
  simp only [Finset.mem_filter, Finset.mem_product, Finset.mem_range] at hmem hmax
  obtain ⟨⟨hr', hi'⟩, heq⟩ := hmem
  refine ⟨r', hr', i', hi', heq, fun r'' hr'' i'' hi'' hlt h => ?_⟩
  exact (hmax (r'', i'') ⟨⟨hr'', hi''⟩, h.trans heq⟩).not_gt (Prod.Lex.toLex_lt_toLex.2 hlt)

theorem forGrid_written {s : State} {rows cols : Nat} {body : Nat → Nat → State → Flow Unit}
    {T : Nat → Nat → Nat} {ops : Nat → Nat → List BusOp} {R : Nat → Nat → List Host.Cell → Byte → Prop}
    {F : Prop}
    (hbody : ∀ r < rows, ∀ i < cols, RewritesByte s (body r i) (T r i) (ops r i) (R r i) F) :
    ∃ t, forUpTo rows (fun r => forUpTo cols (body r)) s = .go () t ∧ SameBut s t ∧
      busOps t = busOps s ++ gridOps rows cols ops ∧ (F → t.freeCount = s.freeCount) ∧
      GridWritten rows cols T R s.mem t.mem := by
  obtain ⟨t, hrun, hsame, hops, hfree, hframe, hbytes⟩ := forGrid_bytes s rows cols body T ops R F hbody
  refine ⟨t, hrun, hsame, hops, hfree, hframe, fun hwf => (hbytes hwf).1, fun hwf r hr i hi => ?_⟩
  obtain ⟨r', hr', i', hi', heq, hlast⟩ := exists_last_turn T hr hi
  obtain ⟨found, -, hfound, hR⟩ := (hbytes hwf).2 r' hr' i' hi' hlast
  exact ⟨r', hr', i', hi', heq, found, hfound, heq ▸ hR⟩

/-- The byte written at `T r i` is `f` of the destination byte and the source byte found there. -/
def ByteFrom (f : Byte → Byte → Byte) (T S : Nat → Nat → Nat) (r i : Nat) (found : List Host.Cell)
    (v : Byte) : Prop := v = f (memByte found (T r i)) (memByte found (S r i))

/-- Where no destination byte is a source byte or another destination byte, every turn finds both its bytes
as they were. -/
theorem GridWritten.byte_eq {rows cols : Nat} {T S : Nat → Nat → Nat} {f : Byte → Byte → Byte}
    {before after : List Host.Cell} (h : GridWritten rows cols T (ByteFrom f T S) before after)
    (hwf : memWf before = true)
    (hapart : ∀ r < rows, ∀ i < cols, ∀ r' < rows, ∀ i' < cols,
      S r i ≠ T r' i' ∧ (T r i = T r' i' → r = r' ∧ i = i')) :
    ∀ r < rows, ∀ i < cols,
      memByte after (T r i) = f (memByte before (T r i)) (memByte before (S r i)) := by
  intro r hr i hi
  obtain ⟨r', hr', i', hi', heq, found, hfound, hbyte⟩ := h.last hwf r hr i hi
  obtain ⟨rfl, rfl⟩ := (hapart r' hr' i' hi' r hr i hi).2 heq
  have hdst : memByte found (T r' i') = memByte before (T r' i') :=
    hfound _ fun r'' hr'' i'' hi'' hlt he => by
      have := (hapart r'' hr'' i'' hi'' r' hr i' hi).2 he
      omega
  have hsrc : memByte found (S r' i') = memByte before (S r' i') :=
    hfound _ fun r'' hr'' i'' hi'' _ he => (hapart r' hr i' hi r'' hr'' i'' hi'').1 he.symm
  rw [hbyte, hdst, hsrc]

/-- A state like `s` with as many free values taken differs in memory and accesses only. -/
theorem SameBut.eq_of_freeCount {s t : State} (h : SameBut s t) (hfree : t.freeCount = s.freeCount) :
    t = { s with mem := t.mem, bus := t.bus } := by
  rw [SameBut, hfree] at h
  exact h

/-- A command whose kind is ready and whose body goes on answers the state its body leaves. -/
theorem onKind_of_go {k : Kind} {c : Word} {s t : State} {run : Flow Unit} (hready : kindReady k s.x = true)
    (hrun : run = .go () t) : onKind k c s run = .next t := by
  rw [onKind_ready hready, hrun, Flow.state_go]

/-! ### PUT (rules R152 to R157) -/

theorem exec_putRow_populated {s : State} {full : Bool} {k : Kind} (hready : kindReady k s.x = true)
    (hpop : ∀ r < putRows s full, ∀ i < putCols s full,
      populated s (putSource s full r i) ∧ populated s (rectTarget s k r i)) (m : DrawMode) :
    ∃ mem bus, exec (putRow full k m) s = .next { s with mem := mem, bus := bus } ∧
      bus.map busOp = busOps s ++ putOps s m full k ∧
      GridWritten (putRows s full) (putCols s full) (rectTarget s k)
        (ByteFrom (compose m) (rectTarget s k) (putSource s full)) s.mem mem := by
  obtain ⟨t, hrun, hsame, hops, hfree, hmem⟩ := forGrid_written
    (R := ByteFrom (compose m) (rectTarget s k) (putSource s full)) fun r hr i hi t ht =>
    putByte_turn m _ _ ht (hpop r hr i hi).1 (hpop r hr i hi).2
  refine ⟨t.mem, t.bus, ?_, hops, hmem⟩
  rw [exec_putRow, ← hsame.eq_of_freeCount (hfree trivial)]
  exact onKind_of_go hready hrun

/-- Settles O34. -/
theorem putCompletesWithinItsRectangle : Obligations.PutCompletesWithinItsRectangle := by
  intro s m full k hready hpop
  obtain ⟨mem, bus, hexec, hops, hmem⟩ := exec_putRow_populated hready hpop m
  exact ⟨_, hexec, rfl, hops, hmem.frame⟩

/-- Settles O35. -/
theorem putComposesEveryByte : Obligations.PutComposesEveryByte := by
  intro s m full k hwf hready hpop hapart
  obtain ⟨mem, bus, hexec, -, hmem⟩ := exec_putRow_populated hready hpop m
  exact ⟨_, hexec, hmem.byte_eq hwf hapart⟩

/-! ### GET (rule R160) -/

theorem exec_get_populated {s : State} {k : Kind} (hready : kindReady k s.x = true)
    (hpop : ∀ r < s.x.dstH.toNat, ∀ i < s.x.dstW.toNat / 4,
      populated s (getSource s k r i) ∧ populated s (getTarget s r i)) :
    ∃ mem bus, exec (.get k) s = .next { s with mem := mem, bus := bus } ∧
      bus.map busOp = busOps s ++ getOps s k ∧
      GridWritten s.x.dstH.toNat (s.x.dstW.toNat / 4) (getTarget s)
        (ByteFrom (fun _ b => b) (getTarget s) (getSource s k)) s.mem mem := by
  obtain ⟨t, hrun, hsame, hops, hfree, hmem⟩ := forGrid_written
    (R := ByteFrom (fun _ b => b) (getTarget s) (getSource s k)) fun r hr i hi t ht =>
    copyByte_turn (srcRow s.x k s.x.xs.toNat (s.x.ys.toNat + r) + i : Nat)
      (bufAddr s.x.dstAddr s.x.dstW 0 r + i : Nat) ht (hpop r hr i hi).1 (hpop r hr i hi).2
  refine ⟨t.mem, t.bus, ?_, hops, hmem⟩
  rw [← hsame.eq_of_freeCount (hfree trivial)]
  exact onKind_of_go hready hrun

/-- Settles O38. -/
theorem getCopiesTheRectangle : Obligations.GetCopiesTheRectangle := by
  intro s k hready hpop
  obtain ⟨mem, bus, hexec, hops, hmem⟩ := exec_get_populated hready hpop
  exact ⟨_, hexec, rfl, hops, hmem.frame, hmem.byte_eq⟩

/-! ### FILL (rule R162) -/

theorem exec_fill_populated {s : State} {k : Kind} (hready : kindReady k s.x = true)
    (hpop : ∀ r < s.x.h.toNat, ∀ i < s.x.w.toNat / 4, populated s (rectTarget s k r i)) :
    ∃ t, exec (.fill k) s = .next t ∧ SameBut s t ∧ busOps t = busOps s ++ fillOps s k ∧
      GridWritten s.x.h.toNat (s.x.w.toNat / 4) (rectTarget s k)
        (fun _ _ _ v => colourLegal s.x.ink = true → v = rep4 s.x.ink) s.mem t.mem := by
  obtain ⟨t, hrun, hsame, hops, -, hmem⟩ := forGrid_written
    (R := fun _ _ _ v => colourLegal s.x.ink = true → v = rep4 s.x.ink) fun r hr i hi t ht =>
    colourWrite_turn (colourLegal s.x.ink) (rep4 s.x.ink)
      (dstRow s.x k s.x.xd.toNat (s.x.yd.toNat + r) + i : Nat) ht (hpop r hr i hi)
  exact ⟨t, onKind_of_go hready hrun, hsame, hops, hmem⟩

theorem rep4_eq_ofNat (v : Byte) : rep4 v = BitVec.ofNat 8 (v.toNat * 0x55) := by
  simp [rep4, BitVec.ofNat_mul]

/-- Settles O39: whichever turn wrote a byte last, it wrote INK. -/
theorem fillReplicatesInk : Obligations.FillReplicatesInk := by
  intro s k hready hpop
  obtain ⟨t, hexec, hsame, hops, hmem⟩ := exec_fill_populated hready hpop
  refine ⟨t, hexec, hsame, hops, hmem.frame, fun hink hwf r hr i hi => ?_⟩
  obtain ⟨-, -, -, -, -, -, -, hbyte⟩ := hmem.last hwf r hr i hi
  rw [hbyte (decide_eq_true hink), rep4_eq_ofNat]

/-! ### PUT.COPY, then GET (rule R165) -/

/-- The registers with the descriptors moved for the way back: the source is the old destination, the
destination is the buffer at `back`, as large as the old source. -/
def wayBack (x : Regs) (back : Word) : Regs :=
  { x with
    srcAddr := x.dstAddr, srcW := x.dstW, xs := x.xd, ys := x.yd
    dstAddr := back, dstW := x.srcW, dstH := x.srcH }

/-- On the way back GET reads where PUT wrote. -/
theorem getSource_wayBack (s : State) (k : Kind) (back : Word) (r i : Nat) :
    getSource { s with x := wayBack s.x back } k r i = rectTarget s k r i := by
  cases k <;> rfl

/-- Settles O40: GET copies the bytes that PUT.COPY copied from the source. -/
theorem getReturnsWhatPutCopyPut : Obligations.GetReturnsWhatPutCopyPut := by
  intro s k back hwf hready hpop hapart
  obtain ⟨mem, bus, hput, -, hmem⟩ := exec_putRow_populated (full := true) hready
    (fun r hr i hi => ⟨(hpop r hr i hi).1, (hpop r hr i hi).2.1⟩) .copy
  let u : State := { s with mem := mem, bus := bus, x := wayBack s.x back }
  have hsource : ∀ r i, getSource u k r i = rectTarget s k r i := fun r i =>
    getSource_wayBack { s with mem := mem, bus := bus } k back r i
  obtain ⟨mem', bus', hget, -, hmem'⟩ := exec_get_populated (s := u) (k := k) hready fun r hr i hi =>
    ⟨hsource r i ▸ (hpop r hr i hi).2.1, (hpop r hr i hi).2.2⟩
  have hcopied := hmem.byte_eq hwf fun r hr i hi r' hr' i' hi' =>
    have h := hapart r hr i hi r' hr' i' hi'
    ⟨h.1, h.2.2.1⟩
  have hreturned := hmem'.byte_eq (hmem.wf hwf) fun r hr i hi r' hr' i' hi' =>
    have h := hapart r hr i hi r' hr' i' hi'
    ⟨hsource r i ▸ h.2.1, h.2.2.2⟩
  refine ⟨_, u, _, hput, rfl, hget, fun r hr i hi => (hreturned r hr i hi).trans ?_⟩
  rw [hsource r i]
  exact hcopied r hr i hi

/-! ### PUT.XOR twice (rule R158) -/

/-- The exclusive or of the bytes `B j` of the first `n` turns at the address `a`. -/
def xorMask (T : Nat → Nat) (B : Nat → Byte) (a : Nat) : Nat → Byte
  | 0 => 0
  | n + 1 => if a = T n then xorMask T B a n ^^^ B n else xorMask T B a n

theorem xorMask_of_no_turn {T : Nat → Nat} {B : Nat → Byte} {a n : Nat} (h : ∀ j < n, a ≠ T j) :
    xorMask T B a n = 0 := by
  induction n with
  | zero => rfl
  | succ n ih => rw [xorMask, if_neg (h n (by omega)), ih fun j hj => h j (by omega)]

theorem xorMask_congr {T : Nat → Nat} {B B' : Nat → Byte} {a n : Nat} (h : ∀ j < n, B j = B' j) :
    xorMask T B a n = xorMask T B' a n := by
  induction n with
  | zero => rfl
  | succ n ih => rw [xorMask, xorMask, h n (by omega), ih fun j hj => h j (by omega)]

/-- `n` turns of PUT.XOR from `s` may leave `t`: at every address they added their source bytes up. -/
structure XorWritten (s : State) (T : Nat → Nat) (B : Nat → Byte) (n : Nat) (t : State) : Prop where
  same  : SameBut s t
  free  : t.freeCount = s.freeCount
  wf    : memWf t.mem = true
  bytes : ∀ a, memByte t.mem a = memByte s.mem a ^^^ xorMask T B a n

/-- A loop of PUT.XOR's body that writes no source byte; destination bytes may coincide. -/
theorem forUpTo_putXor {s : State} (hwf : memWf s.mem = true) {n : Nat} {sa da : Nat → Int}
    {S T : Nat → Nat} (hS : ∀ j, truncA s.cfg (sa j) = S j) (hT : ∀ j, truncA s.cfg (da j) = T j)
    (hpop : ∀ j < n, populated s (S j) ∧ populated s (T j)) (hapart : ∀ j < n, ∀ j' < n, S j ≠ T j') :
    ∃ t, forUpTo n (fun j => putByte .xor (sa j) (da j)) s = .go () t ∧
      XorWritten s T (fun j => memByte s.mem (S j)) n t := by
  refine forUpTo_go (XorWritten s T fun j => memByte s.mem (S j)) n _ s
    ⟨SameBut.refl s, rfl, hwf, fun a => BitVec.xor_zero.symm⟩ fun j t hj ht => ?_
  obtain ⟨t', v, hturn, hsame, -, hmem, hv, hfree⟩ := putByte_turn .xor (sa j) (da j) ht.same
    (hS j ▸ (hpop j hj).1) (hT j ▸ (hpop j hj).2)
  rw [hT j] at hmem hv
  rw [hS j] at hv
  have hsource : memByte t.mem (S j) = memByte s.mem (S j) := by
    rw [ht.bytes, xorMask_of_no_turn fun j' hj' => hapart j hj j' (by omega)]
    exact BitVec.xor_zero
  refine ⟨t', hturn, hsame, (hfree trivial).trans ht.free, hmem ▸ memWf_memSet ht.wf _ _, fun a => ?_⟩
  rw [hmem, memByte_memSet ht.wf, xorMask]
  split
  · next ha => rw [hv, hsource, ← ha, compose, ht.bytes, BitVec.xor_assoc]
  · exact ht.bytes a

/-- What PUT.XOR adds to the byte at `a`. -/
def putXorMask (s : State) (full : Bool) (k : Kind) (a : Nat) : Byte :=
  xorMask (fun n => rectTarget s k (n / putCols s full) (n % putCols s full))
    (fun n => memByte s.mem (putSource s full (n / putCols s full) (n % putCols s full))) a
    (putRows s full * putCols s full)

section

variable {s : State} {full : Bool} {k : Kind}
  (hapart : ∀ r < putRows s full, ∀ i < putCols s full, ∀ r' < putRows s full, ∀ i' < putCols s full,
    putSource s full r i ≠ rectTarget s k r' i')
include hapart

theorem exec_putXor_populated (hwf : memWf s.mem = true) (hready : kindReady k s.x = true)
    (hpop : ∀ r < putRows s full, ∀ i < putCols s full,
      populated s (putSource s full r i) ∧ populated s (rectTarget s k r i)) :
    ∃ mem bus, exec (.putXor full k) s = .next { s with mem := mem, bus := bus } ∧ memWf mem = true ∧
      ∀ a, memByte mem a = memByte s.mem a ^^^ putXorMask s full k a := by
  obtain ⟨t, hrun, ht⟩ := forUpTo_putXor (n := putRows s full * putCols s full) hwf
    (fun _ => rfl) (fun _ => rfl)
    (fun n hn => hpop _ (grid_index_inv hn).1 _ (grid_index_inv hn).2)
    (fun n hn n' hn' => hapart _ (grid_index_inv hn).1 _ (grid_index_inv hn).2
      _ (grid_index_inv hn').1 _ (grid_index_inv hn').2)
  refine ⟨t.mem, t.bus, ?_, ht.wf, ht.bytes⟩
  rw [← ht.same.eq_of_freeCount ht.free]
  exact onKind_of_go hready ((forGrid_eq _ _ _ s).trans hrun)

/-- The first PUT.XOR leaves the source bytes, and so what the second one adds. -/
theorem putXorMask_after {mem : List Host.Cell} (bus : List Access)
    (hbytes : ∀ a, memByte mem a = memByte s.mem a ^^^ putXorMask s full k a) (a : Nat) :
    putXorMask { s with mem := mem, bus := bus } full k a = putXorMask s full k a := by
  refine xorMask_congr fun n hn => ?_
  have hnone : putXorMask s full k (putSource s full (n / putCols s full) (n % putCols s full)) = 0 :=
    xorMask_of_no_turn fun n' hn' => hapart _ (grid_index_inv hn).1 _ (grid_index_inv hn).2
      _ (grid_index_inv hn').1 _ (grid_index_inv hn').2
  exact (hbytes _).trans ((congrArg _ hnone).trans BitVec.xor_zero)

end

/-- Settles O36: both commands add the same mask at every address. -/
theorem putXorTwiceRestoresMemory : Obligations.PutXorTwiceRestoresMemory := by
  intro s full k hwf hready hpop hapart
  obtain ⟨mem, bus, hfirst, hwf', hbytes⟩ := exec_putXor_populated hapart hwf hready hpop
  obtain ⟨mem', bus', hsecond, hwf'', hbytes'⟩ :=
    exec_putXor_populated (s := { s with mem := mem, bus := bus }) hapart hwf' hready hpop
  have hmem : mem' = s.mem := mem_ext hwf'' hwf fun a => by
    rw [hbytes', putXorMask_after hapart bus hbytes, hbytes, BitVec.xor_assoc, BitVec.xor_self,
      BitVec.xor_zero]
  exact ⟨_, _, hfirst, hsecond, by rw [hmem]⟩

end Sys2Proof.Machine
end

section
/-! PROOFS. O41, O42, O43, O44, O45: PRINT, RECOLOR, GLYPHGET and GLYPHPUT.  Each is a line of turns that read one
byte and write one; what such a line leaves is said once.  The commands differ in their addresses and in which
byte they may write for the byte they read. -/

namespace Sys2Proof.Machine

/-! ### What a line of byte moves leaves -/

/-- `t` is `s` after `n` turns, turn `j` of which read the byte at `S j` and wrote at `T j` a byte that `R` allows
for it. -/
structure BytesMoved (n : Nat) (S T : Nat → Nat) (R : Byte → Byte → Prop) (s t : State) : Prop where
  same  : SameBut s t
  ops   : busOps t = busOps s ++ moveOps n S T
  frame : ∀ a, (∀ j < n, T j ≠ a) → memByte t.mem a = memByte s.mem a
  wf    : memWf s.mem = true → memWf t.mem = true
  /-- Every turn finds its source byte as it was where no earlier turn wrote it, and the byte it wrote is there at
  the end where no other turn wrote at its address. -/
  bytes : memWf s.mem = true → (∀ j < n, ∀ j' < n, T j = T j' → j = j') →
    (∀ j < n, ∀ j' < j, T j' ≠ S j) → ∀ j < n, R (memByte s.mem (S j)) (memByte t.mem (T j))

theorem forUpTo_moves {s : State} {n : Nat} {body : Nat → State → Flow Unit} {S T : Nat → Nat}
    {R : Byte → Byte → Prop} {F : Prop}
    (hbody : ∀ j < n, RewritesByte s (body j) (T j) [.r (S j), .w (T j)]
      (fun found => R (memByte found (S j))) F) :
    ∃ t, forUpTo n body s = .go () t ∧ (F → t.freeCount = s.freeCount) ∧ BytesMoved n S T R s t := by
  obtain ⟨t, hrun, hsame, hops, hfree, hframe, hbytes⟩ := forUpTo_bytes s n body T
    (fun j => [.r (S j), .w (T j)]) (fun j found => R (memByte found (S j))) F hbody
  refine ⟨t, hrun, hfree, hsame, hops, hframe, fun hwf => (hbytes hwf).1, fun hwf hinj hsrc j hj => ?_⟩
  have hlast : ∀ j' < n, j < j' → T j' ≠ T j := fun j' hj' hlt he => hlt.ne (hinj j' hj' j hj he).symm
  obtain ⟨found, -, hfound, hR⟩ := (hbytes hwf).2 j hj hlast
  rwa [hfound (S j) (hsrc j hj)] at hR

/-- Bytes that are read outside the bytes written, and written once each, meet what `BytesMoved.bytes` asks. -/
theorem BytesMoved.bytes_of_apart {n : Nat} {S T : Nat → Nat} {R : Byte → Byte → Prop} {s t : State}
    (h : BytesMoved n S T R s t) (hwf : memWf s.mem = true)
    (hapart : ∀ j < n, ∀ j' < n, S j ≠ T j' ∧ (T j = T j' → j = j')) :
    ∀ j < n, R (memByte s.mem (S j)) (memByte t.mem (T j)) :=
  h.bytes hwf (fun j hj j' hj' => (hapart j hj j' hj').2)
    fun j hj j' hlt he => (hapart j hj j' (hlt.trans hj)).1 he.symm

/-! ### GLYPHGET and GLYPHPUT (rules R187, R188) -/

/-- A line of copies between populated addresses takes no free value. -/
theorem forUpTo_copyByte {s : State} {n : Nat} {sa da : Nat → Int}
    (hpop : ∀ j < n, populated s (truncA s.cfg (sa j)) ∧ populated s (truncA s.cfg (da j))) :
    ∃ t, forUpTo n (fun j => copyByte (sa j) (da j)) s = .go () t ∧ t = { s with mem := t.mem, bus := t.bus } ∧
      BytesMoved n (fun j => truncA s.cfg (sa j)) (fun j => truncA s.cfg (da j)) (fun b v => v = b) s t := by
  obtain ⟨t, hrun, hfree, hmoved⟩ := forUpTo_moves (R := fun b v => v = b) fun j hj t ht =>
    copyByte_turn (sa j) (da j) ht (hpop j hj).1 (hpop j hj).2
  exact ⟨t, hrun, hmoved.same.eq_of_freeCount (hfree trivial), hmoved⟩

section
variable {s : State} {code : Byte}

theorem exec_glyphget_populated
    (hpop : ∀ r < 8, populated s (glyphSlot s code r) ∧ populated s (dstByteAddr s r)) :
    ∃ t, exec (.glyphget code) s = .next t ∧ t = { s with mem := t.mem, bus := t.bus } ∧
      BytesMoved 8 (glyphSlot s code) (dstByteAddr s) (fun b v => v = b) s t := by
  obtain ⟨t, hrun, hrest⟩ := forUpTo_copyByte (sa := fun r => glyphAddr s.x code r)
    (da := fun r => (s.x.dstAddr.toNat + r : Nat)) hpop
  exact ⟨t, congrArg Flow.outcome hrun, hrest⟩

theorem exec_glyphput_populated
    (hpop : ∀ r < 8, populated s (srcByteAddr s r) ∧ populated s (glyphSlot s code r)) :
    ∃ t, exec (.glyphput code) s = .next t ∧ t = { s with mem := t.mem, bus := t.bus } ∧
      BytesMoved 8 (srcByteAddr s) (glyphSlot s code) (fun b v => v = b) s t := by
  obtain ⟨t, hrun, hrest⟩ := forUpTo_copyByte (sa := fun r => (s.x.srcAddr.toNat + r : Nat))
    (da := fun r => glyphAddr s.x code r) hpop
  exact ⟨t, congrArg Flow.outcome hrun, hrest⟩

end

/-- Settles O44. -/
theorem glyphCopiesMoveEightBytes : Obligations.GlyphCopiesMoveEightBytes := by
  refine fun s code => ⟨fun hpop => ?_, fun hpop => ?_⟩
  · obtain ⟨t, hexec, hframe, hmoved⟩ := exec_glyphget_populated hpop
    exact ⟨t, hexec, hframe, hmoved.ops, hmoved.frame, hmoved.bytes_of_apart⟩
  · obtain ⟨t, hexec, hframe, hmoved⟩ := exec_glyphput_populated hpop
    exact ⟨t, hexec, hframe, hmoved.ops, hmoved.frame, hmoved.bytes_of_apart⟩

/-- Settles O45: GLYPHPUT changes no register, so GLYPHGET reads the slot that GLYPHPUT wrote. -/
theorem glyphRoundTripReproducesTheBytes : Obligations.GlyphRoundTripReproducesTheBytes := by
  intro s code hwf hpop hapart
  obtain ⟨t, hput, hframe, hstored⟩ := exec_glyphput_populated fun r hr => ⟨(hpop r hr).1, (hpop r hr).2.1⟩
  have hslot : glyphSlot t code = glyphSlot s code := by rw [hframe]; rfl
  have hdst : dstByteAddr t = dstByteAddr s := by rw [hframe]; rfl
  obtain ⟨u, hget, -, hfetched⟩ := exec_glyphget_populated (s := t) (code := code) fun r hr => by
    rw [hslot, hdst, populated, populated, hstored.same.cfg]
    exact (hpop r hr).2
  rw [hslot, hdst] at hfetched
  refine ⟨t, u, hput, hget, fun r hr => ?_⟩
  calc memByte u.mem (dstByteAddr s r)
    _ = memByte t.mem (glyphSlot s code r) :=
      hfetched.bytes_of_apart (hstored.wf hwf)
        (fun j hj j' hj' => have h := hapart j hj j' hj'; ⟨h.2.1, h.2.2.2.2⟩) r hr
    _ = memByte s.mem (srcByteAddr s r) :=
      hstored.bytes_of_apart hwf
        (fun j hj j' hj' => have h := hapart j hj j' hj'; ⟨h.1, h.2.2.2.1⟩) r hr

/-! ### PRINT (rules R181 to R183) -/

/-- Settles O41. -/
theorem printWithoutGlyphSetDoesNothing : Obligations.PrintWithoutGlyphSetDoesNothing :=
  fun _ _ => ⟨fun _ hready hctrl => onKind_of_go hready (if_pos hctrl), onKind_text⟩

/-- What a turn of PRINT or RECOLOR may write for the byte `b`: `f b` where `ok` holds of it, else any byte. -/
def RecolouredWhere (ok : Byte → Bool) (f : Byte → Byte) (b v : Byte) : Prop := ok b = true → v = f b

theorem readColourWrite_turn {s : State} (ok : Byte → Bool) (f : Byte → Byte) (sa da : Int)
    (hs : populated s (truncA s.cfg sa)) (hd : populated s (truncA s.cfg da)) :
    RewritesByte s
      (fun t => (memRead sa t).bind fun b t1 => (colourByte (ok b) (f b) t1).bind fun p t2 => memWrite da p t2)
      (truncA s.cfg da) [.r (truncA s.cfg sa), .w (truncA s.cfg da)]
      (fun found => RecolouredWhere ok f (memByte found (truncA s.cfg sa))) False := by
  intro t ht
  obtain ⟨t1, hread, ht1, hops1, hmem1, -⟩ := memRead_turn sa ht hs
  obtain ⟨t2, v, hwrite, ht2, hops2, hmem2, hv, -⟩ := colourWrite_turn _ _ da ht1 hd
  refine ⟨t2, v, (congrArg (Flow.bind · _) hread).trans hwrite, ht2, ?_, hmem1 ▸ hmem2, hv, False.elim⟩
  rw [hops2, hops1, List.append_assoc]
  rfl

/-- A line of recolourings between populated addresses. -/
theorem forUpTo_readColourWrite {s : State} {n : Nat} {sa da : Nat → Int} (ok : Byte → Bool) (f : Byte → Byte)
    (hpop : ∀ j < n, populated s (truncA s.cfg (sa j)) ∧ populated s (truncA s.cfg (da j))) :
    ∃ t, forUpTo n (fun j t => (memRead (sa j) t).bind fun b t1 =>
        (colourByte (ok b) (f b) t1).bind fun p t2 => memWrite (da j) p t2) s = .go () t ∧
      BytesMoved n (fun j => truncA s.cfg (sa j)) (fun j => truncA s.cfg (da j)) (RecolouredWhere ok f) s t := by
  obtain ⟨t, hrun, -, hmoved⟩ := forUpTo_moves fun j hj =>
    readColourWrite_turn ok f (sa j) (da j) (hpop j hj).1 (hpop j hj).2
  exact ⟨t, hrun, hmoved⟩

/-- The test of rule R182 changes no result: with INK = 3 and PAPER = 0 the masking rule is the identity. -/
theorem printedByte_eq_recolour (x : Regs) (g : Byte) : printedByte x g = recolour g x.ink x.paper := by
  rw [printedByte]
  split
  · rfl
  · next h =>
    obtain ⟨hink, hpaper⟩ := not_or.1 h
    rw [not_not.1 hink, not_not.1 hpaper]
    exact (recolourActsLaneByLane.2 g).symm

theorem printGlyph_populated {s : State} {k : Kind} {ch : Byte}
    (hpop : ∀ r < 8, populated s (glyphSlot s ch r) ∧ populated s (printTarget s k r)) :
    ∃ t, printGlyph k ch s = .go () t ∧ BytesMoved 8 (glyphSlot s ch) (printTarget s k)
      (RecolouredWhere (fun _ => colourLegal s.x.ink && colourLegal s.x.paper) (printedByte s.x)) s t :=
  forUpTo_readColourWrite _ _ hpop

/-- Rule R183 in numbers. -/
theorem advance_xd (xd : BitVec 16) : ((xd + 4).setWidth 32).setWidth 16 = BitVec.ofNat 16 (xd.toNat + 4) := by
  bv_omega

/-- Settles O42: the eight rows are drawn before XD is written, which touches neither memory nor the accesses. -/
theorem printDrawsTheGlyphAndAdvances : Obligations.PrintDrawsTheGlyphAndAdvances := by
  intro s k ch hready hctrl hpop
  obtain ⟨t, hrun, hmoved⟩ := printGlyph_populated hpop
  let u := writeReg .xd ((s.x.xd + 4).setWidth 32) t
  have hexec : exec (.print k ch) s = .next u := by
    refine onKind_of_go hready ?_
    rw [if_neg (by rw [hctrl]; decide), hrun]
    rfl
  have hframe : u = { s with
      x := { s.x with xd := BitVec.ofNat 16 (s.x.xd.toNat + 4) }
      written := markWritten .xd s.written
      mem := u.mem, bus := u.bus, freeCount := u.freeCount } := by
    rw [← advance_xd]
    change writeReg _ _ t = _
    rw [hmoved.same]
    rfl
  refine ⟨u, hexec, hframe, hmoved.ops, hmoved.frame, fun hwf hink hpaper hapart r hr => ?_⟩
  have hlegal : (colourLegal s.x.ink && colourLegal s.x.paper) = true :=
    Bool.and_eq_true_iff.2 ⟨decide_eq_true hink, decide_eq_true hpaper⟩
  exact (hmoved.bytes_of_apart hwf hapart r hr hlegal).trans (printedByte_eq_recolour _ _)

/-! ### RECOLOR (rule R185) -/

/-- The bytes of a glyph set no longer than the address space are apart. -/
theorem recolorTarget_inj {s : State} {n j j' : Nat} (hn : n ≤ 2 ^ s.cfg.addrBits) (hj : j < n) (hj' : j' < n)
    (h : recolorTarget s j = recolorTarget s j') : j = j' := by
  rw [recolorTarget, recolorTarget, truncA_natCast, truncA_natCast] at h
  exact (Nat.ModEq.add_left_cancel' _ h).eq_of_lt_of_lt (hj.trans_le hn) (hj'.trans_le hn)

/-- Settles O43: each turn reads and writes one byte of the set, so every turn finds its byte as it was. -/
theorem recolorRewritesCanonicalBytes : Obligations.RecolorRewritesCanonicalBytes := by
  intro s ink paper hpop
  obtain ⟨t, hrun, hmoved⟩ := forUpTo_readColourWrite (s := s)
    (sa := fun j => (s.x.glyphAddr.toNat + j : Nat)) (da := fun j => (s.x.glyphAddr.toNat + j : Nat))
    canonical (fun b => recolour b (ink.setWidth 8) (paper.setWidth 8)) fun j hj => ⟨hpop j hj, hpop j hj⟩
  refine ⟨t, congrArg Flow.outcome hrun, hmoved.same, hmoved.ops, hmoved.frame, fun hwf hcount => ?_⟩
  exact hmoved.bytes hwf (fun j hj j' hj' => recolorTarget_inj hcount hj hj') fun j hj j' hlt he =>
    hlt.ne (recolorTarget_inj hcount (hlt.trans hj) hj he)

end Sys2Proof.Machine
end

section
/-! PROOFS. O19, O30, O31, O32, O33: the geometry a MODE write selects and the one address formula under it.
The address of a byte is a bank and an offset in the bank, and both are read back from it where the offsets
stay below the bank spacing. -/

namespace Sys2Proof.Machine

/-! ### The geometry a MODE write selects (rule R201) -/

theorem exec_setl_mode (imm : BitVec 16) (s : State) : exec (.setl 18 imm) s = .next (modeWrite imm s) := rfl

theorem effectiveMode_of_graphics {v : BitVec 16} (h : v.extractLsb' 0 2 ≠ 0) (c : Config) :
    effectiveMode c v = if c.hercPresent then 3 else v.extractLsb' 0 2 := by
  simp only [effectiveMode, ne_eq, h, not_false_eq_true, true_and]

theorem effectiveMode_of_text {v : BitVec 16} (h : v.extractLsb' 0 2 = 0) (c : Config) :
    effectiveMode c v = 0 := by
  rw [effectiveMode, if_neg fun hg => hg.1 h, h]

theorem effectiveMode_ne_zero {v : BitVec 16} (h : v.extractLsb' 0 2 ≠ 0) (c : Config) :
    effectiveMode c v ≠ 0 := by
  rw [effectiveMode_of_graphics h]
  split
  · decide
  · exact h

/-- Every graphics mode has a row in `Geom` (rule R12). -/
theorem exists_geomOf {m : BitVec 2} (h : m ≠ 0) (c : Config) : ∃ g, geomOf c m = some g := by
  rw [geomOf, if_neg h]
  split
  · exact ⟨_, rfl⟩
  · split <;> exact ⟨_, rfl⟩

theorem modeWrite_of_geom {v : BitVec 16} {s : State} {g : Geom}
    (h : geomOf s.cfg (effectiveMode s.cfg v) = some g) :
    modeWrite v s = loadGeometry g (writeReg .mode ((effectiveMode s.cfg v).setWidth 32) s) := by
  simp [modeWrite, h]

theorem modeWrite_of_text {v : BitVec 16} {s : State} (h : v.extractLsb' 0 2 = 0) :
    modeWrite v s = dropGeometry (writeReg .mode 0 s) := by
  simp [modeWrite, effectiveMode_of_text h, geomOf]

/-- Loading the cache marks its five registers and no other. -/
theorem mem_written_loadGeometry (r : Reg) (g : Geom) (s : State) :
    r ∈ (loadGeometry g s).written ↔ r ∈ s.written ∨ r.isCache = true := by
  simp only [loadGeometry, mem_markWritten, Reg.isCache, List.mem_cons, List.not_mem_nil, decide_eq_true_eq]
  tauto

/-- Settles O19: a MODE write is the write of the effective mode, then the load or the loss of the cache. -/
theorem modeWriteSelectsTheGeometry : Obligations.ModeWriteSelectsTheGeometry := by
  intro s imm
  refine ⟨fun hgraphics => ?_, fun htext => ?_⟩
  · obtain ⟨g, hg⟩ := exists_geomOf (effectiveMode_ne_zero hgraphics s.cfg) s.cfg
    refine ⟨effectiveMode s.cfg imm, g, _, effectiveMode_of_graphics hgraphics s.cfg, hg,
      exec_setl_mode imm s, ?_, fun r => ?_⟩
    · rw [modeWrite_of_geom hg]
      simp [loadGeometry, writeReg, setReg]
    · rw [modeWrite_of_geom hg, mem_written_loadGeometry, writeReg_written, mem_markWritten]
      simp only [Reg.isCache, decide_eq_true_eq, List.mem_cons]
      tauto
  · refine ⟨_, exec_setl_mode imm s, ?_, fun r => ?_⟩
    · rw [modeWrite_of_text htext]
      rfl
    · rw [modeWrite_of_text htext, mem_written_dropGeometry, writeReg_written, mem_markWritten, Reg.isCache,
        decide_eq_false_iff_not, or_comm]

/-! ### The formula mode by mode (rules R203 to R205) -/

/-- In a graphics mode the cached factors are those of the mode's row in `Geom`. -/
theorem factors_of_geometryCached {c : Config} {x : Regs} {m : BitVec 2} {g : Geom}
    (h : geometryCached c x = true) (hm : x.mode = m) (hg : geomOf c m = some g) :
    x.gIlv = g.ilv ∧ x.gYmult = g.ymult ∧ x.gYdiv = g.ydiv := by
  simp only [geometryCached, hm, hg, Bool.and_eq_true, beq_iff_eq] at h
  obtain ⟨⟨⟨-, hilv⟩, hymult⟩, hydiv⟩ := h
  exact ⟨hilv, hymult, hydiv⟩

/-- Where the scale is 1/1 the scaled row is the row. -/
theorem scaledRow_of_unscaled {x : Regs} (hmult : x.gYmult = 1) (hdiv : x.gYdiv = 1) (py : Nat) :
    scaledRow x py = py := by
  simp [scaledRow, hmult, hdiv]

/-- Settles O30: in each mode the formula takes the factors of the mode's row. -/
theorem surfaceAddressModeByMode : Obligations.SurfaceAddressModeByMode := by
  intro c x px py hcached
  refine ⟨fun hm => ?_, fun hm => ?_, fun hm => ?_⟩
  · obtain ⟨hilv, hmult, hdiv⟩ := factors_of_geometryCached hcached hm rfl
    simp [surfAddr, scaledRow_of_unscaled hmult hdiv, hilv, Nat.mod_one]
  · obtain ⟨hilv, hmult, hdiv⟩ := factors_of_geometryCached hcached hm rfl
    simp [surfAddr, scaledRow_of_unscaled hmult hdiv, hilv, bankSpacing]
  · obtain ⟨hilv, -, -⟩ := factors_of_geometryCached hcached hm rfl
    simp [surfAddr, scaledRow, hilv, bankSpacing]

/-! ### Bytes of a row and of a rectangle (rules R206, R209) -/

/-- Settles O31: a column enters the formula by its byte `px / 4` alone. -/
theorem surfaceRowIsConsecutive : Obligations.SurfaceRowIsConsecutive := by
  intro x px py
  have hnext : (px + 4) / 4 = px / 4 + 1 := by omega
  have hfirst : (px - px % 4) / 4 = px / 4 := by omega
  constructor
  · rw [surfAddr, surfAddr, hnext]
    omega
  · rw [surfAddr, surfAddr, hfirst]

/-- A scale of at least 1 keeps distinct rows distinct and in order. -/
theorem scaledRow_strictMono {x : Regs} (hdiv : 0 < x.gYdiv.toNat) (hmult : x.gYdiv.toNat ≤ x.gYmult.toNat) :
    StrictMono (scaledRow x) := by
  refine strictMono_nat_of_lt_succ fun y => ?_
  calc scaledRow x y < y * x.gYmult.toNat / x.gYdiv.toNat + 1 := Nat.lt_succ_self _
    _ = (y * x.gYmult.toNat + x.gYdiv.toNat) / x.gYdiv.toNat := (Nat.add_div_right _ hdiv).symm
    _ ≤ scaledRow x (y + 1) := Nat.div_le_div_right (by rw [Nat.succ_mul]; omega)

/-- A quotient and a remainder below the divisor are determined by the number they make. -/
theorem mul_add_inj_of_lt {d q q' r r' : Nat} (hr : r < d) (hr' : r' < d) (h : d * q + r = d * q' + r') :
    q = q' ∧ r = r' := by
  have hd : 0 < d := Nat.zero_lt_of_lt hr
  obtain ⟨hq, hm⟩ := (Nat.div_mod_unique hd).2 ⟨Nat.add_comm r _, hr⟩
  obtain ⟨hq', hm'⟩ := (Nat.div_mod_unique hd).2 ⟨(Nat.add_comm r' _).trans h.symm, hr'⟩
  exact ⟨hq.symm.trans hq', hm.symm.trans hm'⟩

/-- The bank of byte column `j` of row `y`. -/
def bankOf (x : Regs) (y : Nat) : Nat := scaledRow x y % x.gIlv.toNat

/-- The offset of byte column `j` of row `y` in its bank. -/
def bankOffset (x : Regs) (j y : Nat) : Nat := x.gStride.toNat * (scaledRow x y / x.gIlv.toNat) + j

theorem surfAddr_eq_bank_add_offset (x : Regs) (j y : Nat) :
    surfAddr x (4 * j) y = x.gBase.toNat + (bankSpacing * bankOf x y + bankOffset x j y) := by
  rw [surfAddr, bankOf, bankOffset, Nat.mul_div_cancel_left j (by decide)]
  omega

theorem surfaceScaled_iff {x : Regs} : surfaceScaled x = true ↔ 0 < x.gIlv.toNat ∧ 0 < x.gYdiv.toNat := by
  simp [surfaceScaled]

section

variable {x : Regs} {n h j j' y y' : Nat}

/-- Within a row of bytes no longer than the stride, bank and offset determine the byte. -/
theorem byte_eq_of_bank_eq (hrows : (scaledRow x).Injective) (hj : j < x.gStride.toNat)
    (hj' : j' < x.gStride.toNat) (hbank : bankOf x y = bankOf x y')
    (hoffset : bankOffset x j y = bankOffset x j' y') : j = j' ∧ y = y' := by
  obtain ⟨hrow, hcol⟩ := mul_add_inj_of_lt hj hj' hoffset
  exact ⟨hcol, hrows (Nat.ext_div_mod hrow hbank)⟩

/-- No byte of a rectangle overruns its bank when the last row's bytes do not. -/
theorem bankOffset_lt (hrows : Monotone (scaledRow x))
    (hfits : x.gStride.toNat * (scaledRow x (h - 1) / x.gIlv.toNat) + n ≤ bankSpacing)
    (hj : j < n) (hy : y < h) : bankOffset x j y < bankSpacing := by
  have hlast : scaledRow x y ≤ scaledRow x (h - 1) := hrows (Nat.le_pred_of_lt hy)
  calc bankOffset x j y < x.gStride.toNat * (scaledRow x y / x.gIlv.toNat) + n := Nat.add_lt_add_left hj _
    _ ≤ x.gStride.toNat * (scaledRow x (h - 1) / x.gIlv.toNat) + n := by gcongr
    _ ≤ bankSpacing := hfits

/-- An interleaved address gives bank and offset back; a linear surface has one bank. -/
theorem bank_eq_of_surfAddr_eq (hilv : 0 < x.gIlv.toNat)
    (hoffset : 1 < x.gIlv.toNat → bankOffset x j y < bankSpacing ∧ bankOffset x j' y' < bankSpacing)
    (heq : surfAddr x (4 * j) y = surfAddr x (4 * j') y') :
    bankOf x y = bankOf x y' ∧ bankOffset x j y = bankOffset x j' y' := by
  rw [surfAddr_eq_bank_add_offset, surfAddr_eq_bank_add_offset, Nat.add_left_cancel_iff] at heq
  rcases (Nat.succ_le_of_lt hilv).lt_or_eq' with hinterleaved | hlinear
  · obtain ⟨hlt, hlt'⟩ := hoffset hinterleaved
    exact mul_add_inj_of_lt hlt hlt' heq
  · have hbank : bankOf x y = bankOf x y' := by simp only [bankOf, hlinear, Nat.mod_one]
    exact ⟨hbank, Nat.add_left_cancel (hbank ▸ heq)⟩

end

/-- Settles O32: below `2^A` nothing is reduced, so the address gives bank and offset, and they the byte. -/
theorem surfaceRectangleIsInjective : Obligations.SurfaceRectangleIsInjective := by
  intro c x n h hscaled hmult hn hfits hspace j hj y hy j' hj' y' hy' heq
  rw [truncA_natCast, truncA_natCast, Nat.mod_eq_of_lt (hspace j hj y hy),
    Nat.mod_eq_of_lt (hspace j' hj' y' hy')] at heq
  obtain ⟨hilv, hdiv⟩ := surfaceScaled_iff.1 hscaled
  have hrows : StrictMono (scaledRow x) := scaledRow_strictMono hdiv hmult
  obtain ⟨hbank, hoffset⟩ := bank_eq_of_surfAddr_eq hilv (fun hinterleaved =>
    ⟨bankOffset_lt hrows.monotone (hfits hinterleaved) hj hy,
      bankOffset_lt hrows.monotone (hfits hinterleaved) hj' hy'⟩) heq
  exact byte_eq_of_bank_eq hrows.injective (hj.trans_le hn) (hj'.trans_le hn) hbank hoffset

/-! ### MAPADDR (rule R207) -/

/-- Settles O33: with a surface in being MAPADDR is one write of RESULT. -/
theorem mapaddrLeavesTheAddressInResult : Obligations.MapaddrLeavesTheAddressInResult := by
  intro s hready
  change onKind .surf (encode .mapaddr) s _ = _
  rw [onKind_ready hready, truncA_natCast]
  rfl

end Sys2Proof.Machine
end

section
/-! PROOFS. O27 to O29: the raster compositor.  The algebra of the draw modes, the pixel operation as the byte
operation on one lane, and COMPOSE as one write of RESULT whose value is the composed byte. -/

namespace Sys2Proof.Machine

/-! ### The algebra of the draw modes (rule R228) -/

section
variable {m : DrawMode} (hm : m = .and ∨ m = .or ∨ m = .xor)
include hm

/-- The three modes that combine destination and source do not tell them apart. -/
theorem compose_comm (d s : Byte) : compose m d s = compose m s d := by
  rcases hm with rfl | rfl | rfl
  · exact BitVec.and_comm d s
  · exact BitVec.or_comm d s
  · exact BitVec.xor_comm d s

theorem compose_assoc (d s1 s2 : Byte) :
    compose m (compose m d s1) s2 = compose m d (compose m s1 s2) := by
  rcases hm with rfl | rfl | rfl
  · exact BitVec.and_assoc d s1 s2
  · exact BitVec.or_assoc d s1 s2
  · exact BitVec.xor_assoc d s1 s2

/-- Two sources may be composed in either order. -/
theorem compose_right_comm (d s1 s2 : Byte) :
    compose m (compose m d s1) s2 = compose m (compose m d s2) s1 :=
  calc compose m (compose m d s1) s2 = compose m d (compose m s1 s2) := compose_assoc hm d s1 s2
    _ = compose m d (compose m s2 s1) := by rw [compose_comm hm s1 s2]
    _ = compose m (compose m d s2) s1 := (compose_assoc hm d s2 s1).symm

end

theorem compose_xor_twice (d s : Byte) : compose .xor (compose .xor d s) s = d := by
  simp only [compose, BitVec.xor_assoc, BitVec.xor_self, BitVec.xor_zero]

/-- Settles O27: order-independence from associativity and commutativity; 0xFF is the byte of all ones. -/
theorem compositorAlgebra : Obligations.CompositorAlgebra := fun d s s1 s2 =>
  ⟨fun _ hm => ⟨compose_right_comm hm d s1 s2, compose_comm hm d s, compose_assoc hm d s1 s2⟩,
    compose_xor_twice d s, rfl, rfl, BitVec.and_allOnes, BitVec.or_zero, BitVec.xor_zero,
    BitVec.xor_allOnes⟩

/-! ### Four lanes at once (rule R227) -/

/-- No draw mode carries from one lane to another. -/
theorem pixGet_compose (m : DrawMode) (d s : Byte) (l : Fin 4) :
    pixGet (compose m d s) l = compose2 m (pixGet d l) (pixGet s l) := by
  cases m with
  | copy => rfl
  | copyInv => exact (pixGet_not s l).trans (three_sub_pixel _).symm
  | and => exact pixGet_and d s l
  | or => exact pixGet_or d s l
  | xor => exact pixGet_xor d s l

/-- Settles O28: the table is the definition of `compose2`. -/
theorem composeActsLaneByLane : Obligations.ComposeActsLaneByLane :=
  ⟨fun _ _ => ⟨rfl, rfl, rfl, rfl, rfl⟩, pixGet_compose⟩

/-! ### COMPOSE (rules R222 to R226) -/

/-- The complement is taken in 8 bits, so its extension is 255 less the source (rule R223). -/
theorem setWidth_compose_copyInv (d s : Byte) :
    (compose .copyInv d s).setWidth 32 = BitVec.ofNat 32 (255 - s.toNat) := by
  rw [← BitVec.ofNat_toNat, compose, BitVec.toNat_not]

/-- Settles O29: each row is one write of RESULT with the byte of its draw mode. -/
theorem composeLeavesItsByteInResult : Obligations.ComposeLeavesItsByteInResult := fun st d s => by
  refine ⟨exec_composeRow d s .copy st, ?_, exec_composeRow d s .and st, exec_composeRow d s .or st,
    exec_composeRow d s .xor st⟩
  rw [← setWidth_compose_copyInv d s]
  exact exec_composeRow d s .copyInv st

end Sys2Proof.Machine
end

section
/-! PROOFS. O7, O10, O13, O14, O53: the halted state (rule R247), NoSurface in text mode (rule R243), what a
BusError leaves of the registers (rules R244, R245), and FILL up to its first refused write (rule R245). -/

namespace Sys2Proof.Machine

/-! ### The halted state (rules R247, R249) -/

theorem issue_halted {s : State} (hhalted : s.halted = true) (c : Word) : issue c s = .next (accept s) := by
  simp [issue, hhalted]

/-- Settles O7. -/
theorem haltedDiscardsEveryWord : Obligations.HaltedDiscardsEveryWord :=
  fun _ c _ hmoves hhalted => (step_move hmoves).trans (issue_halted (by exact hhalted) c)

/-- A step that answers `u` or a fault has no other next state: the host's own accesses to memory are such. -/
theorem eq_of_guarded_next {b : Bool} {f : Fault} {t u : State}
    (h : (if b then .next u else .fault f : Host.Outcome State Fault Refusal) = .next t) : t = u := by
  cases b <;> cases h
  rfl

/-- Settles O53, move by move. -/
theorem onlyResetLeavesTheHaltedState : Obligations.OnlyResetLeavesTheHaltedState := by
  intro s t hhalted hreset h
  cases hmoves : s.moves with
  | nil =>
    rw [step, hmoves] at h
    cases h
    exact ⟨hhalted, rfl, fun _ => rfl⟩
  | cons m rest =>
    rw [step_move hmoves] at h
    cases m with
    | reset => exact absurd hmoves (hreset rest)
    | command c =>
      have hdiscard := (issue_halted (s := { s with moves := rest }) hhalted c).symm.trans h
      cases hdiscard
      exact ⟨hhalted, rfl, fun _ => rfl⟩
    | readRegister idx =>
      cases h
      exact ⟨hhalted, rfl, fun _ => rfl⟩
    | readMemory a =>
      obtain rfl := eq_of_guarded_next h
      exact ⟨hhalted, rfl, fun _ => rfl⟩
    | writeMemory a v =>
      obtain rfl := eq_of_guarded_next h
      exact ⟨hhalted, rfl, fun hwrite => absurd rfl (hwrite a v rest)⟩

/-! ### NoSurface (rule R243) -/

/-- The commands that use the surface go through step 4 of rule R96 with their own word. -/
theorem exec_of_usesSurface {i : Instr} (h : usesSurface i = true) (s : State) :
    ∃ run, exec i s = onKind .surf (encode i) s run := by
  cases i with
  | mapaddr => exact ⟨_, rfl⟩
  | getpix k | get k | fill k | print k _ | putpixCopy k _ | putpixCopyinv k _ | putpixAnd k _ | putpixOr k _
  | putpixXor k _ | putCopy _ k | putCopyinv _ k | putAnd _ k | putOr _ k | putXor _ k =>
    obtain rfl : k = .surf := eq_of_beq h
    exact ⟨_, rfl⟩
  | nop | setl | seth | composeCopy | composeCopyinv | composeAnd | composeOr | composeXor | recolor | glyphget
  | glyphput => cases h

/-- Settles O10: NoSurface comes before anything the command would do. -/
theorem surfaceCommandInTextModeRaisesNoSurface : Obligations.SurfaceCommandInTextModeRaisesNoSurface := by
  intro i s hsurf hmode
  obtain ⟨run, hexec⟩ := exec_of_usesSurface hsurf s
  exact hexec.trans (onKind_text hmode)

/-! ### The registers after a BusError (rules R244, R245) -/

/-- If `t` shows a BusError, its registers are those of `s` but for that one error entry. -/
def OnlyBusErrorChanged (s t : State) : Prop := t.x.status = 0b100 → RegsAfterBusError s.cfg s.x t.x

section
variable {s : State} (hstatus : s.x.status ≠ 0b100)
include hstatus

theorem OnlyBusErrorChanged.of_status_eq {t : State} (h : t.x.status = s.x.status) : OnlyBusErrorChanged s t :=
  fun ht => absurd (h.symm.trans ht) hstatus

/-- A memory part that changes no register of its own, followed by a write of one data register. -/
theorem Flow.KeepsRegs.onlyBusErrorChanged_write {α : Type} {p : Flow α} (hp : Flow.KeepsRegs s.cfg s.x p)
    {r : Reg} (hr : r.isData = true) (f : α → Word) :
    OnlyBusErrorChanged s (p.bind fun v u => .go () (writeReg r (f v) u)).state := by
  cases p with
  | go v u =>
    obtain ⟨hcfg, hx⟩ := hp
    refine .of_status_eq hstatus ?_
    rw [Flow.bind_go, Flow.state_go, writeReg_x, (setReg_data_status hr _ _ _).1, hx]
  | stop u => exact fun _ => hp.2

theorem Flow.KeepsRegs.onlyBusErrorChanged {p : Flow Unit} (hp : Flow.KeepsRegs s.cfg s.x p) :
    OnlyBusErrorChanged s p.state := by
  cases p with
  | go _ u => exact .of_status_eq hstatus (congrArg Regs.status hp.2)
  | stop u => exact fun _ => hp.2

end

theorem eq_busError_of_statusBit {e : Cause} (h : e.statusBit = 0b100) : e = .busError := by
  cases e with
  | busError => rfl
  | illegalCommand | noSurface =>
    revert h
    decide

theorem onlyBusErrorChanged_raiseError {e : Cause} (he : e ≠ .busError) (info : Word) (s : State) :
    OnlyBusErrorChanged s (raiseError e info s) :=
  fun h => absurd (eq_busError_of_statusBit h) he

section
variable {s t : State}

theorem onlyBusErrorChanged_onKind {k : Kind} {c : Word} {run : Flow Unit}
    (hrun : OnlyBusErrorChanged s run.state) (h : onKind k c s run = .next t) : OnlyBusErrorChanged s t := by
  rcases onKind_cases k c s run with ⟨-, e⟩ | ⟨-, -, e⟩ | ⟨-, -, -, e⟩ <;> rw [e] at h <;> cases h
  · exact hrun
  · exact onlyBusErrorChanged_raiseError (e := .noSurface) nofun c s

theorem onlyBusErrorChanged_outcome {p : Flow Unit} (hp : OnlyBusErrorChanged s p.state)
    (h : p.outcome = .next t) : OnlyBusErrorChanged s t := by
  rw [Flow.outcome_eq] at h
  cases h
  exact hp

variable (hstatus : s.x.status ≠ 0b100)
include hstatus

theorem execSetl_onlyBusErrorChanged {r : BitVec 5} {imm : BitVec 16} (h : execSetl r imm s = .next t) :
    OnlyBusErrorChanged s t := by
  unfold execSetl at h
  split at h
  next reg _ =>
    split_ifs at h with hunit hmode <;> cases h
    · exact onlyBusErrorChanged_raiseError (e := .illegalCommand) nofun _ s
    · exact .of_status_eq hstatus (sameErrorItems_modeWrite imm s).1
    · have hdata : reg.isData = true := Reg.isData_of_unitOnly (by simpa using hunit) hmode
      exact .of_status_eq hstatus (setReg_data_status hdata s.cfg s.x _).1
  next =>
    cases h
    exact onlyBusErrorChanged_raiseError (e := .illegalCommand) nofun _ s

theorem execSeth_onlyBusErrorChanged {r : BitVec 5} {imm : BitVec 16} (h : execSeth r imm s = .next t) :
    OnlyBusErrorChanged s t := by
  unfold execSeth at h
  split at h
  next reg _ =>
    split_ifs at h with haddr <;> cases h
    · have ⟨hunit, hmode⟩ := Reg.unitOnly_of_isAddress haddr
      exact .of_status_eq hstatus (setReg_data_status (Reg.isData_of_unitOnly hunit hmode) s.cfg s.x _).1
    · exact onlyBusErrorChanged_raiseError (e := .illegalCommand) nofun _ s
  next =>
    cases h
    exact onlyBusErrorChanged_raiseError (e := .illegalCommand) nofun _ s

theorem execMapaddr_onlyBusErrorChanged (h : execMapaddr s = .next t) : OnlyBusErrorChanged s t := by
  refine onlyBusErrorChanged_onKind ?_ h
  exact .of_status_eq hstatus rfl

theorem execPrint_onlyBusErrorChanged {k : Kind} {ch : Byte} (h : execPrint k ch s = .next t) :
    OnlyBusErrorChanged s t := by
  refine onlyBusErrorChanged_onKind ?_ h
  split_ifs
  · exact .of_status_eq hstatus rfl
  · exact (printGlyph_keepsRegs k ch s).onlyBusErrorChanged_write hstatus rfl _

/-- A command either ends without a BusError, or its memory part stops at one before any register write. -/
theorem exec_onlyBusErrorChanged {i : Instr} (h : exec i s = .next t) : OnlyBusErrorChanged s t := by
  have kind {k : Kind} {c : Word} {run : Flow Unit} (hrun : Flow.KeepsRegs s.cfg s.x run) :
      onKind k c s run = .next t → OnlyBusErrorChanged s t :=
    onlyBusErrorChanged_onKind (hrun.onlyBusErrorChanged hstatus)
  have loop {p : Flow Unit} (hp : Flow.KeepsRegs s.cfg s.x p) :
      p.outcome = .next t → OnlyBusErrorChanged s t :=
    onlyBusErrorChanged_outcome (hp.onlyBusErrorChanged hstatus)
  cases i with
  | nop | composeCopy | composeCopyinv | composeAnd | composeOr | composeXor =>
    cases h
    exact .of_status_eq hstatus rfl
  | setl r imm => exact execSetl_onlyBusErrorChanged hstatus h
  | seth r imm => exact execSeth_onlyBusErrorChanged hstatus h
  | getpix k =>
    exact onlyBusErrorChanged_onKind
      ((memRead_keepsRegs rfl rfl _).onlyBusErrorChanged_write hstatus (r := .result) rfl _) h
  | putpixCopy k v | putpixCopyinv k v | putpixAnd k v | putpixOr k v | putpixXor k v =>
    exact kind (putpix_keepsRegs _ k v s) h
  | mapaddr => exact execMapaddr_onlyBusErrorChanged hstatus h
  | putCopy full k | putCopyinv full k | putAnd full k | putOr full k | putXor full k =>
    exact kind (putRegion_keepsRegs _ full k s) h
  | get k => exact kind (getRegion_keepsRegs k s) h
  | fill k => exact kind (fillRegion_keepsRegs k s) h
  | print k ch => exact execPrint_onlyBusErrorChanged hstatus h
  | recolor ink paper =>
    exact loop (forUpTo_keepsRegs _ rfl rfl fun _ _ hc hx => recolorByte_keepsRegs hc hx ink paper _) h
  | glyphget code | glyphput code =>
    exact loop (forUpTo_keepsRegs _ rfl rfl fun _ _ hc hx => copyByte_keepsRegs hc hx _ _) h

end

/-- Settles O13: STATUS changed, so the command ended at its one error entry; a refused address fits in the 32
bits of FAULT_INFO. -/
theorem busErrorLeavesTheOtherRegisters : Obligations.BusErrorLeavesTheOtherRegisters := by
  intro i s t haddr hstatus h ht
  have hhalted : t.halted = true := by
    rcases commandRaisesAtMostOneError i s t h with ⟨hsame, -, -⟩ | ⟨hhalted, -⟩
    · exact absurd (hsame.symm.trans ht) hstatus
    · exact hhalted
  obtain ⟨a, hlt, hrefused, hx⟩ := exec_onlyBusErrorChanged hstatus h ht
  have hinfo : t.x.faultInfo = BitVec.ofNat 32 a := congrArg Regs.faultInfo hx
  have hword : a < 2 ^ 32 := hlt.trans_le (Nat.pow_le_pow_right (by decide) haddr)
  refine ⟨hhalted, ?_, hinfo ▸ hx⟩
  rwa [hinfo, BitVec.toNat_ofNat, Nat.mod_eq_of_lt hword]

/-! ### FILL up to its first refused write (rules R162, R245) -/

/-- Two nested loops of which a turn ends at an error, every earlier turn having gone on. -/
theorem forGrid_stop {rows cols r0 i0 : Nat} {body : Nat → Nat → State → Flow Unit} {s t1 t2 u : State}
    (hr0 : r0 < rows) (hi0 : i0 < cols)
    (hrows : forUpTo r0 (fun r => forUpTo cols (body r)) s = .go () t1)
    (hbytes : forUpTo i0 (body r0) t1 = .go () t2) (hstop : body r0 i0 t2 = .stop u) :
    forUpTo rows (fun r => forUpTo cols (body r)) s = .stop u := by
  have hrow : forUpTo cols (body r0) t1 = .stop u := by
    refine forUpTo_stop (i0 + 1) cols _ t1 u ?_ hi0
    rw [forUpTo, hbytes, Flow.bind_go, hstop]
  refine forUpTo_stop (r0 + 1) rows _ s u ?_ hr0
  rw [forUpTo, hrows, Flow.bind_go, hrow]

/-- The byte FILL writes in turn (`r`, `i`), from any state. -/
def fillTurn (s : State) (k : Kind) (r i : Nat) : State → Flow Unit :=
  memWrite (dstRow s.x k s.x.xd.toNat (s.x.yd.toNat + r) + i : Nat) (rep4 s.x.ink)

/-- With INK in range no turn of FILL takes a free byte. -/
theorem fillRegion_of_colourLegal {s : State} (hink : colourLegal s.x.ink = true) (k : Kind) :
    fillRegion k s =
      forUpTo s.x.h.toNat (fun r => forUpTo (s.x.w.toNat / 4) (fillTurn s k r)) s := by
  simp only [fillRegion, hink, colourByte, if_true, Flow.bind_go]
  rfl

/-- `t` is `s` after FILL's turns before (`r`, `i`), all of them made. -/
structure FilledBefore (s : State) (k : Kind) (r i : Nat) (t : State) : Prop where
  same  : t = { s with mem := t.mem, bus := t.bus }
  wf    : memWf t.mem = true
  bytes : ∀ r' i', i' < s.x.w.toNat / 4 → (r' < r ∨ r' = r ∧ i' < i) →
    memByte t.mem (rectTarget s k r' i') = rep4 s.x.ink
  frame : ∀ a, (∀ r' i', i' < s.x.w.toNat / 4 → (r' < r ∨ r' = r ∧ i' < i) → rectTarget s k r' i' ≠ a) →
    memByte t.mem a = memByte s.mem a

namespace FilledBefore

theorem start {s : State} (hwf : memWf s.mem = true) (k : Kind) : FilledBefore s k 0 0 s where
  same := rfl
  wf := hwf
  bytes _ _ _ hbefore := by omega
  frame _ _ := rfl

section
variable {s t : State} {k : Kind} {r i : Nat}

/-- The turns before a row are those before the end of the row above. -/
theorem nextRow (h : FilledBefore s k r (s.x.w.toNat / 4) t) : FilledBefore s k (r + 1) 0 t where
  same := h.same
  wf := h.wf
  bytes r' i' hi' hbefore := h.bytes r' i' hi' (by omega)
  frame a ha := h.frame a fun r' i' hi' hbefore => ha r' i' hi' (by omega)

theorem cfg (h : FilledBefore s k r i t) : t.cfg = s.cfg := by rw [h.same]

theorem turn (h : FilledBefore s k r i t) (hi : i < s.x.w.toNat / 4)
    (hvalid : memValid s.cfg (rectTarget s k r i) = true) :
    ∃ t', fillTurn s k r i t = .go () t' ∧ FilledBefore s k r (i + 1) t' := by
  have hwrite : fillTurn s k r i t = .go () { t with
      mem := memSet t.mem (rectTarget s k r i) (rep4 s.x.ink)
      bus := t.bus ++ [.write (rectTarget s k r i) (rep4 s.x.ink)] } := by
    rw [rectTarget, ← h.cfg] at hvalid ⊢
    exact memWrite_valid hvalid
  refine ⟨_, hwrite, by rw [h.same], memWf_memSet h.wf _ _, fun r' i' hi' hbefore => ?_, fun a ha => ?_⟩
  · rw [memByte_memSet h.wf]
    split_ifs with hsame
    · rfl
    · have hne : ¬ (r' = r ∧ i' = i) := fun ⟨hr, hi⟩ => hsame (by rw [hr, hi])
      exact h.bytes r' i' hi' (by omega)
  · rw [memByte_memSet_ne _ _ _ _ (ha r i hi (by omega)).symm]
    exact h.frame a fun r' i' hi' hbefore => ha r' i' hi' (by omega)

theorem turn_refused (h : FilledBefore s k r i t) (hrefused : memValid s.cfg (rectTarget s k r i) = false) :
    fillTurn s k r i t = .stop (raiseError .busError (BitVec.ofNat 32 (rectTarget s k r i)) t) := by
  rw [rectTarget, ← h.cfg] at hrefused ⊢
  exact memWrite_refused hrefused

end

end FilledBefore

/-- Settles O14: full rows, then the bytes before the refused one, then the error entry. -/
theorem fillStopsAtTheFirstRefusedWrite : Obligations.FillStopsAtTheFirstRefusedWrite := by
  intro s k r0 i0 hready hwf hink hr0 hi0 hrefused hvalid
  obtain ⟨t1, hrows, h1⟩ := forGrid_go (FilledBefore s k) r0 (s.x.w.toNat / 4) (fillTurn s k) s (.start hwf k)
    (fun r i _ hr hi h => h.turn hi (hvalid r i hi (.inl hr))) fun _ _ _ h => h.nextRow
  obtain ⟨t2, hbytes, h2⟩ := forUpTo_go (FilledBefore s k r0) i0 (fillTurn s k r0) t1 h1
    fun i _ hi h => h.turn (hi.trans hi0) (hvalid r0 i (hi.trans hi0) (.inr ⟨rfl, hi⟩))
  have hrun : fillRegion k s = .stop (raiseError .busError (BitVec.ofNat 32 (rectTarget s k r0 i0)) t2) :=
    (fillRegion_of_colourLegal hink k).trans (forGrid_stop hr0 hi0 hrows hbytes (h2.turn_refused hrefused))
  have hexec : exec (.fill k) s =
      .next (raiseError .busError (BitVec.ofNat 32 (rectTarget s k r0 i0)) t2) :=
    (onKind_ready hready).trans (by rw [hrun, Flow.state_stop])
  exact ⟨_, hexec, congrArg (raiseError .busError (BitVec.ofNat 32 (rectTarget s k r0 i0))) h2.same, h2.bytes,
    h2.frame⟩

end Sys2Proof.Machine
end

section
/-! PROOFS. O59: the only command that could stop the machine addresses a surface whose cached factors hold a
zero, and the cache invariant shuts that out (rules R201, R208); so every command ends (rule R295). -/

namespace Sys2Proof.Machine

/-! ### The cached factors divide (rule R208) -/

/-- Each row of `Geom` has positive divisors, the parameters being as rule R208 asks. -/
theorem geomOf_factors_pos {c : Config} {m : BitVec 2} {g : Geom} (hwf : c.wf = true)
    (h : geomOf c m = some g) : 0 < g.ilv.toNat ∧ 0 < g.ydiv.toNat := by
  have hydiv : 0 < c.hercYdiv.toNat := by
    simp only [Config.wf, Bool.and_eq_true, decide_eq_true_eq] at hwf
    exact hwf.2
  unfold geomOf at h
  split_ifs at h <;> cases h
  · simp
  · simp
  · exact ⟨Nat.zero_lt_succ 3, hydiv⟩

/-- In a graphics mode the formula of rule R202 divides by no zero. -/
theorem Inv.surfaceScaled_of_graphics {s : State} (h : Inv s) (hmode : s.x.mode ≠ 0) :
    surfaceScaled s.x = true := by
  obtain ⟨g, hg⟩ := exists_geomOf hmode s.cfg
  obtain ⟨hilv, -, hydiv⟩ := factors_of_geometryCached h.geometry rfl hg
  rw [surfaceScaled_iff, hilv, hydiv]
  exact geomOf_factors_pos h.cfgWf hg

/-! ### Every command ends -/

theorem exec_setl_next (r : BitVec 5) (imm : BitVec 16) (s : State) : ∃ t, exec (.setl r imm) s = .next t := by
  rcases lt_trichotomy r.toNat 18 with hlt | heq | hgt
  · obtain ⟨reg, hreg, hunit, hmode⟩ := regOfIndex_of_lt_18 hlt
    exact ⟨_, exec_setl_of_data imm s hreg hunit hmode⟩
  · obtain rfl : r = 18 := BitVec.eq_of_toNat_eq heq
    exact ⟨_, exec_setl_mode imm s⟩
  · exact ⟨_, exec_setl_of_illegal imm s (unitOnly_of_index_gt_18 hgt)⟩

theorem exec_seth_next (r : BitVec 5) (imm : BitVec 16) (s : State) : ∃ t, exec (.seth r imm) s = .next t := by
  by_cases hindex : r = 0 ∨ r = 3 ∨ r = 14
  · obtain ⟨reg, hreg, haddr⟩ := regOfIndex_of_sethIndex hindex
    exact ⟨_, exec_seth_of_address imm s hreg haddr⟩
  · simp only [not_or] at hindex
    obtain ⟨h0, h3, h14⟩ := hindex
    exact ⟨_, exec_seth_of_illegal imm s (not_isAddress_of_index h0 h3 h14)⟩

section
variable {s : State} (hscaled : s.x.mode ≠ 0 → surfaceScaled s.x = true)
include hscaled

/-- Of the three answers of step 4 of rule R96 the fault is shut out. -/
theorem onKind_next (k : Kind) (c : Word) (run : Flow Unit) : ∃ t, onKind k c s run = .next t := by
  rcases onKind_cases k c s run with ⟨-, hrun⟩ | ⟨-, -, hraise⟩ | ⟨-, hmode, hunscaled, -⟩
  · exact ⟨_, hrun⟩
  · exact ⟨_, hraise⟩
  · rw [hscaled hmode] at hunscaled
    cases hunscaled

/-- A command completes: it is straight-line, or a counted loop, or one of the two on a kind. -/
theorem exec_next (i : Instr) : ∃ t, exec i s = .next t := by
  cases i with
  | setl r imm => exact exec_setl_next r imm s
  | seth r imm => exact exec_seth_next r imm s
  | nop | composeCopy | composeCopyinv | composeAnd | composeOr | composeXor => exact ⟨_, rfl⟩
  | recolor | glyphget | glyphput => exact ⟨_, Flow.outcome_eq _⟩
  | mapaddr =>
    obtain ⟨run, hexec⟩ := exec_of_usesSurface (i := .mapaddr) rfl s
    exact hexec ▸ onKind_next hscaled .surf _ run
  | getpix | putpixCopy | putpixCopyinv | putpixAnd | putpixOr | putpixXor | putCopy | putCopyinv | putAnd
  | putOr | putXor | get | fill | print => exact onKind_next hscaled _ _ _

/-- A command word completes, discarded, illegal or run (rules R96, R97, R247). -/
theorem issue_next (c : Word) : ∃ t, issue c s = .next t := by
  unfold issue
  split
  · exact ⟨_, rfl⟩
  · split
    · exact exec_next (s := accept s) hscaled _
    · exact ⟨_, rfl⟩

end

/-- An access of the host's own to memory is made, or stops at a byte the platform does not have. -/
theorem hostAccess_cases (c : Config) (a : Nat) (u : State) :
    let access : Host.Outcome State Fault Refusal :=
      if hostReaches c a then .next u else .fault .hostAccessNoByte
    (∃ t, access = .next t) ∨ access = .fault .hostAccessNoByte ∧ hostReaches c a = false := by
  cases hostReaches c a with
  | true => exact .inl ⟨u, rfl⟩
  | false => exact .inr ⟨rfl, rfl⟩

/-- Settles O59, move by move: only a host access to a byte the platform does not have stops. -/
theorem everyCommandWordCompletes : Obligations.EveryCommandWordCompletes := by
  intro s hinv
  cases hmoves : s.moves with
  | nil => exact .inl ⟨s, by rw [step, hmoves]⟩
  | cons m rest =>
    rw [step_move hmoves]
    cases m with
    | reset | readRegister idx => exact .inl ⟨_, rfl⟩
    | command c => exact .inl (issue_next (s := { s with moves := rest }) hinv.surfaceScaled_of_graphics c)
    | readMemory a =>
      exact (hostAccess_cases s.cfg a _).imp_right fun ⟨hfault, hreach⟩ => ⟨hfault, a, rest, hreach, .inl rfl⟩
    | writeMemory a v =>
      exact (hostAccess_cases s.cfg a _).imp_right fun ⟨hfault, hreach⟩ =>
        ⟨hfault, a, rest, hreach, .inr ⟨v, rfl⟩⟩

end Sys2Proof.Machine
end

section
/-! PROOFS. O4: each word of V-E1 is the encoding of the command beside it, which the decoder gives back. -/

namespace Sys2Proof

/-- A row of an assembly table is checked by encoding its command (rules R91, R98). -/
theorem decode_of_encode_eq {i : Instr} {c : Word} (h : encode i = c) : decode c = .ok i :=
  h ▸ decode_encode i

/-- Settles O4: each word is the encoding of its command. -/
theorem specWordsDecode : Obligations.SpecWordsDecode := by
  unfold Obligations.SpecWordsDecode
  refine ⟨?_, ?_, ?_, ?_, ?_, ?_, ?_, ?_, ?_, ?_, ?_, ?_, ?_, ?_⟩ <;> exact decode_of_encode_eq (by decide)

end Sys2Proof
end
